-- ==== Sys2Proof/Word.lean ====
section
/-! DEFINITION. The widths the spec names: bytes of memory, the 16-bit register cells and DMA halves, the
32-bit frame words and addresses (00_scope.md R5). -/

namespace Sys2Proof

/-- A `u8`: one byte of `Mem` (10_state.md R35). -/
abbrev Byte := BitVec 8

/-- A `u16`: a register cell, an immediate, a 16-bit DMA unit. -/
abbrev Half := BitVec 16

/-- A `u32`: a frame word, an address, a handler address, a 32-bit DMA unit. -/
abbrev Word := BitVec 32

end Sys2Proof
end

