-- ==== Sys2Proof/Config.lean ====
section
/-! DEFINITION. The configuration record of 00_scope.md R4, the constraints R4 puts on it, a platform (a record that meets
them), the default platform with the value the spec uses for each parameter, and the one free value every draw of
93_implementation_defined.md is taken from. -/

namespace Sys2Proof

/-- The named parameters of 00_scope.md R4. Indices, counts and addresses are numbers; the key selection
mask is a 16-bit word. -/
structure Config where
  nSources       : Nat
  idxVblank      : Nat
  idxHblank      : Nat
  idxVcount      : Nat
  idxKeypad      : Nat
  idxDma0        : Nat
  linesTotal     : Nat
  linesVisible   : Nat
  linesVblank    : Nat
  nDma           : Nat
  dmaRomChannel  : Nat
  romBase        : Nat
  romSize        : Nat
  sramBase       : Nat
  sramSize       : Nat
  addrDispstat   : Nat
  addrVcount     : Nat
  addrDma0cnt    : Nat
  addrDma1cnt    : Nat
  addrDma2cnt    : Nat
  addrDma3cnt    : Nat
  addrKeyinput   : Nat
  addrKeycnt     : Nat
  addrIe         : Nat
  addrIf         : Nat
  addrIme        : Nat
  keySelMask     : Half
  deriving DecidableEq, Repr

/-- The eight source indices that must be distinct: the four `IDX_*` and the four `IDX_DMA0 + ch` (R4). -/
def Config.sourceIndices (c : Config) : List Nat :=
  [c.idxVblank, c.idxHblank, c.idxVcount, c.idxKeypad, c.idxDma0, c.idxDma0 + 1, c.idxDma0 + 2, c.idxDma0 + 3]

/-- The eleven register-port addresses (R4, 44_register_port.md R240). -/
def Config.registerAddresses (c : Config) : List Nat :=
  [c.addrDispstat, c.addrVcount, c.addrDma0cnt, c.addrDma1cnt, c.addrDma2cnt, c.addrDma3cnt, c.addrKeyinput,
   c.addrKeycnt, c.addrIe, c.addrIf, c.addrIme]

/-- The range `[a, a+n)` ends before `[b, b+m)` begins, or the other way round: for two ranges that are not empty, they share
no address. DESIGN CHOICE (log entry 16, safe): R4 does not say whether a region may be empty. One of size 0 is accepted
like any other, except that its base must not lie strictly inside the other range, although it shares no address with it. -/
abbrev RangesDisjoint (a n b m : Nat) : Prop := a + n ≤ b ∨ b + m ≤ a

/-- The constraints of R4, and with them what the widths of 10_state.md and 20_memory.md need of a record (log entry 1):
four channels, lines that fit the 8-bit counter, ranges inside the 32-bit space, a selection mask inside `SEL`. Where an
empty region may lie is log entry 16. -/
abbrev Config.Valid (c : Config) : Prop :=
  c.sourceIndices.Nodup ∧ (∀ i ∈ c.sourceIndices, i < c.nSources) ∧ 8 ≤ c.nSources ∧ c.nSources ≤ 16 ∧
  c.nDma = 4 ∧ c.dmaRomChannel < c.nDma ∧
  c.linesTotal = c.linesVisible + c.linesVblank ∧ 0 < c.linesTotal ∧ c.linesTotal ≤ 256 ∧
  c.romBase % 4 = 0 ∧ (c.romBase + c.romSize) % 4 = 0 ∧ c.sramBase % 4 = 0 ∧
  c.romBase + c.romSize ≤ 2 ^ 32 ∧ c.sramBase + c.sramSize ≤ 2 ^ 32 ∧
  RangesDisjoint c.romBase c.romSize c.sramBase c.sramSize ∧
  (∀ a ∈ c.registerAddresses, a < 2 ^ 32 ∧ a % 2 = 0 ∧ RangesDisjoint a 2 c.romBase c.romSize ∧
    RangesDisjoint a 2 c.sramBase c.sramSize) ∧
  c.registerAddresses.Nodup ∧ c.keySelMask &&& 0xFC00 = 0

/-- A configuration that meets its constraints: what a machine is built for. -/
structure Platform extends Config where
  ok : toConfig.Valid
  deriving DecidableEq, Repr

theorem Platform.nSources_le (c : Platform) : c.nSources ≤ 16 := c.ok.2.2.2.1

/-- Every source index the rules name is below N_SOURCES (R4). -/
theorem Platform.index_lt (c : Platform) {i : Nat} (h : i ∈ c.sourceIndices) : i < c.nSources := c.ok.2.1 i h

theorem Platform.index_lt_16 (c : Platform) {i : Nat} (h : i ∈ c.sourceIndices) : i < 16 :=
  Nat.lt_of_lt_of_le (c.index_lt h) c.nSources_le

/-- The value 00_scope.md R4 gives each parameter, "the default used in every example" (92_eei_decisions.md). -/
abbrev cfg : Config where
  nSources       := 14
  idxVblank      := 0
  idxHblank      := 1
  idxVcount      := 2
  idxKeypad      := 12
  idxDma0        := 8
  linesTotal     := 228
  linesVisible   := 160
  linesVblank    := 68
  nDma           := 4
  dmaRomChannel  := 3
  romBase        := 0x08000000
  romSize        := 0x06000000
  sramBase       := 0x0E000000
  sramSize       := 0x00010000
  addrDispstat   := 0x04000004
  addrVcount     := 0x04000006
  addrDma0cnt    := 0x040000BA
  addrDma1cnt    := 0x040000C6
  addrDma2cnt    := 0x040000D2
  addrDma3cnt    := 0x040000DE
  addrKeyinput   := 0x04000130
  addrKeycnt     := 0x04000132
  addrIe         := 0x04000200
  addrIf         := 0x04000202
  addrIme        := 0x04000208
  keySelMask     := 0x03FF#16

/-- The platform of the default values. -/
def Platform.standard : Platform := { cfg with
  ok := by refine ⟨?_, ?_, ?_, ?_, ?_, ?_, ?_, ?_, ?_, ?_, ?_, ?_, ?_, ?_, ?_, ?_, ?_, ?_⟩ <;> decide }

/-- The `n`-th draw (93_implementation_defined.md U1, U2, U4, U5): a word nothing constrains. A narrower draw
is its low bits. Free value, log entry 5. -/
opaque Config.draw : Nat → Word

end Sys2Proof
end

