-- ==== Sys2Proof/Syntax.lean ====
section
/-! DEFINITION. Operation frames, their two initiator classes, and the 27 operations of 30_encoding.md R103 with their
operands (IDX, F, IMM16, A, B, C of R101). -/

namespace Sys2Proof

/-- The two classes that present frames (00_scope.md R8, 60_exceptions.md R296). -/
inductive Initiator where
  | app  -- application code and its handlers
  | sub  -- the execution substrate
  deriving DecidableEq, Repr

/-- An operation frame: five 32-bit words presented together (30_encoding.md R100). -/
structure Frame where
  w0 : Word
  w1 : Word
  w2 : Word
  w3 : Word
  w4 : Word
  deriving DecidableEq, Repr

/-- One constructor per row of the operation map (30_encoding.md R103). `idx` is the field IDX, `f` the flag F,
`imm` IMM16, and `a`, `b`, `c` the operand words A, B, C. -/
inductive Instr where
  | irqInit
  | irqSeth (idx : BitVec 4) (f : Bool) (a : Word)
  | irqEn (idx : BitVec 4)
  | irqDis (idx : BitVec 4)
  | irqVcnt (imm : Half)
  | keyUpd
  | keyPrs
  | keyHld
  | keyRel
  | keyIrqall (imm : Half)
  | keyIrqany (imm : Half)
  | keyIrqoff
  | dmaCopy (idx : BitVec 4) (f : Bool) (a b c : Word)
  | dmaFill (idx : BitVec 4) (f : Bool) (a b c : Word)
  | dmaXfer (idx : BitVec 4) (imm : Half) (a b c : Word)
  | dmaStop (idx : BitVec 4)
  | sramWr (a b c : Word)
  | sramRd (a b c : Word)
  | regRd (a : Word)
  | regWr (imm : Half) (a : Word)
  | sysWaitvbl
  | sysFatal
  | evtDispatch (idx : BitVec 4)
  | evtHdone (idx : BitVec 4)
  | evtLine
  | evtHbl
  | evtKeys (imm : Half)
  deriving DecidableEq, Repr

end Sys2Proof
end

