-- ==== Sys2Proof/Decode.lean ====
section
/-! DEFINITION. The frame decoder of 30_encoding.md (R100 to R104, R110 step 2), total on every 160-bit frame, and after
it the encoder written from the same table (R103, R107), the table's match and mask columns, and the class of an operation. -/

namespace Sys2Proof

/-- Why a frame is illegal (30_encoding.md R104); both answer `ERR_ILLEGAL`. -/
inductive IllegalFrame where
  | unassignedOp    -- OP is in no row of R103
  | reservedField   -- Z, or a field the operation does not use, is not 0
  deriving DecidableEq, Repr

/-- The fields of W0 (30_encoding.md R101). -/
structure Header where
  op  : Byte
  idx : BitVec 4
  f   : Bool
  z   : BitVec 3
  imm : Half
  deriving DecidableEq, Repr

/-- W0 taken apart: OP 7:0, IDX 11:8, F 12, Z 15:13, IMM16 31:16 (R101). -/
def headerOf (w : Word) : Header where
  op  := w.extractLsb' 0 8
  idx := w.extractLsb' 8 4
  f   := w.getLsbD 12
  z   := w.extractLsb' 13 3
  imm := w.extractLsb' 16 16

/-- The fields put together: `{IMM16, Z, F, IDX, OP}` (R101). -/
def headerWord (h : Header) : Word :=
  h.imm ++ h.z ++ BitVec.ofBool h.f ++ h.idx ++ h.op

/-- A row that uses no field of W0 but OP. -/
def rowPlain (h : Header) (i : Instr) : Except IllegalFrame Instr :=
  if h.idx = 0 ∧ h.f = false ∧ h.z = 0 ∧ h.imm = 0 then .ok i else .error .reservedField

/-- A row that uses IDX. -/
def rowIdx (h : Header) (i : Instr) : Except IllegalFrame Instr :=
  if h.f = false ∧ h.z = 0 ∧ h.imm = 0 then .ok i else .error .reservedField

/-- A row that uses IDX and F. -/
def rowIdxF (h : Header) (i : Instr) : Except IllegalFrame Instr :=
  if h.z = 0 ∧ h.imm = 0 then .ok i else .error .reservedField

/-- A row that uses IMM16. -/
def rowImm (h : Header) (i : Instr) : Except IllegalFrame Instr :=
  if h.idx = 0 ∧ h.f = false ∧ h.z = 0 then .ok i else .error .reservedField

/-- A row that uses IDX and IMM16. -/
def rowIdxImm (h : Header) (i : Instr) : Except IllegalFrame Instr :=
  if h.f = false ∧ h.z = 0 then .ok i else .error .reservedField

/-- The operation map (30_encoding.md R103): one line per row, in the table's order. Every OP not listed is
unassigned, every nonzero unused field illegal (R104); operand words an operation does not use are ignored (R101). -/
def decode (fr : Frame) : Except IllegalFrame Instr :=
  let h := headerOf fr.w0
  match h.op.toNat with
  | 0x01 => rowPlain h .irqInit
  | 0x02 => rowIdxF h (.irqSeth h.idx h.f fr.w1)
  | 0x03 => rowIdx h (.irqEn h.idx)
  | 0x04 => rowIdx h (.irqDis h.idx)
  | 0x05 => rowImm h (.irqVcnt h.imm)
  | 0x10 => rowPlain h .keyUpd
  | 0x11 => rowPlain h .keyPrs
  | 0x12 => rowPlain h .keyHld
  | 0x13 => rowPlain h .keyRel
  | 0x14 => rowImm h (.keyIrqall h.imm)
  | 0x15 => rowImm h (.keyIrqany h.imm)
  | 0x16 => rowPlain h .keyIrqoff
  | 0x20 => rowIdxF h (.dmaCopy h.idx h.f fr.w1 fr.w2 fr.w3)
  | 0x21 => rowIdxF h (.dmaFill h.idx h.f fr.w1 fr.w2 fr.w3)
  | 0x22 => rowIdxImm h (.dmaXfer h.idx h.imm fr.w1 fr.w2 fr.w3)
  | 0x23 => rowIdx h (.dmaStop h.idx)
  | 0x30 => rowPlain h (.sramWr fr.w1 fr.w2 fr.w3)
  | 0x31 => rowPlain h (.sramRd fr.w1 fr.w2 fr.w3)
  | 0x38 => rowPlain h (.regRd fr.w1)
  | 0x39 => rowImm h (.regWr h.imm fr.w1)
  | 0x3E => rowPlain h .sysWaitvbl
  | 0x3F => rowPlain h .sysFatal
  | 0x80 => rowIdx h (.evtDispatch h.idx)
  | 0x81 => rowIdx h (.evtHdone h.idx)
  | 0x82 => rowPlain h .evtLine
  | 0x83 => rowPlain h .evtHbl
  | 0x84 => rowImm h (.evtKeys h.imm)
  | _ => .error .unassignedOp

/-- A frame from its header fields and operand words; D is 0 (R107). -/
def mkFrame (op : Byte) (idx : BitVec 4) (f : Bool) (imm : Half) (a b c : Word) : Frame :=
  ⟨headerWord ⟨op, idx, f, 0, imm⟩, a, b, c, 0⟩

/-- The frame of an operation: used fields as given, every unused field and operand word 0 (30_encoding.md R103, R107). -/
def encode : Instr → Frame
  | .irqInit => mkFrame 0x01 0 false 0 0 0 0
  | .irqSeth idx f a => mkFrame 0x02 idx f 0 a 0 0
  | .irqEn idx => mkFrame 0x03 idx false 0 0 0 0
  | .irqDis idx => mkFrame 0x04 idx false 0 0 0 0
  | .irqVcnt imm => mkFrame 0x05 0 false imm 0 0 0
  | .keyUpd => mkFrame 0x10 0 false 0 0 0 0
  | .keyPrs => mkFrame 0x11 0 false 0 0 0 0
  | .keyHld => mkFrame 0x12 0 false 0 0 0 0
  | .keyRel => mkFrame 0x13 0 false 0 0 0 0
  | .keyIrqall imm => mkFrame 0x14 0 false imm 0 0 0
  | .keyIrqany imm => mkFrame 0x15 0 false imm 0 0 0
  | .keyIrqoff => mkFrame 0x16 0 false 0 0 0 0
  | .dmaCopy idx f a b c => mkFrame 0x20 idx f 0 a b c
  | .dmaFill idx f a b c => mkFrame 0x21 idx f 0 a b c
  | .dmaXfer idx imm a b c => mkFrame 0x22 idx false imm a b c
  | .dmaStop idx => mkFrame 0x23 idx false 0 0 0 0
  | .sramWr a b c => mkFrame 0x30 0 false 0 a b c
  | .sramRd a b c => mkFrame 0x31 0 false 0 a b c
  | .regRd a => mkFrame 0x38 0 false 0 a 0 0
  | .regWr imm a => mkFrame 0x39 0 false imm a 0 0
  | .sysWaitvbl => mkFrame 0x3E 0 false 0 0 0 0
  | .sysFatal => mkFrame 0x3F 0 false 0 0 0 0
  | .evtDispatch idx => mkFrame 0x80 idx false 0 0 0 0
  | .evtHdone idx => mkFrame 0x81 idx false 0 0 0 0
  | .evtLine => mkFrame 0x82 0 false 0 0 0 0
  | .evtHbl => mkFrame 0x83 0 false 0 0 0 0
  | .evtKeys imm => mkFrame 0x84 0 false imm 0 0 0

/-- The initiator class of an operation: the "class" column of 30_encoding.md R103. -/
def classOf : Instr → Initiator
  | .irqInit => .app
  | .irqSeth _ _ _ => .app
  | .irqEn _ => .app
  | .irqDis _ => .app
  | .irqVcnt _ => .app
  | .keyUpd => .app
  | .keyPrs => .app
  | .keyHld => .app
  | .keyRel => .app
  | .keyIrqall _ => .app
  | .keyIrqany _ => .app
  | .keyIrqoff => .app
  | .dmaCopy _ _ _ _ _ => .app
  | .dmaFill _ _ _ _ _ => .app
  | .dmaXfer _ _ _ _ _ => .app
  | .dmaStop _ => .app
  | .sramWr _ _ _ => .app
  | .sramRd _ _ _ => .app
  | .regRd _ => .app
  | .regWr _ _ => .app
  | .sysWaitvbl => .app
  | .sysFatal => .app
  | .evtDispatch _ => .sub
  | .evtHdone _ => .sub
  | .evtLine => .sub
  | .evtHbl => .sub
  | .evtKeys _ => .sub

/-- A row of the operation map as 30_encoding.md R103 prints it: the `match` and `mask` columns and the class. -/
structure OpRow where
  mnemonic : String
  cls      : Initiator
  pattern  : Word
  mask     : Word
  deriving DecidableEq, Repr

/-- A W0 selects a row when `W0 & mask = match` (30_encoding.md R103). -/
def OpRow.selects (r : OpRow) (w0 : Word) : Prop := w0 &&& r.mask = r.pattern

/-- The operation map of 30_encoding.md R103, the columns `match`, `mask` and class word for word. -/
def opTable : List OpRow :=
  [⟨"IRQ.INIT",   .app, 0x00000001, 0xFFFFFFFF⟩, ⟨"IRQ.SETH",   .app, 0x00000002, 0xFFFFE0FF⟩,
   ⟨"IRQ.EN",     .app, 0x00000003, 0xFFFFF0FF⟩, ⟨"IRQ.DIS",    .app, 0x00000004, 0xFFFFF0FF⟩,
   ⟨"IRQ.VCNT",   .app, 0x00000005, 0x0000FFFF⟩, ⟨"KEY.UPD",    .app, 0x00000010, 0xFFFFFFFF⟩,
   ⟨"KEY.PRS",    .app, 0x00000011, 0xFFFFFFFF⟩, ⟨"KEY.HLD",    .app, 0x00000012, 0xFFFFFFFF⟩,
   ⟨"KEY.REL",    .app, 0x00000013, 0xFFFFFFFF⟩, ⟨"KEY.IRQALL", .app, 0x00000014, 0x0000FFFF⟩,
   ⟨"KEY.IRQANY", .app, 0x00000015, 0x0000FFFF⟩, ⟨"KEY.IRQOFF", .app, 0x00000016, 0xFFFFFFFF⟩] ++
  [⟨"DMA.COPY",   .app, 0x00000020, 0xFFFFE0FF⟩, ⟨"DMA.FILL",   .app, 0x00000021, 0xFFFFE0FF⟩,
   ⟨"DMA.XFER",   .app, 0x00000022, 0x0000F0FF⟩, ⟨"DMA.STOP",   .app, 0x00000023, 0xFFFFF0FF⟩,
   ⟨"SRAM.WR",    .app, 0x00000030, 0xFFFFFFFF⟩, ⟨"SRAM.RD",    .app, 0x00000031, 0xFFFFFFFF⟩,
   ⟨"REG.RD",     .app, 0x00000038, 0xFFFFFFFF⟩, ⟨"REG.WR",     .app, 0x00000039, 0x0000FFFF⟩,
   ⟨"SYS.WAITVBL", .app, 0x0000003E, 0xFFFFFFFF⟩, ⟨"SYS.FATAL", .app, 0x0000003F, 0xFFFFFFFF⟩] ++
  [⟨"EVT.DISPATCH", .sub, 0x00000080, 0xFFFFF0FF⟩, ⟨"EVT.HDONE", .sub, 0x00000081, 0xFFFFF0FF⟩,
   ⟨"EVT.LINE",   .sub, 0x00000082, 0xFFFFFFFF⟩, ⟨"EVT.HBL",    .sub, 0x00000083, 0xFFFFFFFF⟩,
   ⟨"EVT.KEYS",   .sub, 0x00000084, 0x0000FFFF⟩]

/-- The table's mnemonic of an operation (30_encoding.md R103). -/
def mnemonicOf : Instr → String
  | .irqInit => "IRQ.INIT"
  | .irqSeth _ _ _ => "IRQ.SETH"
  | .irqEn _ => "IRQ.EN"
  | .irqDis _ => "IRQ.DIS"
  | .irqVcnt _ => "IRQ.VCNT"
  | .keyUpd => "KEY.UPD"
  | .keyPrs => "KEY.PRS"
  | .keyHld => "KEY.HLD"
  | .keyRel => "KEY.REL"
  | .keyIrqall _ => "KEY.IRQALL"
  | .keyIrqany _ => "KEY.IRQANY"
  | .keyIrqoff => "KEY.IRQOFF"
  | .dmaCopy _ _ _ _ _ => "DMA.COPY"
  | .dmaFill _ _ _ _ _ => "DMA.FILL"
  | .dmaXfer _ _ _ _ _ => "DMA.XFER"
  | .dmaStop _ => "DMA.STOP"
  | .sramWr _ _ _ => "SRAM.WR"
  | .sramRd _ _ _ => "SRAM.RD"
  | .regRd _ => "REG.RD"
  | .regWr _ _ => "REG.WR"
  | .sysWaitvbl => "SYS.WAITVBL"
  | .sysFatal => "SYS.FATAL"
  | .evtDispatch _ => "EVT.DISPATCH"
  | .evtHdone _ => "EVT.HDONE"
  | .evtLine => "EVT.LINE"
  | .evtHbl => "EVT.HBL"
  | .evtKeys _ => "EVT.KEYS"

/-- The frame whose bits are `n`, bit 0 the least significant bit of W0 and W1's bits counting on from bit 32. -/
def frameOfNat (n : Nat) : Frame :=
  ⟨BitVec.ofNat 32 n, BitVec.ofNat 32 (n >>> 32), BitVec.ofNat 32 (n >>> 64), BitVec.ofNat 32 (n >>> 96),
   BitVec.ofNat 32 (n >>> 128)⟩

/-- The frame a table row's word stands for: every bit above `nbits` is 0, so operand words the row gives no bits are 0. -/
def frameOfTableWord (nbits w : Nat) : Frame := frameOfNat (w % 2 ^ nbits)

/-- What the decoder reads from a frame whose bits are `w`, numbered as spec/opcode_table.json numbers them. -/
def decodeTableWord (nbits w : Nat) : Option Instr :=
  match decode (frameOfTableWord nbits w) with
  | .ok i => some i
  | .error _ => none

end Sys2Proof
end

