-- ==== Sys2Proof/Machine/State.lean ====
section
/-! DEFINITION. The context of 10_state.md (R20 to R36) as plain data, with its value after reset (R40), the records of
the output trace, the result codes (60_exceptions.md R290), and the reasons a step can stop. -/

namespace Sys2Proof.Machine

/-- An interrupt source index, the place of its bit in IE, IF and in_service: 16 places, of which `0..N_SOURCES-1` are
sources (10_state.md R22, R29). -/
abbrev Source := Fin 16

/-- A DMA channel, `0..3` (10_state.md R28). -/
abbrev Channel := Fin 4

/-- The stored bits of DISPSTAT: three enables and the target (10_state.md R24). Bits 2:0 and 7:6 hold no state. -/
structure Dispstat where
  vblEn : Bool
  hblEn : Bool
  vcEn  : Bool
  vcTgt : Byte
  deriving DecidableEq, Repr

/-- One DMA channel (10_state.md R28): the control word, units per burst, the reload address, the working addresses. -/
structure DmaChannel where
  ctrl : Half
  cnt  : Word
  dad  : Word
  wsrc : Word
  wdst : Word
  deriving DecidableEq, Repr

/-- The keypad snapshot (10_state.md R30); bit 1 means pressed. -/
structure Snapshot where
  held     : Half
  heldPrev : Half
  pressed  : Half
  released : Half
  deriving DecidableEq, Repr

/-- The result codes of 60_exceptions.md R290. -/
inductive ResultCode where
  | ok          -- OK, 0
  | sramSize    -- ERR_SRAM_SIZE, -1
  | sramStart   -- ERR_SRAM_START, -2
  | sramEnd     -- ERR_SRAM_END, -3
  | channel     -- ERR_CHANNEL, -4
  | capability  -- ERR_CAPABILITY, -5
  | source      -- ERR_SOURCE, -6
  | access      -- ERR_ACCESS, -7
  | illegal     -- ERR_ILLEGAL, -8
  | halted      -- ERR_HALTED, -9
  | protocol    -- ERR_PROTOCOL, -10
  deriving DecidableEq, Repr

/-- A record of the output trace OUT (10_state.md R36). -/
inductive Record where
  | invoke (s : Source) (h : Word)             -- run the handler at h
  | wake                                       -- the suspended SYS.WAITVBL returns
  | resp (res : ResultCode) (data : Half)      -- the response of a frame
  deriving DecidableEq, Repr

/-- What arrives from outside, in order: a frame on the port of its class, or a byte the processor itself stores
between two frames (20_memory.md R78). Log entries 2 and 8. -/
inductive Input where
  | frame (who : Initiator) (fr : Frame)
  | cpuStore (addr : Word) (v : Byte)
  deriving DecidableEq, Repr

/-- `Mem` (10_state.md R35): address and byte, addresses strictly rising, no byte equal to what an unlisted address
reads as (Memory.unlisted). -/
abbrev Memory := List Host.Cell

/-- The context (10_state.md R20): the register file, the vector table, the keypad snapshot, the hidden state, OUT,
`Mem`, and three fields of the model's own, `pending` (log entry 2), `drawCount` (log entry 5) and `conf` (log entry 1). -/
structure State where
  /-- R21 -/
  ime : Bool
  /-- R22 -/
  ie : Half
  /-- R23, the register IF -/
  iflag : Half
  /-- R24 -/
  dispstat : Dispstat
  /-- R25 -/
  vcount : Byte
  /-- R26 -/
  keyinput : Half
  /-- R27 -/
  keycnt : Half
  /-- R28 -/
  dma : Vector DmaChannel 4
  /-- R29: the slots from N_SOURCES on do not exist and stay absent -/
  vec : Vector (Option Word) 16
  /-- R30 -/
  keys : Snapshot
  /-- R31 -/
  inService : Half
  /-- R32 -/
  waiting : Bool
  /-- R33 -/
  halted : Bool
  /-- R34 -/
  kpLinePrev : Bool
  /-- R36 -/
  out : List Record
  /-- R35 -/
  mem : Memory
  /-- the model's own: inputs presented and not yet accepted, oldest first -/
  pending : List Input
  /-- the model's own: how many draws have been made -/
  drawCount : Nat
  /-- the model's own: the configuration of 00_scope.md R4 the machine is built for; no step writes it -/
  conf : Platform
  deriving DecidableEq, Repr

/-- Why the machine stops with a fault. -/
inductive Fault where
  /-- Raised by `step` alone, when the block is halted (10_state.md R33, 93_implementation_defined.md U11) and no
  presented frame is left to accept: the run ends in the fault-class terminal state. Safe: it ends a run the spec
  says is never a normal end. Log entry 4. -/
  | fatalHalt
  deriving DecidableEq, Repr

/-- Why a step has no meaning. -/
inductive Refusal where
  /-- Raised by an arm of `exec` for an operation that has no meaning yet. Safe. No arm uses it. -/
  | notModelled (mnemonic : String)
  /-- Raised by DMA.XFER for a control word of 42_dma.md R192, which the spec refuses
  (93_implementation_defined.md U7). Safe. Log entry 9. -/
  | reservedControlWord
  /-- Raised by SRAM.WR and SRAM.RD when a byte of the copy falls on a register, which the spec refuses
  (20_memory.md R73, 93_implementation_defined.md U3). Safe. Log entry 9. -/
  | registerByteAccess
  deriving DecidableEq, Repr

/-- The three outcomes of a step of this machine. -/
abbrev Result := Host.Outcome State Fault Refusal

/-- How the body of an operation ends (00_scope.md R6, R9). -/
inductive Body where
  | done (data : Half) (t : State)   -- RESP(OK, data)
  | silent (t : State)               -- no RESP record: SYS.WAITVBL and SYS.FATAL
  | reject (code : ResultCode)       -- raise Reject(code): no state was written
  | refuse (r : Refusal)             -- refuse: no successor state

/-- A channel after reset: disarmed, all zero (10_state.md R40). -/
def DmaChannel.cleared : DmaChannel := ⟨0, 0, 0, 0, 0⟩

/-- Start-up (70_reset_and_hazards.md R330) of a platform over a memory that keeps its bytes: every member of the context
at the value of 10_state.md R40. KEYINPUT is the draw numbered `n`, made at reset (93_implementation_defined.md U2, log
entry 6). -/
def State.startUp (c : Platform) (mem : Memory) (n : Nat) : State where
  ime        := false
  ie         := 0
  iflag      := 0
  dispstat   := ⟨false, false, false, 0⟩
  vcount     := 0
  keyinput   := (Config.draw n).setWidth 16
  keycnt     := 0
  dma        := Vector.replicate _ DmaChannel.cleared
  vec        := Vector.replicate _ none
  keys       := ⟨0, 0, 0, 0⟩
  inService  := 0
  waiting    := false
  halted     := false
  kpLinePrev := false
  out        := []
  mem        := mem
  pending    := []
  drawCount  := n + 1
  conf       := c

/-- The machine right after the first start-up, of the default platform (log entry 1): no byte of `Mem` listed (log entry 7). -/
def State.reset : State := State.startUp Platform.standard [] 0

/-- Start-up of a machine that has run: `Mem` keeps its bytes, everything else is as after reset
(70_reset_and_hazards.md R330); a new draw is made for KEYINPUT. -/
def State.restart (s : State) : State := State.startUp s.conf s.mem s.drawCount

/-! The named updates: one per member of the context. -/

def State.setIme (s : State) (v : Bool) : State := { s with ime := v }
def State.setIe (s : State) (v : Half) : State := { s with ie := v }
def State.setIflag (s : State) (v : Half) : State := { s with iflag := v }
def State.setDispstat (s : State) (v : Dispstat) : State := { s with dispstat := v }
def State.setVcount (s : State) (v : Byte) : State := { s with vcount := v }
def State.setKeyinput (s : State) (v : Half) : State := { s with keyinput := v }
def State.setKeycnt (s : State) (v : Half) : State := { s with keycnt := v }
def State.setDma (s : State) (v : Vector DmaChannel 4) : State := { s with dma := v }
def State.setVec (s : State) (v : Vector (Option Word) 16) : State := { s with vec := v }
def State.setKeys (s : State) (v : Snapshot) : State := { s with keys := v }
def State.setInService (s : State) (v : Half) : State := { s with inService := v }
def State.setWaiting (s : State) (v : Bool) : State := { s with waiting := v }
def State.setHalted (s : State) (v : Bool) : State := { s with halted := v }
def State.setKpLinePrev (s : State) (v : Bool) : State := { s with kpLinePrev := v }
def State.setOut (s : State) (v : List Record) : State := { s with out := v }
def State.setMem (s : State) (v : Memory) : State := { s with mem := v }
def State.setPending (s : State) (v : List Input) : State := { s with pending := v }
def State.setDrawCount (s : State) (v : Nat) : State := { s with drawCount := v }

end Sys2Proof.Machine
end

