-- ==== Sys2Proof/Machine/Operands.lean ====
section
/-! DEFINITION. Every operand form of the operations: a source or channel index with its check, a DMA address with its
truncation and its unit count, the fields of the control word, the regions of the memory space, the storage bounds, the
register addresses. -/

namespace Sys2Proof.Machine

/-! ## Indices -/

/-- `valid(s)` (40_interrupt_controller.md R130): the source an IDX names, none when `IDX >= N_SOURCES`. -/
def sourceOf (c : Platform) (idx : BitVec 4) : Option Source :=
  if idx.toNat < c.nSources then some idx.toFin else none

/-- The channel check (42_dma.md R180): the channel an IDX names, none when `IDX >= 4`. -/
def channelOf (idx : BitVec 4) : Option Channel :=
  if h : idx.toNat < 4 then some ⟨idx.toNat, h⟩ else none

/-- The source indices of 00_scope.md R4. -/
def srcVblank (c : Platform) : Source := ⟨c.idxVblank, c.index_lt_16 (by simp [Config.sourceIndices])⟩
def srcHblank (c : Platform) : Source := ⟨c.idxHblank, c.index_lt_16 (by simp [Config.sourceIndices])⟩
def srcVcount (c : Platform) : Source := ⟨c.idxVcount, c.index_lt_16 (by simp [Config.sourceIndices])⟩
def srcKeypad (c : Platform) : Source := ⟨c.idxKeypad, c.index_lt_16 (by simp [Config.sourceIndices])⟩

/-- The end-of-transfer source `IDX_DMA0 + ch` (42_dma.md R191). -/
def srcDmaEnd (c : Platform) (ch : Channel) : Source :=
  ⟨c.idxDma0 + ch.val, Nat.lt_of_le_of_lt (Nat.add_le_add_left (Nat.le_of_lt_succ ch.isLt) _)
    (c.index_lt_16 (i := c.idxDma0 + 3) (by simp [Config.sourceIndices]))⟩

/-! ## Regions of the memory space (20_memory.md R71) -/

/-- `in_rom(a)` (42_dma.md R181), compared on Nat. -/
def inRom (c : Platform) (a : Word) : Bool := c.romBase ≤ a.toNat ∧ a.toNat < c.romBase + c.romSize

/-- `a` lies in the SRAM region. -/
def inSram (c : Platform) (a : Word) : Bool := c.sramBase ≤ a.toNat ∧ a.toNat < c.sramBase + c.sramSize

/-- The capability check (42_dma.md R181). -/
def capViolation (c : Platform) (ch : Channel) (src : Word) : Bool := inRom c src && ch.val != c.dmaRomChannel

/-! ## DMA operands -/

/-- The unit size in bytes: 4 for 32-bit units, 2 for 16-bit units (42_dma.md R182, R183). -/
def unitBytes (u32 : Bool) : Word := if u32 then 4 else 2

/-- Alignment by truncation (42_dma.md R182): `a & ~(ub - 1)`. -/
def truncAddr (u32 : Bool) (a : Word) : Word := a &&& ~~~(unitBytes u32 - 1)

/-- A byte length in units, rounded down: `C >> 2` or `C >> 1` (42_dma.md R184). -/
def unitCount (u32 : Bool) (len : Word) : Word := if u32 then len >>> 2 else len >>> 1

/-! ## Fields of the control word (10_state.md R28) -/

def ctrlLow (c : Half) : BitVec 5 := c.extractLsb' 0 5    -- 4:0, must be 0
def ctrlDm (c : Half) : BitVec 2 := c.extractLsb' 5 2     -- 6:5, 0 increment, 2 fixed, 3 reload
def ctrlSm (c : Half) : BitVec 2 := c.extractLsb' 7 2     -- 8:7, 0 increment, 2 fixed
def ctrlRpt (c : Half) : Bool := c.getLsbD 9              -- repeat flag
def ctrlU32 (c : Half) : Bool := c.getLsbD 10             -- 1 = 32-bit units
def ctrlRes11 (c : Half) : Bool := c.getLsbD 11           -- must be 0
def ctrlTm (c : Half) : BitVec 2 := c.extractLsb' 12 2    -- 13:12, 0 immediate, 1 VBlank, 2 HBlank, 3 special
def ctrlIrq (c : Half) : Bool := c.getLsbD 14             -- IRQ-on-end flag
def ctrlEn (c : Half) : Bool := c.getLsbD 15              -- armed

/-- A control word with EN cleared: the end of a burst, DMA.STOP, SYS.FATAL. -/
def disarmWord (c : Half) : Half := c &&& 0x7FFF

/-- The control word DMA.COPY programs (42_dma.md R184): EN, source and destination increment, immediate. -/
def copyWord (u32 : Bool) : Half := if u32 then 0x8400 else 0x8000

/-- The control word DMA.FILL programs (42_dma.md R185): EN, source fixed, destination increment, immediate. -/
def fillWord (u32 : Bool) : Half := if u32 then 0x8500 else 0x8100

/-- The control word DMA.XFER programs (42_dma.md R186): EN forced to 1, bits 14:12 and 10:5 kept. -/
def xferWord (cw : Half) : Half := 0x8000 ||| (cw &&& 0x77E0)

/-- `reserved_cw(cw)` (42_dma.md R192). -/
def reservedCw (cw : Half) : Bool :=
  ctrlLow cw != 0 || ctrlRes11 cw || ctrlDm cw == 1 || ctrlSm cw == 1 || ctrlSm cw == 3 || ctrlTm cw == 3

/-- `sstep` of a burst (42_dma.md R183): the unit size when SM = 0, else 0. -/
def srcStep (c : Half) : Word := if ctrlSm c = 0 then unitBytes (ctrlU32 c) else 0

/-- `dstep` of a burst (42_dma.md R183): 0 when DM = 2, else the unit size. -/
def dstStep (c : Half) : Word := if ctrlDm c = 2 then 0 else unitBytes (ctrlU32 c)

/-! ## Storage operands -/

/-- `BoundsCheck(t, n)` (43_storage.md R220), on Nat: the code of the first comparison that fails. -/
def boundsCheck (c : Platform) (t n : Word) : Option ResultCode :=
  if n.toNat > c.sramSize then some .sramSize
  else if t.toNat < c.sramBase then some .sramStart
  else if t.toNat + n.toNat > c.sramBase + c.sramSize then some .sramEnd
  else none

/-! ## Register addresses -/

/-- The registers of the port (44_register_port.md R240). -/
inductive Reg where
  | dispstat
  | vcount
  | dmaCnt (ch : Channel)
  | keyinput
  | keycnt
  | ie
  | iflag
  | ime
  deriving DecidableEq, Repr

/-- The register map (44_register_port.md R240). -/
def registerMap (c : Platform) : List (Nat × Reg) :=
  [(c.addrDispstat, .dispstat), (c.addrVcount, .vcount), (c.addrDma0cnt, .dmaCnt 0),
   (c.addrDma1cnt, .dmaCnt 1), (c.addrDma2cnt, .dmaCnt 2), (c.addrDma3cnt, .dmaCnt 3),
   (c.addrKeyinput, .keyinput), (c.addrKeycnt, .keycnt), (c.addrIe, .ie), (c.addrIf, .iflag),
   (c.addrIme, .ime)]

/-- The register at an address, compared in full: no mirrors (44_register_port.md R243). -/
def regAt (c : Platform) (a : Word) : Option Reg := (registerMap c).lookup a.toNat

/-- The registers a write leaves as they are (44_register_port.md R242). -/
def Reg.readOnly : Reg → Bool
  | .vcount => true
  | .keyinput => true
  | .dmaCnt _ => true
  | .dispstat => false
  | .keycnt => false
  | .ie => false
  | .iflag => false
  | .ime => false

/-- A byte access at `a` falls on a register: `a` or `a-1` is one of the addresses (20_memory.md R73). -/
def onRegister (c : Platform) (a : Word) : Bool := (regAt c a).isSome || (regAt c (a - 1)).isSome

/-- Some byte of the `n` bytes at `a` (addresses modulo 2^32) falls on a register. -/
def touchesRegister (c : Platform) (a : Word) : Nat → Bool
  | 0 => false
  | n + 1 => onRegister c a || touchesRegister c (a + 1) n

end Sys2Proof.Machine
end

