-- ==== Sys2Proof/Machine/Flags.lean ====
section
/-! DEFINITION. Every flag computation: the bits of IE, IF and in_service, the display coupling, the dispatch condition,
the keypad line, the result codes as numbers, the scanline successor. -/

namespace Sys2Proof.Machine

/-! ## One bit per source (10_state.md R22, R23, R31) -/

/-- Bit `s` of a per-source word. -/
def bitOf (w : Half) (s : Source) : Bool := w.getLsbD s.val

/-- The word with bit `s` set. -/
def setBit (w : Half) (s : Source) : Half := w ||| (1#16 <<< s.val)

/-- The word with bit `s` cleared. -/
def clearBit (w : Half) (s : Source) : Half := w &&& ~~~(1#16 <<< s.val)

/-- Write one to clear (44_register_port.md R242): `IF & ~data`. -/
def ackFlags (w d : Half) : Half := w &&& ~~~d

/-! ## The display coupling (40_interrupt_controller.md R130) -/

/-- `display_linked(s)`. -/
def displayLinked (c : Platform) (s : Source) : Bool := s == srcVblank c || s == srcHblank c || s == srcVcount c

/-- The DISPSTAT enable of a display-linked source, `DISPSTAT[ds_bit(s)]`; false for any other source. -/
def Dispstat.enableOf (c : Platform) (d : Dispstat) (s : Source) : Bool :=
  if s = srcVblank c then d.vblEn
  else if s = srcHblank c then d.hblEn
  else if s = srcVcount c then d.vcEn
  else false

/-- DISPSTAT with the enable of a display-linked source written; any other source writes nothing. -/
def Dispstat.setEnable (c : Platform) (d : Dispstat) (s : Source) (v : Bool) : Dispstat :=
  if s = srcVblank c then { d with vblEn := v }
  else if s = srcHblank c then { d with hblEn := v }
  else if s = srcVcount c then { d with vcEn := v }
  else d

/-- `line_on(s)`: the source's interrupt line is asserted. -/
def lineOn (s : Source) (t : State) : Bool := !displayLinked t.conf s || t.dispstat.enableOf t.conf s

/-- `taken` of `Dispatch` (40_interrupt_controller.md R136). -/
def takes (s : Source) (t : State) : Bool :=
  t.ime && bitOf t.ie s && lineOn s t && !bitOf t.inService s

/-! ## The keypad line (41_keypad.md R168) -/

/-- `KeypadLine()`: KIRQ_EN, and all (COND = 1) or any (COND = 0) of the selected buttons down. -/
def keypadLine (t : State) : Bool :=
  let sel : BitVec 10 := t.keycnt.extractLsb' 0 10
  let down : BitVec 10 := sel &&& (~~~t.keyinput).extractLsb' 0 10
  t.keycnt.getLsbD 14 && (if t.keycnt.getLsbD 15 then down == sel else down != 0)

/-- The stored bits of KEYCNT (10_state.md R27). -/
def keycntMask : Half := 0xC3FF

/-! ## The scanline (00_scope.md R11, 10_state.md R25) -/

/-- `next_line(v) = (v + 1) mod LINES_TOTAL` (228). -/
def nextLine (c : Platform) (v : Byte) : Byte := BitVec.ofNat 8 ((v.toNat + 1) % c.linesTotal)

/-- A 16-bit operand reduced to a scanline: `y mod LINES_TOTAL` (40_interrupt_controller.md R135). -/
def lineOf (c : Platform) (y : Half) : Byte := BitVec.ofNat 8 (y.toNat % c.linesTotal)

/-- The display is in its vertical-blanking interval: `VCOUNT >= LINES_VISIBLE` (10_state.md R25). -/
def inVblank (t : State) : Bool := t.conf.linesVisible ≤ t.vcount.toNat

/-! ## The hold of the APP port (45_system_and_timing.md R264) -/

/-- `waiting = 1` and no handler in service. -/
def appHeld (t : State) : Bool := t.waiting && t.inService == 0

/-! ## Result codes as numbers (60_exceptions.md R290, 30_encoding.md R109) -/

/-- `RES` as a signed number. -/
def ResultCode.value : ResultCode → Int
  | .ok => 0
  | .sramSize => -1
  | .sramStart => -2
  | .sramEnd => -3
  | .channel => -4
  | .capability => -5
  | .source => -6
  | .access => -7
  | .illegal => -8
  | .halted => -9
  | .protocol => -10

/-- A response on a port: `RES` as a two's-complement word and `DATA` zero-extended (30_encoding.md R109). -/
def responseWords (code : ResultCode) (data : Half) : Word × Word :=
  (BitVec.ofInt 32 code.value, data.setWidth 32)

end Sys2Proof.Machine
end

