-- ==== Sys2Proof/Machine/Ops.lean ====
section
/-! DEFINITION. The named operations over memory and registers: bytes of `Mem`, draws, the register port, the memory
primitives (20_memory.md), the dispatch decision with interrupt entry and return, the keypad epilogue, the end of a
frame, DMA bursts and triggers, the storage copy, and the acceptance of inputs. -/

namespace Sys2Proof.Machine

/-! ## Bytes of `Mem` (10_state.md R35) -/

/-- What an unlisted address reads as (DESIGN CHOICE, log entry 7: unsafe, the spec leaves it unspecified). -/
def Memory.unlisted : Byte := 0

/-- The byte at an address. -/
def Memory.read : Memory → Nat → Byte
  | [], _ => Memory.unlisted
  | (k, b) :: rest, a => if k = a then b else Memory.read rest a

/-- A cell in front of a memory, left out when its byte is what an unlisted address reads as. -/
def Memory.put (a : Nat) (v : Byte) (rest : Memory) : Memory :=
  if v = Memory.unlisted then rest else (a, v) :: rest

/-- One byte written, the canonical form kept. -/
def Memory.write : Memory → Nat → Byte → Memory
  | [], a, v => Memory.put a v []
  | (k, b) :: rest, a, v =>
    if a < k then Memory.put a v ((k, b) :: rest)
    else if a = k then Memory.put a v rest
    else (k, b) :: Memory.write rest a v

/-- Every listed address is at least `lo` and below 2^32, addresses rise, no byte is the unlisted one. -/
def Memory.wfFrom : Nat → Memory → Bool
  | _, [] => true
  | lo, (k, b) :: rest => decide (lo ≤ k) && decide (k < 2 ^ 32) && b != Memory.unlisted && Memory.wfFrom (k + 1) rest

/-- The canonical form of a memory. -/
def Memory.wf (m : Memory) : Bool := Memory.wfFrom 0 m

/-- The byte of `Mem` at a word address. -/
def readByte (t : State) (a : Word) : Byte := Memory.read t.mem a.toNat

/-- One byte of `Mem` written as it is, with no routing. -/
def pokeByte (a : Word) (v : Byte) (t : State) : State := t.setMem (Memory.write t.mem a.toNat v)

/-- Two bytes of `Mem`, the low byte at the lower address (20_memory.md R72). -/
def pokeHalf (a : Word) (v : Half) (t : State) : State :=
  pokeByte (a + 1) (v.extractLsb' 8 8) (pokeByte a (v.extractLsb' 0 8) t)

/-- Four bytes of `Mem`, little-endian. -/
def pokeWord (a : Word) (v : Word) (t : State) : State :=
  pokeHalf (a + 2) (v.extractLsb' 16 16) (pokeHalf a (v.extractLsb' 0 16) t)

/-! ## Draws (93_implementation_defined.md) -/

/-- A draw: a value nothing constrains, and the state that has made it. -/
def drawValue (t : State) : Word × State := (Config.draw t.drawCount, t.setDrawCount (t.drawCount + 1))

/-! ## The output trace (10_state.md R36) -/

/-- `emit X`: the record appended to OUT. -/
def emit (r : Record) (t : State) : State := t.setOut (t.out ++ [r])

/-! ## The register port (44_register_port.md R241, R242) -/

/-- DISPSTAT as a read gives it: `{VC_TGT, draw[1:0], VC_EN, HBL_EN, VBL_EN, draw[2:0]}`, the draw's bits from `d`. -/
def dispstatWord (d : Dispstat) (free : Word) : Half :=
  d.vcTgt ++ free.extractLsb' 3 2 ++ BitVec.ofBool d.vcEn ++ BitVec.ofBool d.hblEn ++ BitVec.ofBool d.vblEn ++
    free.extractLsb' 0 3

/-- DISPSTAT from a written word: bits 5:3 and 15:8 stored raw, the others ignored. -/
def dispstatOf (w : Half) : Dispstat :=
  ⟨w.getLsbD 3, w.getLsbD 4, w.getLsbD 5, w.extractLsb' 8 8⟩

/-- `RegRead16` (R241): the value, and the state after (a DISPSTAT read makes a draw, nothing else changes). -/
def regRead (r : Reg) (t : State) : Half × State :=
  match r with
  | .dispstat => (dispstatWord t.dispstat (drawValue t).1, (drawValue t).2)
  | .vcount => (t.vcount.setWidth 16, t)
  | .dmaCnt ch => (t.dma[ch].ctrl, t)
  | .keyinput => (t.keyinput, t)
  | .keycnt => (t.keycnt, t)
  | .ie => (t.ie, t)
  | .iflag => (t.iflag, t)
  | .ime => ((BitVec.ofBool t.ime).setWidth 16, t)

/-- `RegWrite16` (R242): a read-only register writes nothing. -/
def regWrite (r : Reg) (d : Half) (t : State) : State :=
  match r with
  | .dispstat => t.setDispstat (dispstatOf d)
  | .keycnt => t.setKeycnt (d &&& keycntMask)
  | .ie => t.setIe d
  | .iflag => t.setIflag (ackFlags t.iflag d)
  | .ime => t.setIme (d.getLsbD 0)
  | .vcount => t
  | .keyinput => t
  | .dmaCnt _ => t

/-! ## The memory primitives (20_memory.md R73) -/

/-- `MemRead(a, 2)`. -/
def memRead16 (a : Word) (t : State) : Half × State :=
  match regAt t.conf a with
  | some r => regRead r t
  | none => (readByte t (a + 1) ++ readByte t a, t)

/-- `MemRead(a, 4)`: the low half first. -/
def memRead32 (a : Word) (t : State) : Word × State :=
  let lo := memRead16 a t
  let hi := memRead16 (a + 2) lo.2
  (hi.1 ++ lo.1, hi.2)

/-- `MemRead(a, 1)`: none where the spec refuses. -/
def memRead8 (a : Word) (t : State) : Option Byte :=
  if onRegister t.conf a then none else some (readByte t a)

/-- `MemWrite(a, 2, v)`. -/
def memWrite16 (a : Word) (v : Half) (t : State) : State :=
  match regAt t.conf a with
  | some r => regWrite r v t
  | none => if inRom t.conf a then t else pokeHalf a v t

/-- `MemWrite(a, 4, v)`: the low half first. -/
def memWrite32 (a : Word) (v : Word) (t : State) : State :=
  memWrite16 (a + 2) (v.extractLsb' 16 16) (memWrite16 a (v.extractLsb' 0 16) t)

/-- `MemWrite(a, 1, v)`: none where the spec refuses. -/
def memWrite8 (a : Word) (v : Byte) (t : State) : Option State :=
  if onRegister t.conf a then none else if inRom t.conf a then some t else some (pokeByte a v t)

/-! ## Interrupts: the decision, entry and return (40_interrupt_controller.md R136, R138; 60_exceptions.md R294, R295) -/

/-- Interrupt entry (60_exceptions.md R294): the handler is in service and its address handed out. The pending flag
was set by the decision; nothing is saved, masked or acknowledged. -/
def enterHandler (s : Source) (h : Word) (t : State) : State :=
  emit (.invoke s h) (t.setInService (setBit t.inService s))

/-- A serviced VBlank wakes the suspended caller (45_system_and_timing.md R262). -/
def wakeIfWaiting (s : Source) (t : State) : State :=
  if s = srcVblank t.conf ∧ t.waiting = true then emit .wake (t.setWaiting false) else t

/-- The pending latch of `Dispatch`: IF[s] is set when the line is asserted. -/
def latch (s : Source) (t : State) : State := if lineOn s t then t.setIflag (setBit t.iflag s) else t

/-- `Dispatch(s)` (R136): the state after, and whether a handler was invoked. -/
def dispatch (s : Source) (t : State) : State × Bool :=
  let t1 := latch s t
  if takes s t1 then
    match t1.vec[s] with
    | some h => (enterHandler s h t1, true)
    | none => (wakeIfWaiting s t1, false)
  else (t1, false)

/-- `Dispatch` of each source in turn. -/
def dispatchAll : List Source → State → State
  | [], t => t
  | s :: rest, t => dispatchAll rest (dispatch s t).1

/-- Return from a handler (R138, 60_exceptions.md R295): its bit is cleared, a VBlank return wakes the waiter. -/
def leaveHandler (s : Source) (t : State) : State :=
  wakeIfWaiting s (t.setInService (clearBit t.inService s))

/-! ## The end of a frame -/

/-- `KeypadEpilogue()` (41_keypad.md R169): a rising edge of the keypad line is the Keypad event. -/
def keypadEpilogue (t : State) : State :=
  let now := keypadLine t
  let t1 := if now && !t.kpLinePrev then (dispatch (srcKeypad t.conf) t).1 else t
  t1.setKpLinePrev now

/-- The response after the epilogue (45_system_and_timing.md R265, 00_scope.md R9). -/
def respond (code : ResultCode) (data : Half) (t : State) : State := emit (.resp code data) (keypadEpilogue t)

/-- A rejected frame (00_scope.md R6): no state written, the epilogue, `RESP(code, 0)`. -/
def rejectFrame (code : ResultCode) (t : State) : Result := .next (respond code 0 t)

/-- The body's end, the epilogue and the response (30_encoding.md R110 steps 5 to 7); `t` is the state the body met. -/
def finish (t : State) : Body → Result
  | .done data t' => .next (respond .ok data t')
  | .silent t' => .next (keypadEpilogue t')
  | .reject code => rejectFrame code t
  | .refuse r => .refused r

/-! ## DMA (42_dma.md) -/

/-- The record of a channel. -/
def State.setChannel (t : State) (ch : Channel) (d : DmaChannel) : State := t.setDma (t.dma.set ch d)

/-- `DmaRead(ch, a, ub)` (R183): a draw for a channel that cannot reach mass storage (U5) and for the SRAM region (U4);
a 16-bit unit is the low half. -/
def dmaRead (ch : Channel) (a : Word) (u32 : Bool) (t : State) : Word × State :=
  if capViolation t.conf ch a then drawValue t
  else if inSram t.conf a then drawValue t
  else if u32 then memRead32 a t
  else ((memRead16 a t).1.setWidth 32, (memRead16 a t).2)

/-- `DmaWrite(a, ub, v)` (R183): in the SRAM region the touched bytes become a draw (U4). -/
def dmaWrite (a : Word) (u32 : Bool) (v : Word) (t : State) : State :=
  if inSram t.conf a then
    let d := drawValue t
    if u32 then pokeWord a d.1 d.2 else pokeHalf a (d.1.extractLsb' 0 16) d.2
  else if u32 then memWrite32 a v t
  else memWrite16 a (v.extractLsb' 0 16) t

/-- The working addresses after a unit under the control word `c` (R183). -/
def DmaChannel.advance (c : Half) (d : DmaChannel) : DmaChannel :=
  { d with wsrc := d.wsrc + srcStep c, wdst := d.wdst + dstStep c }

/-- One unit of a burst under the control word `c`: read (or take the fill value), write, step (R183). -/
def burstUnit (ch : Channel) (fill : Option Word) (c : Half) (t : State) : State :=
  let r : Word × State :=
    match fill with
    | some x => (x, t)
    | none => dmaRead ch t.dma[ch].wsrc (ctrlU32 c) t
  let t2 := dmaWrite t.dma[ch].wdst (ctrlU32 c) r.1 r.2
  t2.setChannel ch (t2.dma[ch].advance c)

/-- `n` units of a burst, one after another. -/
def burstUnits (ch : Channel) (fill : Option Word) (c : Half) : Nat → State → State
  | 0, t => t
  | n + 1, t => burstUnits ch fill c n (burstUnit ch fill c t)

/-- The end of a burst under the control word `c` (R183): a repeating deferred channel stays armed, with its destination
reloaded in reload mode; any other is disarmed. -/
def DmaChannel.endBurst (c : Half) (d : DmaChannel) : DmaChannel :=
  if ctrlRpt c = true ∧ ctrlTm c ≠ 0 then
    if ctrlDm c = 3 then { d with wdst := d.dad } else d
  else { d with ctrl := disarmWord d.ctrl }

/-- `Burst(ch, fv)` (R183): the state after, and whether an end-of-transfer event is due. -/
def burst (ch : Channel) (fill : Option Word) (t : State) : State × Bool :=
  let c := t.dma[ch].ctrl
  let t1 := burstUnits ch fill c t.dma[ch].cnt.toNat t
  (t1.setChannel ch (t1.dma[ch].endBurst c), ctrlIrq c)

/-- The channels in order (R188). -/
def channels : List Channel := [0, 1, 2, 3]

/-- The burst of each listed channel that is armed with timing `tm` when its turn comes, and the end-of-transfer sources
due, in channel order (R188). -/
def triggerChannels (tm : BitVec 2) : List Channel → State → State × List Source
  | [], t => (t, [])
  | ch :: rest, t =>
    if ctrlEn t.dma[ch].ctrl = true ∧ ctrlTm t.dma[ch].ctrl = tm then
      let b := burst ch none t
      let r := triggerChannels tm rest b.1
      (r.1, if b.2 then srcDmaEnd t.conf ch :: r.2 else r.2)
    else triggerChannels tm rest t

/-- `TriggerDMA(t)` (R188): timing 1 is VBlank, 2 is HBlank. -/
def triggerDma (tm : BitVec 2) (t : State) : State × List Source := triggerChannels tm channels t

/-! ## The storage copy (43_storage.md R221, R222, R224) -/

/-- `n` bytes from `src` to `dst`, ascending, one byte access at a time; none where a byte falls on a register. -/
def copyBytes : Nat → Word → Word → State → Option State
  | 0, _, _, t => some t
  | n + 1, dst, src, t =>
    match memRead8 src t with
    | none => none
    | some b =>
      match memWrite8 dst b t with
      | none => none
      | some t' => copyBytes n (dst + 1) (src + 1) t'

/-- The body both storage operations share: the bounds check on `target`, then the copy. -/
def storageBody (target dst src size : Word) (t : State) : Body :=
  match boundsCheck t.conf target size with
  | some code => .reject code
  | none =>
    match copyBytes size.toNat dst src t with
    | some t' => .done 0 t'
    | none => .refuse .registerByteAccess

/-! ## Inputs (30_encoding.md R110 step 1, 45_system_and_timing.md R264) -/

/-- An input the hold of the APP port keeps waiting. -/
def Input.fromApp : Input → Bool
  | .frame .app _ => true
  | .frame .sub _ => false
  | .cpuStore _ _ => false

/-- The first input that can be accepted, and the inputs that stay pending: while the APP port is held its frames wait
in their places and later inputs pass them. -/
def takeInput (held : Bool) : List Input → Option (Input × List Input)
  | [] => none
  | x :: rest =>
    if held && x.fromApp then
      match takeInput held rest with
      | none => none
      | some (y, left) => some (y, x :: left)
    else some (x, rest)

/-- A byte the processor stores between two frames: any byte outside the SRAM region (20_memory.md R78, log entry 8). -/
def cpuStoreByte (a : Word) (v : Byte) (t : State) : State := if inSram t.conf a then t else pokeByte a v t

end Sys2Proof.Machine
end

