-- ==== Sys2Proof/Machine/Dma.lean ====
section
/-! DEFINITION. The DMA operations (42_dma.md R184 to R187). -/

namespace Sys2Proof.Machine

/-- `DMA.COPY` (R184): channel check, capability check, program, one immediate burst. -/
def execDmaCopy (idx : BitVec 4) (f : Bool) (a b c : Word) (t : State) : Result :=
  finish t <|
    match channelOf idx with
    | none => .reject .channel
    | some ch =>
      if capViolation t.conf ch a then .reject .capability
      else
        .done 0 (burst ch none (t.setChannel ch
          { ctrl := copyWord f, cnt := unitCount f c, dad := truncAddr f b, wsrc := truncAddr f a,
            wdst := truncAddr f b })).1

/-- `DMA.FILL` (R185): channel check, program (the working source stays as it was), one immediate burst of the value A. -/
def execDmaFill (idx : BitVec 4) (f : Bool) (a b c : Word) (t : State) : Result :=
  finish t <|
    match channelOf idx with
    | none => .reject .channel
    | some ch =>
      .done 0 (burst ch (some a) (t.setChannel ch
        { ctrl := fillWord f, cnt := unitCount f c, dad := truncAddr f b, wsrc := t.dma[ch].wsrc,
          wdst := truncAddr f b })).1

/-- `DMA.XFER` (R186): channel check, capability check, refusal of a reserved control word (R192), program; an immediate
timing runs one burst and raises its end event at once (R191), a deferred one leaves the channel armed. -/
def execDmaXfer (idx : BitVec 4) (imm : Half) (a b c : Word) (t : State) : Result :=
  finish t <|
    match channelOf idx with
    | none => .reject .channel
    | some ch =>
      if capViolation t.conf ch a then .reject .capability
      else if reservedCw imm then .refuse .reservedControlWord
      else
        let t1 := t.setChannel ch
          { ctrl := xferWord imm, cnt := c, dad := truncAddr (ctrlU32 imm) b, wsrc := truncAddr (ctrlU32 imm) a,
            wdst := truncAddr (ctrlU32 imm) b }
        if ctrlTm imm = 0 then
          let r := burst ch none t1
          .done 0 (if r.2 then (dispatch (srcDmaEnd t.conf ch) r.1).1 else r.1)
        else .done 0 t1

/-- `DMA.STOP` (R187): the channel is disarmed, its other members kept. -/
def execDmaStop (idx : BitVec 4) (t : State) : Result :=
  finish t <|
    match channelOf idx with
    | none => .reject .channel
    | some ch => .done 0 (t.setChannel ch { t.dma[ch] with ctrl := disarmWord t.dma[ch].ctrl })

end Sys2Proof.Machine
end

