-- ==== Sys2Proof/Machine/Evt.lean ====
section
/-! DEFINITION. The substrate's operations but EVT.KEYS (40_interrupt_controller.md R137, R138; 45_system_and_timing.md
R260, R261). -/

namespace Sys2Proof.Machine

/-- `EVT.DISPATCH` (R137): `Dispatch` of a valid source; DATA tells whether a handler was invoked. -/
def execEvtDispatch (idx : BitVec 4) (t : State) : Result :=
  finish t <|
    match sourceOf t.conf idx with
    | none => .reject .source
    | some s => .done (if (dispatch s t).2 then 1 else 0) (dispatch s t).1

/-- `EVT.HDONE` (R138): the handler of a source in service has returned. -/
def execEvtHdone (idx : BitVec 4) (t : State) : Result :=
  finish t <|
    match sourceOf t.conf idx with
    | none => .reject .source
    | some s => if bitOf t.inService s then .done 0 (leaveHandler s t) else .reject .protocol

/-- The start of VBlank, when the counter has become LINES_VISIBLE (160): the VBlank-timed bursts, then the VBlank event
(R260); the end-of-transfer sources due are answered with the state. -/
def vblankStart (t : State) : State × List Source :=
  if t.vcount.toNat = t.conf.linesVisible then
    ((dispatch (srcVblank t.conf) (triggerDma 1 t).1).1, (triggerDma 1 t).2)
  else (t, [])

/-- The VCount event, when the counter is the target (R260). -/
def vcountMatch (t : State) : State := if t.vcount = t.dispstat.vcTgt then (dispatch (srcVcount t.conf) t).1 else t

/-- The body of a new scanline (R260): the counter, the start of VBlank, the VCount match, then the end-of-transfer
events. -/
def startLine (t : State) : State :=
  let r := vblankStart (t.setVcount (nextLine t.conf t.vcount))
  dispatchAll r.2 (vcountMatch r.1)

/-- `EVT.LINE` (R260). -/
def execEvtLine (t : State) : Result := finish t (.done 0 (startLine t))

/-- The HBlank-timed bursts, outside VBlank only (42_dma.md R189). -/
def hblankBursts (t : State) : State × List Source := if inVblank t then (t, []) else triggerDma 2 t

/-- The body of a horizontal blank (R261): the gated bursts, HBlank on every line, then the end-of-transfer events. -/
def startHblank (t : State) : State :=
  let r := hblankBursts t
  dispatchAll r.2 (dispatch (srcHblank t.conf) r.1).1

/-- `EVT.HBL` (R261). -/
def execEvtHbl (t : State) : Result := finish t (.done 0 (startHblank t))

end Sys2Proof.Machine
end

