-- ==== Sys2Proof/Machine/Irq.lean ====
section
/-! DEFINITION. The interrupt controller's application operations (40_interrupt_controller.md R131 to R135). -/

namespace Sys2Proof.Machine

/-- `IRQ.INIT` (R131): every slot absent, IME on, IE and IF clear. -/
def execIrqInit (t : State) : Result :=
  finish t (.done 0 ((((t.setVec (Vector.replicate _ none)).setIme true).setIe 0).setIflag 0))

/-- `IRQ.SETH` (R132): the slot of a valid source is the handler A, or absent when F = 0. -/
def execIrqSeth (idx : BitVec 4) (f : Bool) (a : Word) (t : State) : Result :=
  finish t <|
    match sourceOf t.conf idx with
    | none => .reject .source
    | some s => .done 0 (t.setVec (t.vec.set s (if f then some a else none)))

/-- `IRQ.EN` (R133): the IE bit, and for a display-linked source its DISPSTAT enable. -/
def execIrqEn (idx : BitVec 4) (t : State) : Result :=
  finish t <|
    match sourceOf t.conf idx with
    | none => .reject .source
    | some s => .done 0 ((t.setIe (setBit t.ie s)).setDispstat (t.dispstat.setEnable t.conf s true))

/-- `IRQ.DIS` (R134): the mirror of `IRQ.EN`; VEC keeps its slot (90_conflicts.md C1). -/
def execIrqDis (idx : BitVec 4) (t : State) : Result :=
  finish t <|
    match sourceOf t.conf idx with
    | none => .reject .source
    | some s => .done 0 ((t.setIe (clearBit t.ie s)).setDispstat (t.dispstat.setEnable t.conf s false))

/-- `IRQ.VCNT` (R135): the target is IMM16 mod LINES_TOTAL, the enables kept. -/
def execIrqVcnt (imm : Half) (t : State) : Result :=
  finish t (.done 0 (t.setDispstat { t.dispstat with vcTgt := lineOf t.conf imm }))

end Sys2Proof.Machine
end

