-- ==== Sys2Proof/Machine/Key.lean ====
section
/-! DEFINITION. The keypad operations (41_keypad.md R160 to R167). -/

namespace Sys2Proof.Machine

/-- The snapshot after a sample of the raw lines (R160): all 16 bits complemented, edges against the last sample. -/
def Snapshot.sample (k : Snapshot) (lines : Half) : Snapshot where
  heldPrev := k.held
  held     := ~~~lines
  pressed  := ~~~lines &&& ~~~k.held
  released := k.held &&& ~~~(~~~lines)

/-- `KEY.UPD` (R160). -/
def execKeyUpd (t : State) : Result := finish t (.done 0 (t.setKeys (t.keys.sample t.keyinput)))

/-- `KEY.PRS` (R161). -/
def execKeyPrs (t : State) : Result := finish t (.done t.keys.pressed t)

/-- `KEY.HLD` (R162). -/
def execKeyHld (t : State) : Result := finish t (.done t.keys.held t)

/-- `KEY.REL` (R163). -/
def execKeyRel (t : State) : Result := finish t (.done t.keys.released t)

/-- `KEY.IRQALL` (R164): the AND condition over the selected buttons, enabled. -/
def execKeyIrqall (imm : Half) (t : State) : Result :=
  finish t (.done 0 (t.setKeycnt (0xC000 ||| (imm &&& t.conf.keySelMask))))

/-- `KEY.IRQANY` (R165): the OR condition over the selected buttons, enabled. -/
def execKeyIrqany (imm : Half) (t : State) : Result :=
  finish t (.done 0 (t.setKeycnt (0x4000 ||| (imm &&& t.conf.keySelMask))))

/-- `KEY.IRQOFF` (R166). -/
def execKeyIrqoff (t : State) : Result := finish t (.done 0 (t.setKeycnt 0))

/-- `EVT.KEYS` (R167): the raw lines now have the value IMM16. -/
def execEvtKeys (imm : Half) (t : State) : Result := finish t (.done 0 (t.setKeyinput imm))

end Sys2Proof.Machine
end

