-- ==== Sys2Proof/Machine/RegPort.lean ====
section
/-! DEFINITION. The register port's operations (44_register_port.md R243, R244). -/

namespace Sys2Proof.Machine

/-- `REG.RD` (R243). -/
def execRegRd (a : Word) (t : State) : Result :=
  finish t <|
    match regAt t.conf a with
    | none => .reject .access
    | some r => .done (regRead r t).1 (regRead r t).2

/-- `REG.WR` (R244): an address outside the map and a read-only register are rejected. -/
def execRegWr (imm : Half) (a : Word) (t : State) : Result :=
  finish t <|
    match regAt t.conf a with
    | none => .reject .access
    | some r => if r.readOnly then .reject .access else .done 0 (regWrite r imm t)

end Sys2Proof.Machine
end

