-- ==== Sys2Proof/Machine/Sram.lean ====
section
/-! DEFINITION. The persistent-storage operations (43_storage.md R221, R222). -/

namespace Sys2Proof.Machine

/-- `SRAM.WR` (R221): A = dst is the checked side, B = src is anywhere, C bytes. -/
def execSramWr (a b c : Word) (t : State) : Result := finish t (storageBody a a b c t)

/-- `SRAM.RD` (R222): B = src is the checked side, A = dst is anywhere, C bytes. -/
def execSramRd (a b c : Word) (t : State) : Result := finish t (storageBody b a b c t)

end Sys2Proof.Machine
end

