-- ==== Sys2Proof/Machine/Sys.lean ====
section
/-! DEFINITION. The frame wait and the fatal halt (45_system_and_timing.md R262, R263). -/

namespace Sys2Proof.Machine

/-- `SYS.WAITVBL` (R262): the caller is suspended; its return is a later WAKE, not a response. -/
def execSysWaitvbl (t : State) : Result := finish t (.silent (t.setWaiting true))

/-- Every channel disarmed, its other members kept (R263). -/
def disarmAll (t : State) : State :=
  t.setDma (Vector.ofFn fun ch => { t.dma[ch] with ctrl := disarmWord t.dma[ch].ctrl })

/-- The fatal policy (R263): channels disarmed, vectors absent, only the VBlank interrupt enabled, nobody waiting, halted. -/
def fatalState (t : State) : State :=
  let t1 := (disarmAll t).setVec (Vector.replicate _ none)
  let t2 := t1.setIe (setBit 0 (srcVblank t.conf))
  let t3 := t2.setDispstat { t.dispstat with vblEn := true, hblEn := false, vcEn := false }
  ((t3.setIme true).setWaiting false).setHalted true

/-- `SYS.FATAL` (R263): no response. -/
def execSysFatal (t : State) : Result := finish t (.silent (fatalState t))

end Sys2Proof.Machine
end

