-- ==== Sys2Proof/Machine/Dispatch.lean ====
section
/-! DEFINITION. One arm per operation of 30_encoding.md R103: the whole of an accepted frame past the decode checks
(R110 steps 5 to 7). -/

namespace Sys2Proof.Machine

def exec (i : Instr) (s : State) : Host.Outcome State Fault Refusal :=
  match i with
  | .irqInit => Sys2Proof.Machine.execIrqInit s
  | .irqSeth idx f a => Sys2Proof.Machine.execIrqSeth idx f a s
  | .irqEn idx => Sys2Proof.Machine.execIrqEn idx s
  | .irqDis idx => Sys2Proof.Machine.execIrqDis idx s
  | .irqVcnt imm => Sys2Proof.Machine.execIrqVcnt imm s
  | .keyUpd => Sys2Proof.Machine.execKeyUpd s
  | .keyPrs => Sys2Proof.Machine.execKeyPrs s
  | .keyHld => Sys2Proof.Machine.execKeyHld s
  | .keyRel => Sys2Proof.Machine.execKeyRel s
  | .keyIrqall imm => Sys2Proof.Machine.execKeyIrqall imm s
  | .keyIrqany imm => Sys2Proof.Machine.execKeyIrqany imm s
  | .keyIrqoff => Sys2Proof.Machine.execKeyIrqoff s
  | .dmaCopy idx f a b c => Sys2Proof.Machine.execDmaCopy idx f a b c s
  | .dmaFill idx f a b c => Sys2Proof.Machine.execDmaFill idx f a b c s
  | .dmaXfer idx imm a b c => Sys2Proof.Machine.execDmaXfer idx imm a b c s
  | .dmaStop idx => Sys2Proof.Machine.execDmaStop idx s
  | .sramWr a b c => Sys2Proof.Machine.execSramWr a b c s
  | .sramRd a b c => Sys2Proof.Machine.execSramRd a b c s
  | .regRd a => Sys2Proof.Machine.execRegRd a s
  | .regWr imm a => Sys2Proof.Machine.execRegWr imm a s
  | .sysWaitvbl => Sys2Proof.Machine.execSysWaitvbl s
  | .sysFatal => Sys2Proof.Machine.execSysFatal s
  | .evtDispatch idx => Sys2Proof.Machine.execEvtDispatch idx s
  | .evtHdone idx => Sys2Proof.Machine.execEvtHdone idx s
  | .evtLine => Sys2Proof.Machine.execEvtLine s
  | .evtHbl => Sys2Proof.Machine.execEvtHbl s
  | .evtKeys imm => Sys2Proof.Machine.execEvtKeys imm s

end Sys2Proof.Machine
end

