-- ==== Sys2Proof/Machine/Accept.lean ====
section
/-! DEFINITION. The acceptance of one input: the decode checks of a presented frame in the order of 30_encoding.md R110,
and a processor's store between frames. -/

namespace Sys2Proof.Machine

/-- A presented frame past the hold (30_encoding.md R110 steps 2 to 7): match, initiator class, halted, then the operation. -/
def acceptFrame (who : Initiator) (fr : Frame) (t : State) : Result :=
  match decode fr with
  | .error _ => rejectFrame .illegal t
  | .ok i =>
    if classOf i ≠ who then rejectFrame .illegal t
    else if who = .app ∧ t.halted = true then rejectFrame .halted t
    else exec i t

/-- One accepted input. -/
def acceptInput (x : Input) (t : State) : Result :=
  match x with
  | .frame who fr => acceptFrame who fr t
  | .cpuStore a v => .next (cpuStoreByte a v t)

/-- Nothing can be accepted: a run that waits stays as it is (93_implementation_defined.md U12, log entry 3), a halted
run ends in the fault-class terminal state (U11, log entry 4). -/
def idle (t : State) : Result := if t.halted then .fault .fatalHalt else .next t

/-- One step: the first input that can be accepted, taken out of `pending`. -/
def stepInput (t : State) : Result :=
  match takeInput (appHeld t) t.pending with
  | none => idle t
  | some (x, left) => acceptInput x (t.setPending left)

/-- The class a frame of this OP is presented by: bit 7 of OP is 1 exactly for SUB (30_encoding.md R103). -/
def presenterOf (fr : Frame) : Initiator := if fr.w0.getLsbD 7 then .sub else .app

/-- The frame of a table word as the oldest pending input, on the port of its class (log entry 10). -/
def presentTableWord (nbits w : Nat) (t : State) : State :=
  t.setPending (.frame (presenterOf (frameOfTableWord nbits w)) (frameOfTableWord nbits w) :: t.pending)

end Sys2Proof.Machine
end

