-- ==== Sys2Proof/Machine/Step.lean ====
section
/-! DEFINITION. One step of the machine, and the presentation of a table word (both written in Machine/Accept.lean). -/

namespace Sys2Proof.Machine

/-- One step: one accepted frame, run to its end (00_scope.md R7). -/
def step (s : State) : Host.Outcome State Fault Refusal := stepInput s

/-- `s` with the frame of a table word presented, so that the next step runs it (log entry 10). -/
def State.withFetchWord (s : State) (nbits w : Nat) : State := presentTableWord nbits w s

end Sys2Proof.Machine
end

