-- ==== Sys2Proof/Safety.lean ====
section
/-! DEFINITION. The terms claims about runs use: the states a run passes, the fault-class terminal state, a wait that
nothing ends, and the invariants that rule out states no run reaches. -/

namespace Sys2Proof.Machine

/-- One step of the machine leads from `s` to `t`. -/
def Steps (s t : State) : Prop := step s = .next t

/-- The states some run from start-up over a canonical memory passes, whatever inputs arrive on the way. -/
inductive Reachable : State → Prop where
  | start (c : Platform) (mem : Memory) (n : Nat) (h : mem.wf = true) : Reachable (State.startUp c mem n)
  | arrive (s : State) (xs : List Input) (h : Reachable s) : Reachable (s.setPending (s.pending ++ xs))
  | step (s t : State) (h : Reachable s) (hst : Steps s t) : Reachable t

/-- The run has entered the fault-class terminal state (10_state.md R33): it is never a normal end. -/
def Failed (s : State) : Prop := s.halted = true

/-- The block is suspended and nothing presented can be accepted (70_reset_and_hazards.md R341): the run hangs. -/
def Hung (s : State) : Prop := s.halted = false ∧ s.waiting = true ∧ takeInput (appHeld s) s.pending = none

/-- The edge memory holds the line's present value (10_state.md R34): true at the end of every frame. -/
def KeypadSettled (s : State) : Prop := s.kpLinePrev = keypadLine s

/-- The fields of the register file hold values their widths allow (10_state.md R23, R25, R27, R29, R31): the scanline is
below LINES_TOTAL, KEYCNT bits 13:10 are 0, IF and in_service have no bit and VEC has no handler at or above N_SOURCES. -/
def RegistersLegal (s : State) : Prop :=
  s.vcount.toNat < s.conf.linesTotal ∧ s.keycnt &&& ~~~keycntMask = 0 ∧
  (∀ k, s.conf.nSources ≤ k → s.iflag.getLsbD k = false ∧ s.inService.getLsbD k = false) ∧
  (∀ src : Source, s.conf.nSources ≤ src.val → s.vec[src] = none)

/-- A channel's control word has its reserved bits 0 (10_state.md R28); an armed channel has a deferred timing, no
reserved code, and addresses aligned to its unit (20_memory.md R74, 42_dma.md R182, R186). -/
def ChannelLegal (d : DmaChannel) : Prop :=
  ctrlLow d.ctrl = 0 ∧ ctrlRes11 d.ctrl = false ∧
  (ctrlEn d.ctrl = true →
    (ctrlTm d.ctrl = 1 ∨ ctrlTm d.ctrl = 2) ∧ reservedCw d.ctrl = false ∧
    truncAddr (ctrlU32 d.ctrl) d.wsrc = d.wsrc ∧ truncAddr (ctrlU32 d.ctrl) d.wdst = d.wdst ∧
    truncAddr (ctrlU32 d.ctrl) d.dad = d.dad)

/-- Every channel is legal. -/
def ChannelsLegal (s : State) : Prop := ∀ ch : Channel, ChannelLegal s.dma[ch]

/-- The derived masks of the snapshot are derived (10_state.md R30, 41_keypad.md R170). -/
def SnapshotDerived (k : Snapshot) : Prop :=
  k.pressed = k.held &&& ~~~k.heldPrev ∧ k.released = k.heldPrev &&& ~~~k.held

/-- What SYS.FATAL leaves for good (45_system_and_timing.md R263): no handler installed, nobody waiting, no channel armed. -/
def HaltedQuiet (s : State) : Prop :=
  s.halted = true →
    (∀ src : Source, s.vec[src] = none) ∧ s.waiting = false ∧ ∀ ch : Channel, ctrlEn s.dma[ch].ctrl = false

/-- How many bytes a burst of the channel stores to: its units times the unit size, or one unit's bytes when the
destination is fixed (42_dma.md R183). -/
def DmaChannel.span (d : DmaChannel) : Nat :=
  (unitBytes (ctrlU32 d.ctrl)).toNat * (if ctrlDm d.ctrl = 2 then min d.cnt.toNat 1 else d.cnt.toNat)

/-- `x` is one of the byte addresses a burst of the channel stores to, counted from its working destination modulo 2^32. -/
def DmaChannel.covers (d : DmaChannel) (x : Word) : Prop :=
  ∃ j, j < d.span ∧ x = d.wdst + BitVec.ofNat 32 j

/-- The channel is armed with timing `tm` (42_dma.md R188). -/
def DmaChannel.armedFor (d : DmaChannel) (tm : BitVec 2) : Prop := ctrlEn d.ctrl = true ∧ ctrlTm d.ctrl = tm

/-- The record is a response. -/
def Record.isResp : Record → Bool
  | .resp _ _ => true
  | .invoke _ _ => false
  | .wake => false

end Sys2Proof.Machine
end

