-- ==== Sys2Proof/WellFormed.lean ====
section
/-! DEFINITION. Which operand values an operation gives a meaning: a value that is ill-formed decodes all the same
(30_encoding.md R104) and the operation's own rule rejects or refuses it. -/

namespace Sys2Proof

open Machine

/-- The operands of an operation pass every check its rule makes on operands alone: a valid source (40 R130), a channel
below 4 (42 R180), no capability violation (42 R181), no reserved control word (42 R192), the storage bounds (43 R220),
no register byte on either side of a storage copy (20 R73), a register address in the map (44 R243), a writable one (44 R244). -/
def Instr.wellFormed (p : Platform) : Instr → Bool
  | .irqInit => true
  | .irqSeth idx _ _ => (sourceOf p idx).isSome
  | .irqEn idx => (sourceOf p idx).isSome
  | .irqDis idx => (sourceOf p idx).isSome
  | .irqVcnt _ => true
  | .keyUpd => true
  | .keyPrs => true
  | .keyHld => true
  | .keyRel => true
  | .keyIrqall _ => true
  | .keyIrqany _ => true
  | .keyIrqoff => true
  | .dmaCopy idx _ a _ _ => (channelOf idx).any (fun ch => !capViolation p ch a)
  | .dmaFill idx _ _ _ _ => (channelOf idx).isSome
  | .dmaXfer idx imm a _ _ => (channelOf idx).any (fun ch => !capViolation p ch a) && !reservedCw imm
  | .dmaStop idx => (channelOf idx).isSome
  | .sramWr a b c => (boundsCheck p a c).isNone && !touchesRegister p b c.toNat && !touchesRegister p a c.toNat
  | .sramRd a b c => (boundsCheck p b c).isNone && !touchesRegister p b c.toNat && !touchesRegister p a c.toNat
  | .regRd a => (regAt p a).isSome
  | .regWr _ a => (regAt p a).any (fun r => !r.readOnly)
  | .sysWaitvbl => true
  | .sysFatal => true
  | .evtDispatch idx => (sourceOf p idx).isSome
  | .evtHdone idx => (sourceOf p idx).isSome
  | .evtLine => true
  | .evtHbl => true
  | .evtKeys _ => true

end Sys2Proof
end

