-- ==== Sys2Proof/Certificates/Slice0/Obligations.lean ====
section
/-! DEFINITION. The statements for the provers. Each names the rule of spec/ it comes from. Where a statement needs the
edge memory of the keypad to hold the line's value, `KeypadSettled` is its premise; that every step leaves it so is the
statement `StepLeavesKeypadSettled`. The numbers of the configuration (00_scope.md R4) are the state's own: a statement
holds for every platform. -/

open Sys2Proof Sys2Proof.Machine

/-! ## Encoding -/

/-- Worked frames of 30_encoding.md R107 and of the examples of R132, R133, R135, R164, R167, R185, R186, R244, R137, and
the illegal frames of R104 (95_test_vectors.md 2.1). -/
def Obligations.WorkedFramesDecode : Prop :=
  decode ⟨0x00001320, 0x08000000, 0x02000000, 0x00000010, 0⟩ = .ok (.dmaCopy 3 true 0x08000000 0x02000000 16) ∧
  decode ⟨0x00001002, 0x08000100, 0, 0, 0⟩ = .ok (.irqSeth 0 true 0x08000100) ∧
  decode ⟨0x00000104, 0, 0, 0, 0⟩ = .ok (.irqDis 1) ∧
  decode ⟨0x00640005, 0, 0, 0, 0⟩ = .ok (.irqVcnt 100) ∧
  decode ⟨0x00030014, 0, 0, 0, 0⟩ = .ok (.keyIrqall 0x0003) ∧
  decode ⟨0x03FE0084, 0, 0, 0, 0⟩ = .ok (.evtKeys 0x03FE) ∧
  decode ⟨0x00000121, 0x0000BEEF, 0x02000010, 6, 0⟩ = .ok (.dmaFill 1 false 0x0000BEEF 0x02000010 6) ∧
  decode ⟨0x23000022, 0x04000006, 0x02000000, 1, 0⟩ = .ok (.dmaXfer 0 0x2300 0x04000006 0x02000000 1) ∧
  decode ⟨0x00040039, 0x04000202, 0, 0, 0⟩ = .ok (.regWr 0x0004 0x04000202) ∧
  decode ⟨0x00000C80, 0, 0, 0, 0⟩ = .ok (.evtDispatch 12) ∧
  decode ⟨0x00000031, 0x02000100, 0x0E000000, 4, 0⟩ = .ok (.sramRd 0x02000100 0x0E000000 4) ∧
  decode ⟨0x0000003E, 0, 0, 0, 0⟩ = .ok .sysWaitvbl ∧
  decode ⟨0x00000006, 0, 0, 0, 0⟩ = .error .unassignedOp ∧
  decode ⟨0x00002003, 0, 0, 0, 0⟩ = .error .reservedField ∧
  decode ⟨0x00001122, 0, 0, 0, 0⟩ = .error .reservedField

/-- The frame of every operation, with every operand at every value, decodes to that operation, and whatever a frame decodes
to, that operation's own encoding has the frame's W0: each W0 has one meaning (30_encoding.md R101 to R104). -/
def Obligations.DecodeOfEncode : Prop :=
  (∀ i : Instr, decode (encode i) = .ok i) ∧
  (∀ (fr : Frame) (i : Instr), decode fr = .ok i → (encode i).w0 = fr.w0)

/-- The decoder accepts exactly the frames whose W0 selects a row by `W0 & mask = match`, with that row's mnemonic and
class, and calls every other frame illegal; the rows are disjoint (R103, R104). -/
def Obligations.DecoderAgreesWithMatchMask : Prop :=
  (∀ (fr : Frame) (i : Instr), decode fr = .ok i →
    ∃ r ∈ opTable, r.selects fr.w0 ∧ r.mnemonic = mnemonicOf i ∧ r.cls = classOf i) ∧
  (∀ (fr : Frame) (e : IllegalFrame), decode fr = .error e → ∀ r ∈ opTable, ¬ r.selects fr.w0) ∧
  (∀ (w0 : Word) (r1 r2 : OpRow), r1 ∈ opTable → r2 ∈ opTable → r1.selects w0 → r2.selects w0 → r1 = r2)

/-! ## Steps -/

/-- A step runs the decoded operation: when the first input that can be accepted is a frame that decodes to `i`, from the
class of `i`, and the block is not halted for it, the step is `exec i` of the state with that frame taken out of `pending`
(30_encoding.md R110). -/
def Obligations.StepRunsDecodedFrame : Prop :=
  ∀ (s : State) (who : Initiator) (fr : Frame) (left : List Input) (i : Instr),
    takeInput (appHeld s) s.pending = some (.frame who fr, left) → decode fr = .ok i → classOf i = who →
    (who = .app → s.halted = false) → step s = exec i (s.setPending left)

/-- The decode checks that reject (R104, R105, R110): an illegal W0 and a wrong class answer ERR_ILLEGAL, before the halted
check; an APP frame of a halted block answers ERR_HALTED; none changes any state but the response. -/
def Obligations.StepRejectsInOrder : Prop :=
  ∀ (s : State) (who : Initiator) (fr : Frame) (left : List Input), KeypadSettled s →
    takeInput (appHeld s) s.pending = some (.frame who fr, left) →
    (∀ e, decode fr = .error e → step s = .next (emit (.resp .illegal 0) (s.setPending left))) ∧
    (∀ i, decode fr = .ok i → classOf i ≠ who → step s = .next (emit (.resp .illegal 0) (s.setPending left))) ∧
    (∀ i, decode fr = .ok i → classOf i = who → who = .app → s.halted = true →
      step s = .next (emit (.resp .halted 0) (s.setPending left)))

/-- The hold (45_system_and_timing.md R264): while `waiting = 1` and no handler is in service, APP frames stay pending in
their places and the next SUB frame is accepted past them; with none the run stays as it is. Otherwise the oldest input is
accepted, of either class. That the inputs form one list is the model's choice (log entry 2), and that a hang is a step
that changes nothing (log entry 3). -/
def Obligations.AppPortHeldWhileWaiting : Prop :=
  ∀ (s : State) (xs ys : List Input) (fr : Frame), (∀ x ∈ xs, ∃ f, x = Input.frame .app f) →
    (s.waiting = true → s.inService = 0 → s.pending = xs ++ .frame .sub fr :: ys →
      step s = acceptFrame .sub fr (s.setPending (xs ++ ys))) ∧
    (s.waiting = true → s.inService = 0 → s.halted = false → s.pending = xs → step s = .next s) ∧
    (∀ who, (s.waiting = false ∨ s.inService ≠ 0) → s.pending = .frame who fr :: ys →
      step s = acceptFrame who fr (s.setPending ys))

/-- OUT is append-only (10_state.md R36). -/
def Obligations.OutOnlyGrows : Prop :=
  ∀ s t : State, step s = .next t → ∃ rs : List Record, t.out = s.out ++ rs

/-- Every frame that completes answers exactly one response, last; SYS.WAITVBL and SYS.FATAL answer none (00_scope.md R9). -/
def Obligations.OneResponsePerFrame : Prop :=
  ∀ (i : Instr) (s t : State), exec i s = .next t →
    (i ≠ .sysWaitvbl → i ≠ .sysFatal →
      ∃ (rs : List Record) (code : ResultCode) (d : Half), t.out = s.out ++ rs ++ [.resp code d] ∧
        ∀ r ∈ rs, r.isResp = false) ∧
    ((i = .sysWaitvbl ∨ i = .sysFatal) → ∃ rs : List Record, t.out = s.out ++ rs ∧ ∀ r ∈ rs, r.isResp = false)

/-- A rejected operation changes no state: when the response is not OK, the state is as before but for that response, and
its DATA is 0 (00_scope.md R6, 60_exceptions.md R290). -/
def Obligations.RejectionChangesNothing : Prop :=
  ∀ (i : Instr) (s t : State) (rs : List Record) (code : ResultCode) (d : Half), KeypadSettled s →
    exec i s = .next t → t.out = s.out ++ rs ++ [.resp code d] → i ≠ .sysWaitvbl → i ≠ .sysFatal → code ≠ .ok →
    t = emit (.resp code 0) s

/-- No operation faults, and an operation is refused exactly where the spec refuses it: DMA.XFER on a valid channel, past
the capability check, with a reserved control word (42_dma.md R192); a storage operation in bounds with a byte of the copy
on a register (20_memory.md R73). -/
def Obligations.RefusedExactlyWhereTheSpecRefuses : Prop :=
  ∀ (i : Instr) (s : State),
    (∀ f, exec i s ≠ .fault f) ∧
    (∀ r, exec i s = .refused r ↔
      (r = .reservedControlWord ∧ ∃ (ch : Channel) (cw : Half) (a b c : Word),
        i = .dmaXfer (BitVec.ofNat 4 ch.val) cw a b c ∧ capViolation s.conf ch a = false ∧
        (cw &&& 0x001F ≠ 0 ∨ cw &&& 0x0800 ≠ 0 ∨ cw &&& 0x0060 = 0x0020 ∨ cw &&& 0x0180 = 0x0080 ∨
         cw &&& 0x0180 = 0x0180 ∨ cw &&& 0x3000 = 0x3000)) ∨
      (r = .registerByteAccess ∧ ∃ (a b c g : Word),
        ((i = .sramWr a b c ∧ g = a) ∨ (i = .sramRd a b c ∧ g = b)) ∧ boundsCheck s.conf g c = none ∧
        ∃ k, k < c.toNat ∧
          (onRegister s.conf (b + BitVec.ofNat 32 k) = true ∨ onRegister s.conf (a + BitVec.ofNat 32 k) = true)))

/-- Operands that pass every check of their rule are carried out: a well-formed operation answers a next state, with OK as
its response where it has one (EVT.HDONE also needs its source in service). -/
def Obligations.WellFormedSucceeds : Prop :=
  ∀ (i : Instr) (s : State), i.wellFormed s.conf = true →
    (∀ idx, i = .evtHdone idx → s.inService.getLsbD idx.toNat = true) →
    ∃ t, exec i s = .next t ∧
      (i ≠ .sysWaitvbl → i ≠ .sysFatal → ∃ rs d, t.out = s.out ++ rs ++ [.resp .ok d])

/-- Only reset leaves the halted state (10_state.md R33, 60_exceptions.md R300), and only SYS.FATAL enters it. -/
def Obligations.HaltedEnteredByFatalOnly : Prop :=
  (∀ s t : State, step s = .next t → s.halted = true → t.halted = true) ∧
  (∀ (i : Instr) (s t : State), exec i s = .next t → t.halted = true → s.halted = true ∨ i = .sysFatal)

/-- A wait ends only with a WAKE in OUT or by SYS.FATAL (45_system_and_timing.md R262, 60_exceptions.md R299). -/
def Obligations.WaitEndsByWakeOrFatal : Prop :=
  ∀ (i : Instr) (s t : State), exec i s = .next t → s.waiting = true → t.waiting = false →
    i = .sysFatal ∨ ∃ rs : List Record, t.out = s.out ++ rs ∧ Record.wake ∈ rs

/-! ## Invariants every step keeps -/

/-- Every step keeps the canonical form of `Mem`. -/
def Obligations.StepKeepsMemoryCanonical : Prop :=
  ∀ s t : State, s.mem.wf = true → step s = .next t → t.mem.wf = true

/-- Every step keeps the register fields in their ranges (10_state.md R23, R25, R27, R31). -/
def Obligations.StepKeepsRegistersLegal : Prop :=
  ∀ s t : State, RegistersLegal s → step s = .next t → RegistersLegal t

/-- Between frames every armed channel has a deferred timing, no reserved code and aligned addresses, and the reserved
bits of every control word are 0 (10_state.md R28, 20_memory.md R74, 42_dma.md R193 d). -/
def Obligations.StepKeepsChannelsLegal : Prop :=
  ∀ s t : State, ChannelsLegal s → step s = .next t → ChannelsLegal t

/-- The derived masks stay derived (10_state.md R30, 41_keypad.md R170). -/
def Obligations.StepKeepsSnapshotDerived : Prop :=
  ∀ s t : State, SnapshotDerived s.keys → step s = .next t → SnapshotDerived t.keys

/-- At the end of every frame the edge memory holds the keypad line's value (10_state.md R34, 45_system_and_timing.md R265). -/
def Obligations.StepLeavesKeypadSettled : Prop :=
  ∀ s t : State, KeypadSettled s → step s = .next t → KeypadSettled t

/-- What SYS.FATAL leaves stays so: no handler, nobody waiting, no channel armed (45_system_and_timing.md R263). -/
def Obligations.StepKeepsHaltedQuiet : Prop :=
  ∀ s t : State, HaltedQuiet s → step s = .next t → HaltedQuiet t

/-- Start-up over a canonical memory meets every invariant, and so does reset (10_state.md R40). -/
def Obligations.StartUpMeetsInvariants : Prop :=
  (∀ (c : Platform) (m : Memory) (n : Nat), m.wf = true →
    let s := State.startUp c m n
    s.mem.wf = true ∧ RegistersLegal s ∧ ChannelsLegal s ∧ SnapshotDerived s.keys ∧ KeypadSettled s ∧ HaltedQuiet s) ∧
  State.reset.mem.wf = true

/-- Reset values (10_state.md R40, 70_reset_and_hazards.md R330): every member the rule gives a value has it, `Mem` keeps
its bytes, OUT is empty. KEYINPUT is a draw and is not stated. -/
def Obligations.RestartGivesResetValues : Prop :=
  ∀ s : State,
    let r := s.restart
    r.ime = false ∧ r.ie = 0 ∧ r.iflag = 0 ∧ r.dispstat = ⟨false, false, false, 0⟩ ∧ r.vcount = 0 ∧ r.keycnt = 0 ∧
    (∀ ch : Channel, r.dma[ch] = ⟨0, 0, 0, 0, 0⟩) ∧ (∀ src : Source, r.vec[src] = none) ∧ r.keys = ⟨0, 0, 0, 0⟩ ∧
    r.inService = 0 ∧ r.waiting = false ∧ r.halted = false ∧ r.kpLinePrev = false ∧ r.out = [] ∧ r.mem = s.mem ∧
    r.conf = s.conf

/-! ## Who may change what -/

/-- The vector table is changed by IRQ.INIT, IRQ.SETH and SYS.FATAL alone (10_state.md R29), the scanline counter by
EVT.LINE alone (R25), the raw lines by EVT.KEYS alone (R26), the snapshot by KEY.UPD alone (R30), the configuration by none
(00_scope.md R4). -/
def Obligations.SingleWriters : Prop :=
  ∀ (i : Instr) (s t : State), exec i s = .next t →
    (i ≠ .irqInit → (∀ idx f a, i ≠ .irqSeth idx f a) → i ≠ .sysFatal → t.vec = s.vec) ∧
    (i ≠ .evtLine → t.vcount = s.vcount) ∧
    ((∀ imm, i ≠ .evtKeys imm) → t.keyinput = s.keyinput) ∧
    (i ≠ .keyUpd → t.keys = s.keys) ∧
    t.conf = s.conf

/-- No operation changes a byte of the mass-storage range (20_memory.md R71). -/
def Obligations.MassStorageNeverWritten : Prop :=
  ∀ (i : Instr) (s t : State) (x : Word), ChannelsLegal s → exec i s = .next t → inRom s.conf x = true →
    readByte t x = readByte s x

/-- Operations other than DMA.COPY, DMA.FILL, DMA.XFER, SRAM.WR, SRAM.RD, EVT.LINE and EVT.HBL leave every byte of `Mem` as
it was, and those seven with DMA.STOP and SYS.FATAL are all that change a channel. -/
def Obligations.OtherOperationsLeaveMemoryAndChannels : Prop :=
  ∀ (i : Instr) (s t : State), exec i s = .next t →
    (∀ idx f a b c, i ≠ .dmaCopy idx f a b c) → (∀ idx f a b c, i ≠ .dmaFill idx f a b c) →
    (∀ idx cw a b c, i ≠ .dmaXfer idx cw a b c) → i ≠ .evtLine → i ≠ .evtHbl →
    ((∀ a b c, i ≠ .sramWr a b c) → (∀ a b c, i ≠ .sramRd a b c) → t.mem = s.mem) ∧
    ((∀ idx, i ≠ .dmaStop idx) → i ≠ .sysFatal → t.dma = s.dma)

/-- The pending flags decide nothing (10_state.md R23, 40_interrupt_controller.md R136 a): with IF replaced by any value,
EVT.DISPATCH emits the same records and leaves the same state but for IF. -/
def Obligations.PendingFlagsNeverDecide : Prop :=
  ∀ (idx : BitVec 4) (s t : State) (w : Half), exec (.evtDispatch idx) s = .next t →
    ∃ t', exec (.evtDispatch idx) (s.setIflag w) = .next t' ∧ t'.setIflag 0 = t.setIflag 0

/-! ## Interrupt controller -/

/-- IRQ.INIT (40_interrupt_controller.md R131): every slot absent, IME 1, IE and IF 0, nothing else written, `RESP(OK, 0)`. -/
def Obligations.IrqInitClearsController : Prop :=
  ∀ s : State, KeypadSettled s →
    ∃ v, (∀ src : Source, v[src] = none) ∧
      exec .irqInit s = .next (emit (.resp .ok 0) { s with vec := v, ime := true, ie := 0, iflag := 0 })

/-- IRQ.SETH (R132): the slot of a valid source is written, nothing else; an index outside the set answers ERR_SOURCE. -/
def Obligations.IrqSethWritesOneSlot : Prop :=
  ∀ (s : State) (idx : BitVec 4) (f : Bool) (a : Word), KeypadSettled s →
    (idx.toNat < s.conf.nSources → ∃ v, exec (.irqSeth idx f a) s = .next (emit (.resp .ok 0) { s with vec := v }) ∧
      ∀ src : Source, v[src] = if src.val = idx.toNat then (if f then some a else none) else s.vec[src]) ∧
    (s.conf.nSources ≤ idx.toNat → exec (.irqSeth idx f a) s = .next (emit (.resp .source 0) s))

/-- IRQ.EN and IRQ.DIS (R133, R134): the source's bit of IE, and for VBlank, HBlank and VCount the DISPSTAT enable at its
place, become 1 or 0; the other bits, the target and the rest of the state stay; a bad index answers ERR_SOURCE. -/
def Obligations.IrqEnDisWritePairedBits : Prop :=
  ∀ (s : State) (idx : BitVec 4) (v : Bool), KeypadSettled s →
    let i : Instr := if v then .irqEn idx else .irqDis idx
    (idx.toNat < s.conf.nSources → ∃ (w : Half) (d : Dispstat),
      exec i s = .next (emit (.resp .ok 0) { s with ie := w, dispstat := d }) ∧
      (∀ k, w.getLsbD k = if k = idx.toNat then v else s.ie.getLsbD k) ∧
      d.vblEn = (if idx.toNat = s.conf.idxVblank then v else s.dispstat.vblEn) ∧
      d.hblEn = (if idx.toNat = s.conf.idxHblank then v else s.dispstat.hblEn) ∧
      d.vcEn = (if idx.toNat = s.conf.idxVcount then v else s.dispstat.vcEn) ∧ d.vcTgt = s.dispstat.vcTgt) ∧
    (s.conf.nSources ≤ idx.toNat → exec i s = .next (emit (.resp .source 0) s))

/-- IRQ.VCNT (R135): the target is the operand modulo LINES_TOTAL (228 by default), the enables and everything else stay. -/
def Obligations.IrqVcntStoresModulo228 : Prop :=
  ∀ (s : State) (imm : Half), KeypadSettled s →
    ∃ g : Byte, g.toNat = imm.toNat % s.conf.linesTotal ∧
      exec (.irqVcnt imm) s = .next (emit (.resp .ok 0) { s with dispstat := { s.dispstat with vcTgt := g } })

/-- The discipline (R139): with no handler of `src` in service, Dispatch invokes an installed handler iff IME, IE[src] and,
for the display-linked sources, the DISPSTAT enable are set; IF[src] becomes 1 exactly when the line is on and is unchanged
otherwise. With no handler it invokes none and nothing but IF changes, except the wake of a taken VBlank (R136). -/
def Obligations.DispatchDiscipline : Prop :=
  ∀ (s : State) (src : Source), s.inService.getLsbD src.val = false →
    let linked := (src.val = s.conf.idxVblank → s.dispstat.vblEn = true) ∧
      (src.val = s.conf.idxHblank → s.dispstat.hblEn = true) ∧ (src.val = s.conf.idxVcount → s.dispstat.vcEn = true)
    let wakes := src.val = s.conf.idxVblank ∧ s.waiting = true ∧ s.ime = true ∧ s.ie.getLsbD src.val = true ∧ linked
    (∀ h, s.vec[src] = some h →
      ((dispatch src s).2 = true ↔ s.ime = true ∧ s.ie.getLsbD src.val = true ∧ linked)) ∧
    (linked → (dispatch src s).1.iflag.getLsbD src.val = true) ∧
    (¬ linked → (dispatch src s).1.iflag.getLsbD src.val = s.iflag.getLsbD src.val) ∧
    (s.vec[src] = none → (dispatch src s).2 = false ∧
      (wakes → ∃ f, (dispatch src s).1 = { s with iflag := f, waiting := false, out := s.out ++ [.wake] }) ∧
      (¬ wakes → ∃ f, (dispatch src s).1 = { s with iflag := f }))

/-- Interrupt entry (60_exceptions.md R294): a taken dispatch with a handler sets IF[src] and in_service[src] and appends
INVOKE(src, h); it saves, masks and acknowledges nothing, so every other member is unchanged. While that handler runs an
event of the same source is lost (R136): no record, and nothing but IF can change. -/
def Obligations.InterruptEntryAndNoReentry : Prop :=
  ∀ (s : State) (src : Source),
    ((dispatch src s).2 = true →
      ∃ (h : Word) (f g : Half), s.vec[src] = some h ∧
        (dispatch src s).1 = { s with iflag := f, inService := g, out := s.out ++ [.invoke src h] } ∧
        (∀ k, f.getLsbD k = (decide (k = src.val) || s.iflag.getLsbD k)) ∧
        (∀ k, g.getLsbD k = (decide (k = src.val) || s.inService.getLsbD k))) ∧
    (s.inService.getLsbD src.val = true →
      (dispatch src s).2 = false ∧ ∃ f, (dispatch src s).1 = { s with iflag := f })

/-- EVT.DISPATCH (R136, R137), on a settled state: a bad index answers ERR_SOURCE; an event that is not taken is lost; a
taken one invokes the handler and answers DATA 1; with no handler a taken VBlank wakes the waiter. -/
def Obligations.EvtDispatchAnswers : Prop :=
  ∀ (s : State) (idx : BitVec 4), KeypadSettled s →
    (s.conf.nSources ≤ idx.toNat → exec (.evtDispatch idx) s = .next (emit (.resp .source 0) s)) ∧
    (∀ src : Source, src.val = idx.toNat → src.val < s.conf.nSources →
      (takes src s = false →
        exec (.evtDispatch idx) s = .next (emit (.resp .ok 0) (latch src s))) ∧
      (takes src s = true → ∀ h, s.vec[src] = some h →
        exec (.evtDispatch idx) s = .next (emit (.resp .ok 1) (emit (.invoke src h)
          { s with iflag := setBit s.iflag src, inService := setBit s.inService src }))) ∧
      (takes src s = true → s.vec[src] = none → idx.toNat = s.conf.idxVblank → s.waiting = true →
        exec (.evtDispatch idx) s = .next (emit (.resp .ok 0) (emit .wake
          { s with iflag := setBit s.iflag src, waiting := false }))) ∧
      (takes src s = true → s.vec[src] = none → (idx.toNat ≠ s.conf.idxVblank ∨ s.waiting = false) →
        exec (.evtDispatch idx) s = .next (emit (.resp .ok 0) { s with iflag := setBit s.iflag src })))

/-- EVT.HDONE (R138): ERR_SOURCE for a bad index, ERR_PROTOCOL when the source is not in service; else its bit, and only it,
is cleared, and a VBlank return wakes the waiter. -/
def Obligations.EvtHdoneReturns : Prop :=
  ∀ (s : State) (idx : BitVec 4), KeypadSettled s →
    (s.conf.nSources ≤ idx.toNat → exec (.evtHdone idx) s = .next (emit (.resp .source 0) s)) ∧
    (idx.toNat < s.conf.nSources → s.inService.getLsbD idx.toNat = false →
      exec (.evtHdone idx) s = .next (emit (.resp .protocol 0) s)) ∧
    (idx.toNat < s.conf.nSources → s.inService.getLsbD idx.toNat = true →
      ∃ g : Half, (∀ k, g.getLsbD k = (decide (k ≠ idx.toNat) && s.inService.getLsbD k)) ∧
        ((idx.toNat = s.conf.idxVblank ∧ s.waiting = true) → exec (.evtHdone idx) s =
          .next (emit (.resp .ok 0) (emit .wake { s with inService := g, waiting := false }))) ∧
        (¬ (idx.toNat = s.conf.idxVblank ∧ s.waiting = true) → exec (.evtHdone idx) s =
          .next (emit (.resp .ok 0) { s with inService := g })))

/-! ## Keypad -/

/-- KEY.UPD (41_keypad.md R160): the old `held` is kept, all 16 raw lines are complemented, the edges recomputed. -/
def Obligations.KeyUpdSamplesLines : Prop :=
  ∀ s : State, KeypadSettled s →
    exec .keyUpd s = .next (emit (.resp .ok 0) { s with keys := {
      held := ~~~s.keyinput, heldPrev := s.keys.held,
      pressed := ~~~s.keyinput &&& ~~~s.keys.held, released := s.keys.held &&& s.keyinput } })

/-- KEY.PRS, KEY.HLD and KEY.REL (R161 to R163) answer the snapshot and change nothing but OUT. -/
def Obligations.KeyAccessorsAnswerSnapshot : Prop :=
  ∀ s : State, KeypadSettled s →
    exec .keyPrs s = .next (emit (.resp .ok s.keys.pressed) s) ∧
    exec .keyHld s = .next (emit (.resp .ok s.keys.held) s) ∧
    exec .keyRel s = .next (emit (.resp .ok s.keys.released) s)

/-- Two samples with no change of the lines between (R160 c): the second gives no edge, and `held` is the complement of the
lines; the masks of one sample never overlap (R170). -/
def Obligations.SecondSampleHasNoEdges : Prop :=
  ∀ s : State, ∃ t u : State, exec .keyUpd s = .next t ∧ exec .keyUpd t = .next u ∧
    t.keys.pressed &&& t.keys.released = 0 ∧ u.keys.pressed = 0 ∧ u.keys.released = 0 ∧ u.keys.held = ~~~s.keyinput

/-- The keypad line (R168): enabled, and all (COND = 1) or some (COND = 0) selected button of lines 9:0 is down. -/
def Obligations.KeypadLineLevel : Prop :=
  ∀ s : State, keypadLine s = true ↔ s.keycnt.getLsbD 14 = true ∧
    (s.keycnt.getLsbD 15 = true → ∀ k, k < 10 → s.keycnt.getLsbD k = true → s.keyinput.getLsbD k = false) ∧
    (s.keycnt.getLsbD 15 = false → ∃ k, k < 10 ∧ s.keycnt.getLsbD k = true ∧ s.keyinput.getLsbD k = false)

/-- The operations that write KEYCNT or the raw lines: KEY.IRQALL, KEY.IRQANY, KEY.IRQOFF (R164 to R166), EVT.KEYS (R167) and
REG.WR to KEYCNT (44_register_port.md R242), with the Keypad event of the epilogue (R169): the register takes its value; on a
rising line the Keypad source is dispatched before the response; the edge memory is the line. -/
def Obligations.KeypadConditionAndEvent : Prop :=
  ∀ (s : State) (imm : Half) (i : Instr) (t : State),
    ((i = .keyIrqall imm ∧ t = { s with keycnt := 0xC000 ||| (imm &&& s.conf.keySelMask) }) ∨
     (i = .keyIrqany imm ∧ t = { s with keycnt := 0x4000 ||| (imm &&& s.conf.keySelMask) }) ∨
     (i = .keyIrqoff ∧ t = { s with keycnt := 0 }) ∨
     (i = .evtKeys imm ∧ t = { s with keyinput := imm }) ∨
     ((∃ a : Word, a.toNat = s.conf.addrKeycnt ∧ i = .regWr imm a) ∧ t = { s with keycnt := imm &&& 0xC3FF })) →
    ((keypadLine t = false ∨ s.kpLinePrev = true) →
      exec i s = .next (emit (.resp .ok 0) { t with kpLinePrev := keypadLine t })) ∧
    ((keypadLine t = true ∧ s.kpLinePrev = false) →
      exec i s = .next (emit (.resp .ok 0) { (dispatch (srcKeypad s.conf) t).1 with kpLinePrev := true }))

/-! ## DMA -/

/-- The channel check (42_dma.md R180): a DMA operation with an index of 4 or more answers ERR_CHANNEL and changes no state,
whatever its other operands. -/
def Obligations.DmaChannelChecked : Prop :=
  ∀ (s : State) (idx : BitVec 4) (f : Bool) (cw : Half) (a b c : Word), KeypadSettled s → 4 ≤ idx.toNat →
    ∀ i, i ∈ [Instr.dmaCopy idx f a b c, .dmaFill idx f a b c, .dmaXfer idx cw a b c, .dmaStop idx] →
      exec i s = .next (emit (.resp .channel 0) s)

/-- The capability check (R181): DMA.COPY and DMA.XFER on a channel other than DMA_ROM_CHANNEL with a source in
mass storage answer ERR_CAPABILITY and change no state, a reserved control word included. -/
def Obligations.DmaCapabilityChecked : Prop :=
  ∀ (s : State) (idx : BitVec 4) (f : Bool) (cw : Half) (a b c : Word), KeypadSettled s → idx.toNat < 4 →
    idx.toNat ≠ s.conf.dmaRomChannel → s.conf.romBase ≤ a.toNat → a.toNat < s.conf.romBase + s.conf.romSize →
    ∀ i, i ∈ [Instr.dmaCopy idx f a b c, .dmaXfer idx cw a b c] → exec i s = .next (emit (.resp .capability 0) s)

/-- DMA.COPY copies (R184, R193 b): with source and destination plain memory (mass storage too as the source of DMA_ROM_CHANNEL)
and no address shared, every destination byte is the source byte, every other byte and every other member stay, and the
channel ends disarmed with its addresses just past the last unit. -/
def Obligations.DmaCopyCopiesBytes : Prop :=
  ∀ (s : State) (ch : Channel) (f : Bool) (a b c : Word), KeypadSettled s → s.mem.wf = true →
    let ub := if f then 4 else 2
    let len := ub * (c.toNat / ub)
    let a' := a &&& (if f then 0xFFFFFFFC#32 else 0xFFFFFFFE#32)
    let b' := b &&& (if f then 0xFFFFFFFC#32 else 0xFFFFFFFE#32)
    capViolation s.conf ch a = false →
    (∀ j, j < len → onRegister s.conf (a' + BitVec.ofNat 32 j) = false ∧ inSram s.conf (a' + BitVec.ofNat 32 j) = false ∧
      (ch.val = s.conf.dmaRomChannel ∨ inRom s.conf (a' + BitVec.ofNat 32 j) = false)) →
    (∀ j, j < len → onRegister s.conf (b' + BitVec.ofNat 32 j) = false ∧ inSram s.conf (b' + BitVec.ofNat 32 j) = false ∧
      inRom s.conf (b' + BitVec.ofNat 32 j) = false) →
    (∀ j k, j < len → k < len → a' + BitVec.ofNat 32 j ≠ b' + BitVec.ofNat 32 k) →
    ∃ m : Memory,
      exec (.dmaCopy (BitVec.ofNat 4 ch.val) f a b c) s = .next (emit (.resp .ok 0) { s with
        mem := m
        dma := s.dma.set ch { ctrl := if f then 0x0400 else 0x0000, cnt := BitVec.ofNat 32 (c.toNat / ub), dad := b',
                              wsrc := a' + BitVec.ofNat 32 len, wdst := b' + BitVec.ofNat 32 len } }) ∧
      (∀ k, k < len → Memory.read m (b' + BitVec.ofNat 32 k).toNat = readByte s (a' + BitVec.ofNat 32 k)) ∧
      (∀ x : Word, (∀ k, k < len → x ≠ b' + BitVec.ofNat 32 k) → Memory.read m x.toNat = readByte s x)

/-- DMA.FILL fills (R185): with a plain destination, its bytes are the value's bytes, little-endian, unit after unit; every
other byte and every other member stay; the working source is left as it was; there is no capability check. -/
def Obligations.DmaFillFillsBytes : Prop :=
  ∀ (s : State) (ch : Channel) (f : Bool) (a b c : Word), KeypadSettled s → s.mem.wf = true →
    let ub := if f then 4 else 2
    let len := ub * (c.toNat / ub)
    let b' := b &&& (if f then 0xFFFFFFFC#32 else 0xFFFFFFFE#32)
    (∀ j, j < len → onRegister s.conf (b' + BitVec.ofNat 32 j) = false ∧ inSram s.conf (b' + BitVec.ofNat 32 j) = false ∧
      inRom s.conf (b' + BitVec.ofNat 32 j) = false) →
    ∃ m : Memory,
      exec (.dmaFill (BitVec.ofNat 4 ch.val) f a b c) s = .next (emit (.resp .ok 0) { s with
        mem := m
        dma := s.dma.set ch { ctrl := if f then 0x0500 else 0x0100, cnt := BitVec.ofNat 32 (c.toNat / ub), dad := b',
                              wsrc := s.dma[ch].wsrc, wdst := b' + BitVec.ofNat 32 len } }) ∧
      (∀ k, k < len → Memory.read m (b' + BitVec.ofNat 32 k).toNat = a.extractLsb' (8 * (k % ub)) 8) ∧
      (∀ x : Word, (∀ k, k < len → x ≠ b' + BitVec.ofNat 32 k) → Memory.read m x.toNat = readByte s x)

/-- DMA.XFER with VBlank or HBlank timing (R186): the channel is armed with the word's kept bits, truncated addresses and
the unit count; no data moves and nothing else changes. -/
def Obligations.DmaXferArmsDeferred : Prop :=
  ∀ (s : State) (ch : Channel) (cw : Half) (a b c : Word), KeypadSettled s → capViolation s.conf ch a = false →
    reservedCw cw = false → ctrlTm cw ≠ 0 →
    let keep := if cw.getLsbD 10 then 0xFFFFFFFC#32 else 0xFFFFFFFE#32
    exec (.dmaXfer (BitVec.ofNat 4 ch.val) cw a b c) s = .next (emit (.resp .ok 0) { s with
      dma := s.dma.set ch { ctrl := 0x8000 ||| (cw &&& 0x77E0), cnt := c, dad := b &&& keep, wsrc := a &&& keep,
                            wdst := b &&& keep } })

/-- The three operations that run a burst at once (R184 to R186): each completes with OK on the state its burst leaves, the
end event of an XFER with IRQ = 1 dispatched from that state (R191); what a burst leaves is the statement
`BurstLeavesChannel`. Where the line is settled and the burst covers no register byte nothing follows but the response. And
the frame: every byte outside the addresses the burst stores to (the working destination as programmed, the span of R183)
reads as before; the other channels, the vector table, the snapshot, the scanline counter, the raw lines, `waiting` and
`halted` stay; the channel ends disarmed; where the burst covers no register byte, IME, IE, DISPSTAT and KEYCNT stay. An
XFER with IRQ = 1 latches its end event. -/
def Obligations.ImmediateBurstFrame : Prop :=
  ∀ (s : State) (ch : Channel) (i : Instr) (fill : Option Word) (d : DmaChannel),
    ((∃ f a b c, i = .dmaCopy (BitVec.ofNat 4 ch.val) f a b c ∧ capViolation s.conf ch a = false ∧ fill = none ∧
        d = ⟨copyWord f, unitCount f c, truncAddr f b, truncAddr f a, truncAddr f b⟩) ∨
     (∃ f a b c, i = .dmaFill (BitVec.ofNat 4 ch.val) f a b c ∧ fill = some a ∧
        d = ⟨fillWord f, unitCount f c, truncAddr f b, s.dma[ch].wsrc, truncAddr f b⟩) ∨
     (∃ cw a b c, i = .dmaXfer (BitVec.ofNat 4 ch.val) cw a b c ∧ capViolation s.conf ch a = false ∧
        reservedCw cw = false ∧ ctrlTm cw = 0 ∧ fill = none ∧ d = ⟨xferWord cw, c, truncAddr (ctrlU32 cw) b,
          truncAddr (ctrlU32 cw) a, truncAddr (ctrlU32 cw) b⟩)) →
    let r := (burst ch fill { s with dma := s.dma.set ch d }).1
    let u := if ctrlIrq d.ctrl then (dispatch (srcDmaEnd s.conf ch) r).1 else r
    ∃ t : State, exec i s = .next t ∧ t = respond .ok 0 u ∧
      (KeypadSettled s → (∀ x, d.covers x → onRegister s.conf x = false) → t = emit (.resp .ok 0) u) ∧
      (∀ x : Word, ¬ d.covers x → readByte t x = readByte s x) ∧
      (∀ other : Channel, other ≠ ch → t.dma[other] = s.dma[other]) ∧
      t.dma[ch] = { d with ctrl := d.ctrl &&& 0x7FFF, wsrc := t.dma[ch].wsrc, wdst := t.dma[ch].wdst } ∧
      t.vec = s.vec ∧ t.keys = s.keys ∧ t.vcount = s.vcount ∧ t.keyinput = s.keyinput ∧ t.waiting = s.waiting ∧
      t.halted = s.halted ∧ t.pending = s.pending ∧
      ((∀ x, d.covers x → onRegister s.conf x = false) →
        t.ime = s.ime ∧ t.ie = s.ie ∧ t.dispstat = s.dispstat ∧ t.keycnt = s.keycnt) ∧
      (ctrlIrq d.ctrl = true → t.iflag.getLsbD (s.conf.idxDma0 + ch.val) = true)

/-- DMA.STOP (R187): EN of the channel is cleared, its other members and everything else stay. -/
def Obligations.DmaStopDisarms : Prop :=
  ∀ (s : State) (ch : Channel), KeypadSettled s →
    exec (.dmaStop (BitVec.ofNat 4 ch.val)) s = .next (emit (.resp .ok 0) { s with
      dma := s.dma.set ch { s.dma[ch] with ctrl := s.dma[ch].ctrl &&& 0x7FFF } })

/-- A burst (R183), for any control word. Its channel record: the count and the reload address stay, each address has moved
by its step once per unit; a repeating deferred channel stays armed with its destination reloaded in reload mode, any other
is disarmed. Its data: with every unit it writes, and for a copy every unit it reads, in plain memory (mass storage too as
the source of DMA_ROM_CHANNEL) and no address shared, each unit written holds the bytes of the unit read at that turn, or
the fill value's, the last turn's where the destination is fixed; every other byte and every other member stay. An end
event is due exactly when IRQ = 1 (R191). -/
def Obligations.BurstLeavesChannel : Prop :=
  ∀ (s : State) (ch : Channel) (fill : Option Word),
    let d := s.dma[ch]
    let ub : Word := if d.ctrl.getLsbD 10 then 4 else 2
    let again : Prop := d.ctrl.getLsbD 9 = true ∧ d.ctrl &&& 0x3000 ≠ 0
    let sstep : Word := if d.ctrl &&& 0x0180 = 0 then ub else 0
    let dstep : Word := if d.ctrl &&& 0x0060 = 0x0040 then 0 else ub
    let src := d.wsrc + d.cnt * sstep
    let dst := d.wdst + d.cnt * dstep
    (again → d.ctrl &&& 0x0060 = 0x0060 → (burst ch fill s).1.dma[ch] = ⟨d.ctrl, d.cnt, d.dad, src, d.dad⟩) ∧
    (again → d.ctrl &&& 0x0060 ≠ 0x0060 → (burst ch fill s).1.dma[ch] = ⟨d.ctrl, d.cnt, d.dad, src, dst⟩) ∧
    (¬ again → (burst ch fill s).1.dma[ch] = ⟨d.ctrl &&& 0x7FFF, d.cnt, d.dad, src, dst⟩) ∧
    (burst ch fill s).2 = d.ctrl.getLsbD 14 ∧
    (s.mem.wf = true →
      let srcByte := fun i j : Nat => d.wsrc + BitVec.ofNat 32 i * sstep + BitVec.ofNat 32 j
      let dstByte := fun i j : Nat => d.wdst + BitVec.ofNat 32 i * dstep + BitVec.ofNat 32 j
      (fill = none → ∀ i j, i < d.cnt.toNat → j < ub.toNat → onRegister s.conf (srcByte i j) = false ∧
        inSram s.conf (srcByte i j) = false ∧ (ch.val = s.conf.dmaRomChannel ∨ inRom s.conf (srcByte i j) = false)) →
      (∀ i j, i < d.cnt.toNat → j < ub.toNat → onRegister s.conf (dstByte i j) = false ∧
        inSram s.conf (dstByte i j) = false ∧ inRom s.conf (dstByte i j) = false) →
      (fill = none → ∀ i j k l, i < d.cnt.toNat → j < ub.toNat → k < d.cnt.toNat → l < ub.toNat →
        srcByte i j ≠ dstByte k l) →
      ∃ m : Memory,
        (burst ch fill s).1 = { s with mem := m, dma := s.dma.set ch (burst ch fill s).1.dma[ch] } ∧
        (∀ i j, i < d.cnt.toNat → j < ub.toNat → (d.ctrl &&& 0x0060 = 0x0040 → i + 1 = d.cnt.toNat) →
          (fill = none → Memory.read m (dstByte i j).toNat = readByte s (srcByte i j)) ∧
          (∀ v, fill = some v → Memory.read m (dstByte i j).toNat = v.extractLsb' (8 * j) 8)) ∧
        (∀ x : Word, (∀ i j, i < d.cnt.toNat → j < ub.toNat → x ≠ dstByte i j) →
          Memory.read m x.toNat = readByte s x))

/-- The triggers of an edge (R188): the channels armed with the edge's timing run their bursts, one after another in channel
order. So each armed channel's record is that of its own burst (R183) from its record before the edge, every other channel
keeps its record; when one channel alone is armed the state is that of its burst. The end-of-transfer sources due are those
of the armed channels with IRQ = 1, in channel order. -/
def Obligations.TriggerRunsArmedChannels : Prop :=
  ∀ (s : State) (tm : BitVec 2),
    (triggerDma tm s).1 = ([0, 1, 2, 3].filter fun ch : Channel =>
      ctrlEn s.dma[ch].ctrl && ctrlTm s.dma[ch].ctrl == tm).foldl (fun t ch => (burst ch none t).1) s ∧
    (∀ ch : Channel, s.dma[ch].armedFor tm →
      let d := s.dma[ch]
      let ub : Word := if d.ctrl.getLsbD 10 then 4 else 2
      let again : Prop := d.ctrl.getLsbD 9 = true ∧ d.ctrl &&& 0x3000 ≠ 0
      let src := d.wsrc + d.cnt * (if d.ctrl &&& 0x0180 = 0 then ub else 0)
      let dst := d.wdst + d.cnt * (if d.ctrl &&& 0x0060 = 0x0040 then 0 else ub)
      (again → d.ctrl &&& 0x0060 = 0x0060 → (triggerDma tm s).1.dma[ch] = ⟨d.ctrl, d.cnt, d.dad, src, d.dad⟩) ∧
      (again → d.ctrl &&& 0x0060 ≠ 0x0060 → (triggerDma tm s).1.dma[ch] = ⟨d.ctrl, d.cnt, d.dad, src, dst⟩) ∧
      (¬ again → (triggerDma tm s).1.dma[ch] = ⟨d.ctrl &&& 0x7FFF, d.cnt, d.dad, src, dst⟩)) ∧
    (∀ ch : Channel, ¬ s.dma[ch].armedFor tm → (triggerDma tm s).1.dma[ch] = s.dma[ch]) ∧
    (∀ ch : Channel, s.dma[ch].armedFor tm → (∀ other : Channel, other ≠ ch → ¬ s.dma[other].armedFor tm) →
      (triggerDma tm s).1 = (burst ch none s).1) ∧
    (triggerDma tm s).2 = ([0, 1, 2, 3].filter fun ch : Channel =>
      ctrlEn s.dma[ch].ctrl && ctrlTm s.dma[ch].ctrl == tm && ctrlIrq s.dma[ch].ctrl).map (srcDmaEnd s.conf)

/-! ## Display events -/

/-- EVT.LINE (45_system_and_timing.md R260) answers OK on every state: the counter is the successor modulo LINES_TOTAL; on
line LINES_VISIBLE the VBlank-timed bursts run and VBlank is dispatched, on the target line (as DISPSTAT then has it) VCount
is dispatched, and the end-of-transfer events due follow. And the frame: the vector table, the snapshot, the raw lines and
`halted` stay; on a line other than LINES_VISIBLE no byte, no channel and none of IME, IE, DISPSTAT, KEYCNT changes; on that
line every byte outside the destinations of the VBlank-timed channels reads as before. -/
def Obligations.EvtLineStepsCounter : Prop :=
  ∀ s : State, ∃ t : State, exec .evtLine s = .next t ∧ t.vcount.toNat = (s.vcount.toNat + 1) % s.conf.linesTotal ∧
    (let u : State := { s with vcount := t.vcount }
     let r : State × List Source :=
       if t.vcount.toNat = s.conf.linesVisible then
         ((dispatch (srcVblank s.conf) (triggerDma 1 u).1).1, (triggerDma 1 u).2)
       else (u, [])
     let v := if t.vcount = r.1.dispstat.vcTgt then (dispatch (srcVcount s.conf) r.1).1 else r.1
     t = respond .ok 0 (dispatchAll r.2 v)) ∧
    t.vec = s.vec ∧ t.keys = s.keys ∧ t.keyinput = s.keyinput ∧ t.halted = s.halted ∧ t.pending = s.pending ∧
    ((s.vcount.toNat + 1) % s.conf.linesTotal ≠ s.conf.linesVisible → t.mem = s.mem ∧ t.dma = s.dma ∧
      t.ime = s.ime ∧ t.ie = s.ie ∧ t.dispstat = s.dispstat ∧ t.keycnt = s.keycnt) ∧
    (∀ ch : Channel, ¬ s.dma[ch].armedFor 1 → t.dma[ch] = s.dma[ch]) ∧
    (∀ x : Word, (∀ ch : Channel, s.dma[ch].armedFor 1 → ¬ s.dma[ch].covers x) → readByte t x = readByte s x)

/-- The events of EVT.LINE (R260, 60_exceptions.md R293), on a settled state: none on a line that is neither LINES_VISIBLE
nor the target; VCount on the target; on line LINES_VISIBLE first the bursts of the VBlank-timed channels (here with no
register among their destinations), then VBlank, then VCount when that line is the target, then the end-of-transfer events
due. With no channel armed for VBlank nothing runs before VBlank. With one, incrementing, between plain areas that share no
address, the data stands in `Mem` and the channel's record is its burst's when VBlank is dispatched. -/
def Obligations.EvtLineRaisesEvents : Prop :=
  ∀ (s : State) (g : Byte), KeypadSettled s → g.toNat = (s.vcount.toNat + 1) % s.conf.linesTotal →
    (g.toNat ≠ s.conf.linesVisible → g ≠ s.dispstat.vcTgt →
      exec .evtLine s = .next (emit (.resp .ok 0) { s with vcount := g })) ∧
    (g.toNat ≠ s.conf.linesVisible → g = s.dispstat.vcTgt →
      exec .evtLine s = .next (emit (.resp .ok 0) (dispatch (srcVcount s.conf) { s with vcount := g }).1)) ∧
    (g.toNat = s.conf.linesVisible →
      (∀ ch : Channel, s.dma[ch].armedFor 1 → ∀ x, s.dma[ch].covers x → onRegister s.conf x = false) →
      let r := triggerDma 1 { s with vcount := g }
      let v := (dispatch (srcVblank s.conf) r.1).1
      (g ≠ s.dispstat.vcTgt → exec .evtLine s = .next (emit (.resp .ok 0) (dispatchAll r.2 v))) ∧
      (g = s.dispstat.vcTgt →
        exec .evtLine s = .next (emit (.resp .ok 0) (dispatchAll r.2 (dispatch (srcVcount s.conf) v).1)))) ∧
    (g.toNat = s.conf.linesVisible → (∀ ch : Channel, ¬ s.dma[ch].armedFor 1) →
      let v := (dispatch (srcVblank s.conf) { s with vcount := g }).1
      (g ≠ s.dispstat.vcTgt → exec .evtLine s = .next (emit (.resp .ok 0) v)) ∧
      (g = s.dispstat.vcTgt → exec .evtLine s = .next (emit (.resp .ok 0) (dispatch (srcVcount s.conf) v).1))) ∧
    (∀ ch : Channel, g.toNat = s.conf.linesVisible → g ≠ s.dispstat.vcTgt → s.mem.wf = true →
      s.dma[ch].armedFor 1 → (∀ other : Channel, other ≠ ch → ¬ s.dma[other].armedFor 1) →
      let d := s.dma[ch]
      let len := (if d.ctrl.getLsbD 10 then 4 else 2) * d.cnt.toNat
      d.ctrl &&& 0x0180 = 0 → d.ctrl &&& 0x0060 ≠ 0x0040 →
      (∀ j, j < len → onRegister s.conf (d.wsrc + BitVec.ofNat 32 j) = false ∧
        inSram s.conf (d.wsrc + BitVec.ofNat 32 j) = false ∧
        (ch.val = s.conf.dmaRomChannel ∨ inRom s.conf (d.wsrc + BitVec.ofNat 32 j) = false)) →
      (∀ j, j < len → onRegister s.conf (d.wdst + BitVec.ofNat 32 j) = false ∧
        inSram s.conf (d.wdst + BitVec.ofNat 32 j) = false ∧ inRom s.conf (d.wdst + BitVec.ofNat 32 j) = false) →
      (∀ j k, j < len → k < len → d.wsrc + BitVec.ofNat 32 j ≠ d.wdst + BitVec.ofNat 32 k) →
      ∃ m : Memory,
        exec .evtLine s = .next (emit (.resp .ok 0)
          (dispatchAll (if d.ctrl.getLsbD 14 then [srcDmaEnd s.conf ch] else [])
            (dispatch (srcVblank s.conf) { s with
              vcount := g
              mem := m
              dma := s.dma.set ch { d with
                ctrl := if d.ctrl.getLsbD 9 then d.ctrl else d.ctrl &&& 0x7FFF
                wsrc := d.wsrc + BitVec.ofNat 32 len
                wdst := if d.ctrl.getLsbD 9 = true ∧ d.ctrl &&& 0x0060 = 0x0060 then d.dad
                        else d.wdst + BitVec.ofNat 32 len } }).1)) ∧
        (∀ k, k < len → Memory.read m (d.wdst + BitVec.ofNat 32 k).toNat = readByte s (d.wsrc + BitVec.ofNat 32 k)) ∧
        (∀ x : Word, (∀ k, k < len → x ≠ d.wdst + BitVec.ofNat 32 k) → Memory.read m x.toNat = readByte s x))

/-- EVT.HBL (R261, 60_exceptions.md R293) answers OK on every state: before line LINES_VISIBLE the bursts of the
HBlank-timed channels run, then HBlank is dispatched, then the end-of-transfer events due. Where the line is settled and no
register is among those channels' destinations, nothing follows but the response. And the frame: the counter, the vector
table, the snapshot, the raw lines and `halted` stay, and every byte outside the destinations of the HBlank-timed channels
reads as before. -/
def Obligations.EvtHblFrame : Prop :=
  ∀ s : State, ∃ t : State, exec .evtHbl s = .next t ∧
    (let r := if s.vcount.toNat < s.conf.linesVisible then triggerDma 2 s else (s, [])
     t = respond .ok 0 (dispatchAll r.2 (dispatch (srcHblank s.conf) r.1).1)) ∧
    (KeypadSettled s → s.vcount.toNat < s.conf.linesVisible →
      (∀ ch : Channel, s.dma[ch].armedFor 2 → ∀ x, s.dma[ch].covers x → onRegister s.conf x = false) →
      let r := triggerDma 2 s
      exec .evtHbl s = .next (emit (.resp .ok 0) (dispatchAll r.2 (dispatch (srcHblank s.conf) r.1).1))) ∧
    t.vcount = s.vcount ∧ t.vec = s.vec ∧ t.keys = s.keys ∧
    t.keyinput = s.keyinput ∧ t.halted = s.halted ∧ t.pending = s.pending ∧
    (∀ ch : Channel, ¬ s.dma[ch].armedFor 2 → t.dma[ch] = s.dma[ch]) ∧
    (∀ x : Word, (∀ ch : Channel, s.dma[ch].armedFor 2 → ¬ s.dma[ch].covers x) → readByte t x = readByte s x)

/-- The HBlank gate (42_dma.md R189): inside VBlank no HBlank-timed channel fires, whatever is armed; the HBlank event is
raised all the same (R261), and nothing else happens. The same holds on any line when no channel is armed for HBlank. -/
def Obligations.HblankGatedInVblank : Prop :=
  ∀ s : State, KeypadSettled s → (s.conf.linesVisible ≤ s.vcount.toNat ∨ ∀ ch : Channel, ¬ s.dma[ch].armedFor 2) →
    exec .evtHbl s = .next (emit (.resp .ok 0) (dispatch (srcHblank s.conf) s).1)

/-- A visible line's HBlank (R189, R261): with one channel armed, for one 16-bit unit, repeating, from a fixed source on
VCOUNT into plain memory, the scanline number is stored, the destination steps by 2 and the channel stays armed. -/
def Obligations.HblankCaptureStoresScanline : Prop :=
  ∀ (s : State) (ch : Channel) (src dst : Word), KeypadSettled s → s.mem.wf = true →
    s.vcount.toNat < s.conf.linesVisible →
    s.dma[ch] = ⟨0xA300, 1, s.dma[ch].dad, src, dst⟩ → src.toNat = s.conf.addrVcount →
    (∀ other : Channel, other ≠ ch → ¬ s.dma[other].armedFor 2) →
    (∀ j, j < 2 → onRegister s.conf (dst + BitVec.ofNat 32 j) = false ∧ inSram s.conf (dst + BitVec.ofNat 32 j) = false ∧
      inRom s.conf (dst + BitVec.ofNat 32 j) = false) →
    ∃ m : Memory, Memory.read m dst.toNat = s.vcount ∧ Memory.read m (dst + 1).toNat = 0 ∧
      (∀ x : Word, x ≠ dst → x ≠ dst + 1 → Memory.read m x.toNat = readByte s x) ∧
      exec .evtHbl s = .next (emit (.resp .ok 0) (dispatch (srcHblank s.conf) { s with
        mem := m, dma := s.dma.set ch { s.dma[ch] with wdst := dst + 2 } }).1)

/-! ## Storage -/

/-- The bounds (43_storage.md R220), on Nat and in order, for the target of each storage operation: `dst` of a write, `src`
of a read. A failing comparison answers its code and changes no byte; when all three hold neither code is answered. -/
def Obligations.StorageBoundsChecked : Prop :=
  ∀ (s : State) (a b c : Word), KeypadSettled s →
    ∀ (i : Instr) (g : Word), ((i = .sramWr a b c ∧ g = a) ∨ (i = .sramRd a b c ∧ g = b)) →
      (s.conf.sramSize < c.toNat → exec i s = .next (emit (.resp .sramSize 0) s)) ∧
      (c.toNat ≤ s.conf.sramSize → g.toNat < s.conf.sramBase → exec i s = .next (emit (.resp .sramStart 0) s)) ∧
      (c.toNat ≤ s.conf.sramSize → s.conf.sramBase ≤ g.toNat → s.conf.sramBase + s.conf.sramSize < g.toNat + c.toNat →
        exec i s = .next (emit (.resp .sramEnd 0) s)) ∧
      (c.toNat ≤ s.conf.sramSize → s.conf.sramBase ≤ g.toNat → g.toNat + c.toNat ≤ s.conf.sramBase + s.conf.sramSize →
        exec i s = .refused .registerByteAccess ∨ ∃ m, exec i s = .next (emit (.resp .ok 0) { s with mem := m }))

/-- SRAM.WR writes and SRAM.RD reads (R221, R222): in bounds on the storage side, with no byte on a register and none
shared, every destination byte outside mass storage is the source byte and nothing else changes. -/
def Obligations.StorageCopiesBytes : Prop :=
  ∀ (s : State) (a b c g : Word) (i : Instr), KeypadSettled s → s.mem.wf = true →
    ((i = .sramWr a b c ∧ g = a) ∨ (i = .sramRd a b c ∧ g = b)) →
    c.toNat ≤ s.conf.sramSize → s.conf.sramBase ≤ g.toNat → g.toNat + c.toNat ≤ s.conf.sramBase + s.conf.sramSize →
    (∀ k, k < c.toNat → onRegister s.conf (a + BitVec.ofNat 32 k) = false ∧
      onRegister s.conf (b + BitVec.ofNat 32 k) = false) →
    (∀ j k, j < c.toNat → k < c.toNat → b + BitVec.ofNat 32 j ≠ a + BitVec.ofNat 32 k) →
    ∃ m : Memory, exec i s = .next (emit (.resp .ok 0) { s with mem := m }) ∧
      (∀ k, k < c.toNat → Memory.read m (a + BitVec.ofNat 32 k).toNat =
        if inRom s.conf (a + BitVec.ofNat 32 k) then readByte s (a + BitVec.ofNat 32 k)
        else readByte s (b + BitVec.ofNat 32 k)) ∧
      (∀ x : Word, (∀ k, k < c.toNat → x ≠ a + BitVec.ofNat 32 k) → Memory.read m x.toNat = readByte s x)

/-- Round trip (R226): what SRAM.WR stored, SRAM.RD brings back: with the three areas disjoint, off the registers and out
of mass storage, both complete and the bytes read are the bytes written. -/
def Obligations.StorageRoundTrip : Prop :=
  ∀ (s : State) (src dst back n : Word), KeypadSettled s → s.mem.wf = true → boundsCheck s.conf dst n = none →
    (∀ k, k < n.toNat → onRegister s.conf (src + BitVec.ofNat 32 k) = false ∧
      onRegister s.conf (back + BitVec.ofNat 32 k) = false ∧
      inRom s.conf (back + BitVec.ofNat 32 k) = false) →
    (∀ j k, j < n.toNat → k < n.toNat → src + BitVec.ofNat 32 j ≠ dst + BitVec.ofNat 32 k ∧
      dst + BitVec.ofNat 32 j ≠ back + BitVec.ofNat 32 k ∧ src + BitVec.ofNat 32 j ≠ back + BitVec.ofNat 32 k) →
    ∃ t u : State, exec (.sramWr dst src n) s = .next t ∧ exec (.sramRd back dst n) t = .next u ∧
      ∀ k, k < n.toNat → readByte u (back + BitVec.ofNat 32 k) = readByte s (src + BitVec.ofNat 32 k) ∧
        readByte u (dst + BitVec.ofNat 32 k) = readByte s (src + BitVec.ofNat 32 k)

/-! ## Register port -/

/-- REG.RD (44_register_port.md R241, R243): at each register's address the register's value, no state changed but OUT (a
DISPSTAT read makes one draw for bits 2:0 and 7:6, which nothing is said of); any other address answers ERR_ACCESS. -/
def Obligations.RegRdAnswers : Prop :=
  ∀ (s : State) (a : Word), KeypadSettled s →
    (a.toNat = s.conf.addrVcount → exec (.regRd a) s = .next (emit (.resp .ok (s.vcount.setWidth 16)) s)) ∧
    (a.toNat = s.conf.addrDma0cnt → exec (.regRd a) s = .next (emit (.resp .ok s.dma[(0 : Channel)].ctrl) s)) ∧
    (a.toNat = s.conf.addrDma1cnt → exec (.regRd a) s = .next (emit (.resp .ok s.dma[(1 : Channel)].ctrl) s)) ∧
    (a.toNat = s.conf.addrDma2cnt → exec (.regRd a) s = .next (emit (.resp .ok s.dma[(2 : Channel)].ctrl) s)) ∧
    (a.toNat = s.conf.addrDma3cnt → exec (.regRd a) s = .next (emit (.resp .ok s.dma[(3 : Channel)].ctrl) s)) ∧
    (a.toNat = s.conf.addrKeyinput → exec (.regRd a) s = .next (emit (.resp .ok s.keyinput) s)) ∧
    (a.toNat = s.conf.addrKeycnt → exec (.regRd a) s = .next (emit (.resp .ok s.keycnt) s)) ∧
    (a.toNat = s.conf.addrIe → exec (.regRd a) s = .next (emit (.resp .ok s.ie) s)) ∧
    (a.toNat = s.conf.addrIf → exec (.regRd a) s = .next (emit (.resp .ok s.iflag) s)) ∧
    (a.toNat = s.conf.addrIme → exec (.regRd a) s = .next (emit (.resp .ok (if s.ime then 1 else 0)) s)) ∧
    (a.toNat = s.conf.addrDispstat →
      ∃ w : Half, exec (.regRd a) s = .next (emit (.resp .ok w) { s with drawCount := s.drawCount + 1 }) ∧
        w.getLsbD 3 = s.dispstat.vblEn ∧ w.getLsbD 4 = s.dispstat.hblEn ∧ w.getLsbD 5 = s.dispstat.vcEn ∧
        w.extractLsb' 8 8 = s.dispstat.vcTgt) ∧
    (a.toNat ∉ s.conf.registerAddresses → exec (.regRd a) s = .next (emit (.resp .access 0) s))

/-- REG.WR (R242, R244) to a writable register other than KEYCNT: DISPSTAT takes bits 3, 4, 5 and 15:8 raw, IE all bits,
IF loses the bits written 1, IME takes bit 0; nothing else changes. A read-only register and an address outside the map
answer ERR_ACCESS. -/
def Obligations.RegWrWrites : Prop :=
  ∀ (s : State) (d : Half) (a : Word), KeypadSettled s →
    (a.toNat = s.conf.addrDispstat → exec (.regWr d a) s = .next (emit (.resp .ok 0) { s with
      dispstat := ⟨d.getLsbD 3, d.getLsbD 4, d.getLsbD 5, d.extractLsb' 8 8⟩ })) ∧
    (a.toNat = s.conf.addrIe → exec (.regWr d a) s = .next (emit (.resp .ok 0) { s with ie := d })) ∧
    (a.toNat = s.conf.addrIf → exec (.regWr d a) s = .next (emit (.resp .ok 0) { s with iflag := s.iflag &&& ~~~d })) ∧
    (a.toNat = s.conf.addrIme → exec (.regWr d a) s = .next (emit (.resp .ok 0) { s with ime := d.getLsbD 0 })) ∧
    (a.toNat ∈ [s.conf.addrVcount, s.conf.addrDma0cnt, s.conf.addrDma1cnt, s.conf.addrDma2cnt, s.conf.addrDma3cnt,
        s.conf.addrKeyinput] → exec (.regWr d a) s = .next (emit (.resp .access 0) s)) ∧
    (a.toNat ∉ s.conf.registerAddresses → exec (.regWr d a) s = .next (emit (.resp .access 0) s))

/-- The units of a DMA channel (20_memory.md R72, R73; 42_dma.md R183). A 16-bit unit on a register address is the register:
a write is `RegWrite16` of the low half, a read is `RegRead16`, on every channel, and so are the 16-bit primitives. A 32-bit
unit outside the SRAM region is its two halves, the low half at the lower address and first. On plain memory the low byte
lies lower: two bytes for a 16-bit unit, four for a 32-bit unit, and each reads back. -/
def Obligations.UnitsRouteToRegisters : Prop :=
  ∀ (s : State) (ch : Channel) (a v : Word),
    (∀ r, regAt s.conf a = some r →
      memRead16 a s = regRead r s ∧ memWrite16 a (v.extractLsb' 0 16) s = regWrite r (v.extractLsb' 0 16) s ∧
      dmaRead ch a false s = ((regRead r s).1.setWidth 32, (regRead r s).2) ∧
      dmaWrite a false v s = regWrite r (v.extractLsb' 0 16) s) ∧
    (inSram s.conf a = false →
      dmaWrite a true v s = memWrite16 (a + 2) (v.extractLsb' 16 16) (memWrite16 a (v.extractLsb' 0 16) s) ∧
      (capViolation s.conf ch a = false → ∃ (lo hi : Half) (t u : State), memRead16 a s = (lo, t) ∧
        memRead16 (a + 2) t = (hi, u) ∧ dmaRead ch a true s = (hi ++ lo, u))) ∧
    (memWrite32 a v s = memWrite16 (a + 2) (v.extractLsb' 16 16) (memWrite16 a (v.extractLsb' 0 16) s)) ∧
    (s.mem.wf = true → regAt s.conf a = none → inRom s.conf a = false →
      readByte (memWrite16 a (v.extractLsb' 0 16) s) a = v.extractLsb' 0 8 ∧
      readByte (memWrite16 a (v.extractLsb' 0 16) s) (a + 1) = v.extractLsb' 8 8 ∧
      (memRead16 a (memWrite16 a (v.extractLsb' 0 16) s)).1 = v.extractLsb' 0 16 ∧
      (regAt s.conf (a + 2) = none → inRom s.conf (a + 2) = false →
        (∀ j, j < 4 → readByte (memWrite32 a v s) (a + BitVec.ofNat 32 j) = v.extractLsb' (8 * j) 8) ∧
        (memRead32 a (memWrite32 a v s)).1 = v))

/-! ## Frame wait and fatal halt -/

/-- SYS.WAITVBL (45_system_and_timing.md R262): `waiting` is set, no record is emitted, nothing else changes. -/
def Obligations.SysWaitvblSuspends : Prop :=
  ∀ s : State, KeypadSettled s → exec .sysWaitvbl s = .next { s with waiting := true }

/-- SYS.FATAL (R263): every channel disarmed, every slot absent, only VBlank enabled, IME 1, nobody waiting, halted; IF,
in_service and the target stay; no record is emitted. -/
def Obligations.SysFatalHalts : Prop :=
  ∀ s : State, KeypadSettled s → ∃ (d : Vector DmaChannel 4) (v : Vector (Option Word) 16),
    (∀ ch : Channel, d[ch] = { s.dma[ch] with ctrl := s.dma[ch].ctrl &&& 0x7FFF }) ∧ (∀ src : Source, v[src] = none) ∧
    exec .sysFatal s = .next { s with
      ime := true, dma := d, vec := v, ie := 1#16 <<< s.conf.idxVblank, dispstat := ⟨true, false, false, s.dispstat.vcTgt⟩,
      waiting := false, halted := true }
end

