-- ==== Sys2Proof/Laws/Config.lean ====
section
/-! SUPPORT. What the constraints of 00_scope.md R4 give of a platform: its source indices are distinct and below
N_SOURCES, its regions are aligned, disjoint and inside the address space, its registers lie at even addresses outside
them. -/

namespace Sys2Proof.Machine

/-! ## Sources -/

theorem srcVblank_lt (c : Platform) : (srcVblank c).val < c.nSources :=
  c.index_lt (i := c.idxVblank) (by simp [Config.sourceIndices])
theorem srcHblank_lt (c : Platform) : (srcHblank c).val < c.nSources :=
  c.index_lt (i := c.idxHblank) (by simp [Config.sourceIndices])
theorem srcVcount_lt (c : Platform) : (srcVcount c).val < c.nSources :=
  c.index_lt (i := c.idxVcount) (by simp [Config.sourceIndices])
theorem srcKeypad_lt (c : Platform) : (srcKeypad c).val < c.nSources :=
  c.index_lt (i := c.idxKeypad) (by simp [Config.sourceIndices])
theorem srcDmaEnd_lt (c : Platform) (ch : Channel) : (srcDmaEnd c ch).val < c.nSources :=
  Nat.lt_of_le_of_lt (Nat.add_le_add_left (Nat.le_of_lt_succ ch.isLt) _)
    (c.index_lt (i := c.idxDma0 + 3) (by simp [Config.sourceIndices]))

theorem sourceOf_lt {c : Platform} {idx : BitVec 4} {s : Source} (h : sourceOf c idx = some s) : s.val < c.nSources := by
  unfold sourceOf at h
  split at h
  · cases h; simpa
  · cases h

/-- The eight indices as inequalities. -/
theorem indices_ne (c : Platform) :
    c.idxVblank ≠ c.idxHblank ∧ c.idxVblank ≠ c.idxVcount ∧ c.idxVblank ≠ c.idxKeypad ∧ c.idxHblank ≠ c.idxVcount ∧
    c.idxHblank ≠ c.idxKeypad ∧ c.idxVcount ≠ c.idxKeypad ∧
    ∀ k < 4, c.idxVblank ≠ c.idxDma0 + k ∧ c.idxHblank ≠ c.idxDma0 + k ∧ c.idxVcount ≠ c.idxDma0 + k ∧
      c.idxKeypad ≠ c.idxDma0 + k := by
  have h := c.ok.1
  simp only [Config.sourceIndices, List.nodup_cons, List.mem_cons, List.not_mem_nil, or_false, not_or] at h
  refine ⟨by omega, by omega, by omega, by omega, by omega, by omega, fun k hk => ?_⟩
  match k, hk with
  | 0, _ => omega
  | 1, _ => omega
  | 2, _ => omega
  | 3, _ => omega

theorem srcHblank_ne_srcVblank (c : Platform) : srcHblank c ≠ srcVblank c := fun h =>
  (indices_ne c).1 (congrArg Fin.val h).symm
theorem srcVcount_ne_srcVblank (c : Platform) : srcVcount c ≠ srcVblank c := fun h =>
  (indices_ne c).2.1 (congrArg Fin.val h).symm
theorem srcVcount_ne_srcHblank (c : Platform) : srcVcount c ≠ srcHblank c := fun h =>
  (indices_ne c).2.2.2.1 (congrArg Fin.val h).symm
theorem srcKeypad_ne_srcVblank (c : Platform) : srcKeypad c ≠ srcVblank c := fun h =>
  (indices_ne c).2.2.1 (congrArg Fin.val h).symm
theorem srcKeypad_ne_srcHblank (c : Platform) : srcKeypad c ≠ srcHblank c := fun h =>
  (indices_ne c).2.2.2.2.1 (congrArg Fin.val h).symm
theorem srcKeypad_ne_srcVcount (c : Platform) : srcKeypad c ≠ srcVcount c := fun h =>
  (indices_ne c).2.2.2.2.2.1 (congrArg Fin.val h).symm
theorem srcDmaEnd_ne_srcVblank (c : Platform) (ch : Channel) : srcDmaEnd c ch ≠ srcVblank c := fun h =>
  ((indices_ne c).2.2.2.2.2.2 ch ch.isLt).1 (congrArg Fin.val h).symm
theorem srcDmaEnd_ne_srcHblank (c : Platform) (ch : Channel) : srcDmaEnd c ch ≠ srcHblank c := fun h =>
  ((indices_ne c).2.2.2.2.2.2 ch ch.isLt).2.1 (congrArg Fin.val h).symm
theorem srcDmaEnd_ne_srcVcount (c : Platform) (ch : Channel) : srcDmaEnd c ch ≠ srcVcount c := fun h =>
  ((indices_ne c).2.2.2.2.2.2 ch ch.isLt).2.2.1 (congrArg Fin.val h).symm
theorem srcDmaEnd_ne_srcKeypad (c : Platform) (ch : Channel) : srcDmaEnd c ch ≠ srcKeypad c := fun h =>
  ((indices_ne c).2.2.2.2.2.2 ch ch.isLt).2.2.2 (congrArg Fin.val h).symm

/-- A source named by its index. -/
theorem eq_srcVblank {c : Platform} {s : Source} : s = srcVblank c ↔ s.val = c.idxVblank := by
  simp [Fin.ext_iff, srcVblank]
theorem eq_srcHblank {c : Platform} {s : Source} : s = srcHblank c ↔ s.val = c.idxHblank := by
  simp [Fin.ext_iff, srcHblank]
theorem eq_srcVcount {c : Platform} {s : Source} : s = srcVcount c ↔ s.val = c.idxVcount := by
  simp [Fin.ext_iff, srcVcount]
theorem eq_srcKeypad {c : Platform} {s : Source} : s = srcKeypad c ↔ s.val = c.idxKeypad := by
  simp [Fin.ext_iff, srcKeypad]
theorem eq_srcDmaEnd {c : Platform} {s : Source} {ch : Channel} : s = srcDmaEnd c ch ↔ s.val = c.idxDma0 + ch.val := by
  simp [Fin.ext_iff, srcDmaEnd]

/-! ## Scanlines -/

theorem lines_sum (c : Platform) : c.linesTotal = c.linesVisible + c.linesVblank := c.ok.2.2.2.2.2.2.1
theorem lines_pos (c : Platform) : 0 < c.linesTotal := c.ok.2.2.2.2.2.2.2.1
theorem lines_le (c : Platform) : c.linesTotal ≤ 256 := c.ok.2.2.2.2.2.2.2.2.1

theorem nextLine_toNat (c : Platform) (v : Byte) : (nextLine c v).toNat = (v.toNat + 1) % c.linesTotal := by
  have := lines_le c
  have := Nat.mod_lt (v.toNat + 1) (lines_pos c)
  simp only [nextLine, BitVec.toNat_ofNat]
  omega

theorem lineOf_toNat (c : Platform) (y : Half) : (lineOf c y).toNat = y.toNat % c.linesTotal := by
  have := lines_le c
  have := Nat.mod_lt y.toNat (lines_pos c)
  simp only [lineOf, BitVec.toNat_ofNat]
  omega

/-! ## Regions -/

theorem romBase_mod (c : Platform) : c.romBase % 4 = 0 := c.ok.2.2.2.2.2.2.2.2.2.1
theorem romEnd_mod (c : Platform) : (c.romBase + c.romSize) % 4 = 0 := c.ok.2.2.2.2.2.2.2.2.2.2.1
theorem sramBase_mod (c : Platform) : c.sramBase % 4 = 0 := c.ok.2.2.2.2.2.2.2.2.2.2.2.1
theorem romEnd_le (c : Platform) : c.romBase + c.romSize ≤ 2 ^ 32 := c.ok.2.2.2.2.2.2.2.2.2.2.2.2.1
theorem sramEnd_le (c : Platform) : c.sramBase + c.sramSize ≤ 2 ^ 32 := c.ok.2.2.2.2.2.2.2.2.2.2.2.2.2.1
theorem rom_sram_disjoint (c : Platform) : RangesDisjoint c.romBase c.romSize c.sramBase c.sramSize :=
  c.ok.2.2.2.2.2.2.2.2.2.2.2.2.2.2.1
theorem register_place (c : Platform) : ∀ a ∈ c.registerAddresses, a < 2 ^ 32 ∧ a % 2 = 0 ∧
    RangesDisjoint a 2 c.romBase c.romSize ∧ RangesDisjoint a 2 c.sramBase c.sramSize :=
  c.ok.2.2.2.2.2.2.2.2.2.2.2.2.2.2.2.1
theorem register_nodup (c : Platform) : c.registerAddresses.Nodup := c.ok.2.2.2.2.2.2.2.2.2.2.2.2.2.2.2.2.1

theorem inRom_iff {c : Platform} {a : Word} : inRom c a = true ↔ c.romBase ≤ a.toNat ∧ a.toNat < c.romBase + c.romSize := by
  simp [inRom]

theorem inSram_iff {c : Platform} {a : Word} : inSram c a = true ↔ c.sramBase ≤ a.toNat ∧ a.toNat < c.sramBase + c.sramSize := by
  simp [inSram]

/-- A key a lookup finds is one of the list's keys. -/
theorem lookup_key_mem {β : Type} {k : Nat} {r : β} : ∀ {l : List (Nat × β)}, l.lookup k = some r → k ∈ l.map (·.1)
  | (x, y) :: l, h => by
    by_cases hk : k = x
    · simp [hk]
    · have hb : (k == x) = false := by simpa using hk
      rw [List.lookup_cons, hb] at h
      exact List.mem_cons_of_mem _ (lookup_key_mem h)

/-- With distinct keys a lookup finds every entry. -/
theorem lookup_of_mem {β : Type} {k : Nat} {r : β} :
    ∀ {l : List (Nat × β)}, (l.map (·.1)).Nodup → (k, r) ∈ l → l.lookup k = some r
  | (x, y) :: l, hn, hm => by
    rw [List.map_cons, List.nodup_cons] at hn
    rcases List.mem_cons.1 hm with h | h
    · cases h; simp
    · have hk : (k == x) = false := by
        rw [beq_eq_false_iff_ne]
        rintro rfl
        exact hn.1 (List.mem_map.2 ⟨_, h, rfl⟩)
      rw [List.lookup_cons, hk]
      exact lookup_of_mem hn.2 h

/-- The register at the address of an entry of the map. -/
theorem regAt_of_mem {c : Platform} {a : Word} {r : Reg} (h : (a.toNat, r) ∈ registerMap c) : regAt c a = some r :=
  lookup_of_mem (register_nodup c) h

/-- No register at any other address. -/
theorem regAt_none {c : Platform} {a : Word} (h : a.toNat ∉ c.registerAddresses) : regAt c a = none := by
  cases hr : regAt c a with
  | none => rfl
  | some r => exact absurd (lookup_key_mem hr) h

/-- Where a register lies: an even address outside the cartridge and the storage. -/
theorem regAt_place {c : Platform} {a : Word} {r : Reg} (h : regAt c a = some r) :
    a.toNat % 2 = 0 ∧ inRom c a = false ∧ inSram c a = false := by
  obtain ⟨-, he, hr, hs⟩ := register_place c a.toNat (by simpa [registerMap, Config.registerAddresses] using lookup_key_mem h)
  refine ⟨he, ?_, ?_⟩
  · rw [Bool.eq_false_iff, Ne, inRom_iff]
    rintro ⟨_, _⟩
    rcases hr with hr | hr <;> omega
  · rw [Bool.eq_false_iff, Ne, inSram_iff]
    rintro ⟨_, _⟩
    rcases hs with hs | hs <;> omega

end Sys2Proof.Machine
end

