-- ==== Sys2Proof/Laws/State.lean ====
section
/-! SUPPORT. Every member of the context after every named update: one lemma per field per update, so that no later proof
unfolds a record update. -/

namespace Sys2Proof.Machine

variable (s : State)

/-! After `setIme`. -/
@[simp] theorem State.setIme_ime (v : Bool) : (s.setIme v).ime = v := rfl
@[simp] theorem State.setIme_ie (v : Bool) : (s.setIme v).ie = s.ie := rfl
@[simp] theorem State.setIme_iflag (v : Bool) : (s.setIme v).iflag = s.iflag := rfl
@[simp] theorem State.setIme_dispstat (v : Bool) : (s.setIme v).dispstat = s.dispstat := rfl
@[simp] theorem State.setIme_vcount (v : Bool) : (s.setIme v).vcount = s.vcount := rfl
@[simp] theorem State.setIme_keyinput (v : Bool) : (s.setIme v).keyinput = s.keyinput := rfl
@[simp] theorem State.setIme_keycnt (v : Bool) : (s.setIme v).keycnt = s.keycnt := rfl
@[simp] theorem State.setIme_dma (v : Bool) : (s.setIme v).dma = s.dma := rfl
@[simp] theorem State.setIme_vec (v : Bool) : (s.setIme v).vec = s.vec := rfl
@[simp] theorem State.setIme_keys (v : Bool) : (s.setIme v).keys = s.keys := rfl
@[simp] theorem State.setIme_inService (v : Bool) : (s.setIme v).inService = s.inService := rfl
@[simp] theorem State.setIme_waiting (v : Bool) : (s.setIme v).waiting = s.waiting := rfl
@[simp] theorem State.setIme_halted (v : Bool) : (s.setIme v).halted = s.halted := rfl
@[simp] theorem State.setIme_kpLinePrev (v : Bool) : (s.setIme v).kpLinePrev = s.kpLinePrev := rfl
@[simp] theorem State.setIme_out (v : Bool) : (s.setIme v).out = s.out := rfl
@[simp] theorem State.setIme_mem (v : Bool) : (s.setIme v).mem = s.mem := rfl
@[simp] theorem State.setIme_pending (v : Bool) : (s.setIme v).pending = s.pending := rfl
@[simp] theorem State.setIme_drawCount (v : Bool) : (s.setIme v).drawCount = s.drawCount := rfl
@[simp] theorem State.setIme_conf (v : Bool) : (s.setIme v).conf = s.conf := rfl

/-! After `setIe`. -/
@[simp] theorem State.setIe_ime (v : Half) : (s.setIe v).ime = s.ime := rfl
@[simp] theorem State.setIe_ie (v : Half) : (s.setIe v).ie = v := rfl
@[simp] theorem State.setIe_iflag (v : Half) : (s.setIe v).iflag = s.iflag := rfl
@[simp] theorem State.setIe_dispstat (v : Half) : (s.setIe v).dispstat = s.dispstat := rfl
@[simp] theorem State.setIe_vcount (v : Half) : (s.setIe v).vcount = s.vcount := rfl
@[simp] theorem State.setIe_keyinput (v : Half) : (s.setIe v).keyinput = s.keyinput := rfl
@[simp] theorem State.setIe_keycnt (v : Half) : (s.setIe v).keycnt = s.keycnt := rfl
@[simp] theorem State.setIe_dma (v : Half) : (s.setIe v).dma = s.dma := rfl
@[simp] theorem State.setIe_vec (v : Half) : (s.setIe v).vec = s.vec := rfl
@[simp] theorem State.setIe_keys (v : Half) : (s.setIe v).keys = s.keys := rfl
@[simp] theorem State.setIe_inService (v : Half) : (s.setIe v).inService = s.inService := rfl
@[simp] theorem State.setIe_waiting (v : Half) : (s.setIe v).waiting = s.waiting := rfl
@[simp] theorem State.setIe_halted (v : Half) : (s.setIe v).halted = s.halted := rfl
@[simp] theorem State.setIe_kpLinePrev (v : Half) : (s.setIe v).kpLinePrev = s.kpLinePrev := rfl
@[simp] theorem State.setIe_out (v : Half) : (s.setIe v).out = s.out := rfl
@[simp] theorem State.setIe_mem (v : Half) : (s.setIe v).mem = s.mem := rfl
@[simp] theorem State.setIe_pending (v : Half) : (s.setIe v).pending = s.pending := rfl
@[simp] theorem State.setIe_drawCount (v : Half) : (s.setIe v).drawCount = s.drawCount := rfl
@[simp] theorem State.setIe_conf (v : Half) : (s.setIe v).conf = s.conf := rfl

/-! After `setIflag`. -/
@[simp] theorem State.setIflag_ime (v : Half) : (s.setIflag v).ime = s.ime := rfl
@[simp] theorem State.setIflag_ie (v : Half) : (s.setIflag v).ie = s.ie := rfl
@[simp] theorem State.setIflag_iflag (v : Half) : (s.setIflag v).iflag = v := rfl
@[simp] theorem State.setIflag_dispstat (v : Half) : (s.setIflag v).dispstat = s.dispstat := rfl
@[simp] theorem State.setIflag_vcount (v : Half) : (s.setIflag v).vcount = s.vcount := rfl
@[simp] theorem State.setIflag_keyinput (v : Half) : (s.setIflag v).keyinput = s.keyinput := rfl
@[simp] theorem State.setIflag_keycnt (v : Half) : (s.setIflag v).keycnt = s.keycnt := rfl
@[simp] theorem State.setIflag_dma (v : Half) : (s.setIflag v).dma = s.dma := rfl
@[simp] theorem State.setIflag_vec (v : Half) : (s.setIflag v).vec = s.vec := rfl
@[simp] theorem State.setIflag_keys (v : Half) : (s.setIflag v).keys = s.keys := rfl
@[simp] theorem State.setIflag_inService (v : Half) : (s.setIflag v).inService = s.inService := rfl
@[simp] theorem State.setIflag_waiting (v : Half) : (s.setIflag v).waiting = s.waiting := rfl
@[simp] theorem State.setIflag_halted (v : Half) : (s.setIflag v).halted = s.halted := rfl
@[simp] theorem State.setIflag_kpLinePrev (v : Half) : (s.setIflag v).kpLinePrev = s.kpLinePrev := rfl
@[simp] theorem State.setIflag_out (v : Half) : (s.setIflag v).out = s.out := rfl
@[simp] theorem State.setIflag_mem (v : Half) : (s.setIflag v).mem = s.mem := rfl
@[simp] theorem State.setIflag_pending (v : Half) : (s.setIflag v).pending = s.pending := rfl
@[simp] theorem State.setIflag_drawCount (v : Half) : (s.setIflag v).drawCount = s.drawCount := rfl
@[simp] theorem State.setIflag_conf (v : Half) : (s.setIflag v).conf = s.conf := rfl

/-! After `setDispstat`. -/
@[simp] theorem State.setDispstat_ime (v : Dispstat) : (s.setDispstat v).ime = s.ime := rfl
@[simp] theorem State.setDispstat_ie (v : Dispstat) : (s.setDispstat v).ie = s.ie := rfl
@[simp] theorem State.setDispstat_iflag (v : Dispstat) : (s.setDispstat v).iflag = s.iflag := rfl
@[simp] theorem State.setDispstat_dispstat (v : Dispstat) : (s.setDispstat v).dispstat = v := rfl
@[simp] theorem State.setDispstat_vcount (v : Dispstat) : (s.setDispstat v).vcount = s.vcount := rfl
@[simp] theorem State.setDispstat_keyinput (v : Dispstat) : (s.setDispstat v).keyinput = s.keyinput := rfl
@[simp] theorem State.setDispstat_keycnt (v : Dispstat) : (s.setDispstat v).keycnt = s.keycnt := rfl
@[simp] theorem State.setDispstat_dma (v : Dispstat) : (s.setDispstat v).dma = s.dma := rfl
@[simp] theorem State.setDispstat_vec (v : Dispstat) : (s.setDispstat v).vec = s.vec := rfl
@[simp] theorem State.setDispstat_keys (v : Dispstat) : (s.setDispstat v).keys = s.keys := rfl
@[simp] theorem State.setDispstat_inService (v : Dispstat) : (s.setDispstat v).inService = s.inService := rfl
@[simp] theorem State.setDispstat_waiting (v : Dispstat) : (s.setDispstat v).waiting = s.waiting := rfl
@[simp] theorem State.setDispstat_halted (v : Dispstat) : (s.setDispstat v).halted = s.halted := rfl
@[simp] theorem State.setDispstat_kpLinePrev (v : Dispstat) : (s.setDispstat v).kpLinePrev = s.kpLinePrev := rfl
@[simp] theorem State.setDispstat_out (v : Dispstat) : (s.setDispstat v).out = s.out := rfl
@[simp] theorem State.setDispstat_mem (v : Dispstat) : (s.setDispstat v).mem = s.mem := rfl
@[simp] theorem State.setDispstat_pending (v : Dispstat) : (s.setDispstat v).pending = s.pending := rfl
@[simp] theorem State.setDispstat_drawCount (v : Dispstat) : (s.setDispstat v).drawCount = s.drawCount := rfl
@[simp] theorem State.setDispstat_conf (v : Dispstat) : (s.setDispstat v).conf = s.conf := rfl

/-! After `setVcount`. -/
@[simp] theorem State.setVcount_ime (v : Byte) : (s.setVcount v).ime = s.ime := rfl
@[simp] theorem State.setVcount_ie (v : Byte) : (s.setVcount v).ie = s.ie := rfl
@[simp] theorem State.setVcount_iflag (v : Byte) : (s.setVcount v).iflag = s.iflag := rfl
@[simp] theorem State.setVcount_dispstat (v : Byte) : (s.setVcount v).dispstat = s.dispstat := rfl
@[simp] theorem State.setVcount_vcount (v : Byte) : (s.setVcount v).vcount = v := rfl
@[simp] theorem State.setVcount_keyinput (v : Byte) : (s.setVcount v).keyinput = s.keyinput := rfl
@[simp] theorem State.setVcount_keycnt (v : Byte) : (s.setVcount v).keycnt = s.keycnt := rfl
@[simp] theorem State.setVcount_dma (v : Byte) : (s.setVcount v).dma = s.dma := rfl
@[simp] theorem State.setVcount_vec (v : Byte) : (s.setVcount v).vec = s.vec := rfl
@[simp] theorem State.setVcount_keys (v : Byte) : (s.setVcount v).keys = s.keys := rfl
@[simp] theorem State.setVcount_inService (v : Byte) : (s.setVcount v).inService = s.inService := rfl
@[simp] theorem State.setVcount_waiting (v : Byte) : (s.setVcount v).waiting = s.waiting := rfl
@[simp] theorem State.setVcount_halted (v : Byte) : (s.setVcount v).halted = s.halted := rfl
@[simp] theorem State.setVcount_kpLinePrev (v : Byte) : (s.setVcount v).kpLinePrev = s.kpLinePrev := rfl
@[simp] theorem State.setVcount_out (v : Byte) : (s.setVcount v).out = s.out := rfl
@[simp] theorem State.setVcount_mem (v : Byte) : (s.setVcount v).mem = s.mem := rfl
@[simp] theorem State.setVcount_pending (v : Byte) : (s.setVcount v).pending = s.pending := rfl
@[simp] theorem State.setVcount_drawCount (v : Byte) : (s.setVcount v).drawCount = s.drawCount := rfl
@[simp] theorem State.setVcount_conf (v : Byte) : (s.setVcount v).conf = s.conf := rfl

/-! After `setKeyinput`. -/
@[simp] theorem State.setKeyinput_ime (v : Half) : (s.setKeyinput v).ime = s.ime := rfl
@[simp] theorem State.setKeyinput_ie (v : Half) : (s.setKeyinput v).ie = s.ie := rfl
@[simp] theorem State.setKeyinput_iflag (v : Half) : (s.setKeyinput v).iflag = s.iflag := rfl
@[simp] theorem State.setKeyinput_dispstat (v : Half) : (s.setKeyinput v).dispstat = s.dispstat := rfl
@[simp] theorem State.setKeyinput_vcount (v : Half) : (s.setKeyinput v).vcount = s.vcount := rfl
@[simp] theorem State.setKeyinput_keyinput (v : Half) : (s.setKeyinput v).keyinput = v := rfl
@[simp] theorem State.setKeyinput_keycnt (v : Half) : (s.setKeyinput v).keycnt = s.keycnt := rfl
@[simp] theorem State.setKeyinput_dma (v : Half) : (s.setKeyinput v).dma = s.dma := rfl
@[simp] theorem State.setKeyinput_vec (v : Half) : (s.setKeyinput v).vec = s.vec := rfl
@[simp] theorem State.setKeyinput_keys (v : Half) : (s.setKeyinput v).keys = s.keys := rfl
@[simp] theorem State.setKeyinput_inService (v : Half) : (s.setKeyinput v).inService = s.inService := rfl
@[simp] theorem State.setKeyinput_waiting (v : Half) : (s.setKeyinput v).waiting = s.waiting := rfl
@[simp] theorem State.setKeyinput_halted (v : Half) : (s.setKeyinput v).halted = s.halted := rfl
@[simp] theorem State.setKeyinput_kpLinePrev (v : Half) : (s.setKeyinput v).kpLinePrev = s.kpLinePrev := rfl
@[simp] theorem State.setKeyinput_out (v : Half) : (s.setKeyinput v).out = s.out := rfl
@[simp] theorem State.setKeyinput_mem (v : Half) : (s.setKeyinput v).mem = s.mem := rfl
@[simp] theorem State.setKeyinput_pending (v : Half) : (s.setKeyinput v).pending = s.pending := rfl
@[simp] theorem State.setKeyinput_drawCount (v : Half) : (s.setKeyinput v).drawCount = s.drawCount := rfl
@[simp] theorem State.setKeyinput_conf (v : Half) : (s.setKeyinput v).conf = s.conf := rfl

/-! After `setKeycnt`. -/
@[simp] theorem State.setKeycnt_ime (v : Half) : (s.setKeycnt v).ime = s.ime := rfl
@[simp] theorem State.setKeycnt_ie (v : Half) : (s.setKeycnt v).ie = s.ie := rfl
@[simp] theorem State.setKeycnt_iflag (v : Half) : (s.setKeycnt v).iflag = s.iflag := rfl
@[simp] theorem State.setKeycnt_dispstat (v : Half) : (s.setKeycnt v).dispstat = s.dispstat := rfl
@[simp] theorem State.setKeycnt_vcount (v : Half) : (s.setKeycnt v).vcount = s.vcount := rfl
@[simp] theorem State.setKeycnt_keyinput (v : Half) : (s.setKeycnt v).keyinput = s.keyinput := rfl
@[simp] theorem State.setKeycnt_keycnt (v : Half) : (s.setKeycnt v).keycnt = v := rfl
@[simp] theorem State.setKeycnt_dma (v : Half) : (s.setKeycnt v).dma = s.dma := rfl
@[simp] theorem State.setKeycnt_vec (v : Half) : (s.setKeycnt v).vec = s.vec := rfl
@[simp] theorem State.setKeycnt_keys (v : Half) : (s.setKeycnt v).keys = s.keys := rfl
@[simp] theorem State.setKeycnt_inService (v : Half) : (s.setKeycnt v).inService = s.inService := rfl
@[simp] theorem State.setKeycnt_waiting (v : Half) : (s.setKeycnt v).waiting = s.waiting := rfl
@[simp] theorem State.setKeycnt_halted (v : Half) : (s.setKeycnt v).halted = s.halted := rfl
@[simp] theorem State.setKeycnt_kpLinePrev (v : Half) : (s.setKeycnt v).kpLinePrev = s.kpLinePrev := rfl
@[simp] theorem State.setKeycnt_out (v : Half) : (s.setKeycnt v).out = s.out := rfl
@[simp] theorem State.setKeycnt_mem (v : Half) : (s.setKeycnt v).mem = s.mem := rfl
@[simp] theorem State.setKeycnt_pending (v : Half) : (s.setKeycnt v).pending = s.pending := rfl
@[simp] theorem State.setKeycnt_drawCount (v : Half) : (s.setKeycnt v).drawCount = s.drawCount := rfl
@[simp] theorem State.setKeycnt_conf (v : Half) : (s.setKeycnt v).conf = s.conf := rfl

/-! After `setDma`. -/
@[simp] theorem State.setDma_ime (v : Vector DmaChannel 4) : (s.setDma v).ime = s.ime := rfl
@[simp] theorem State.setDma_ie (v : Vector DmaChannel 4) : (s.setDma v).ie = s.ie := rfl
@[simp] theorem State.setDma_iflag (v : Vector DmaChannel 4) : (s.setDma v).iflag = s.iflag := rfl
@[simp] theorem State.setDma_dispstat (v : Vector DmaChannel 4) : (s.setDma v).dispstat = s.dispstat := rfl
@[simp] theorem State.setDma_vcount (v : Vector DmaChannel 4) : (s.setDma v).vcount = s.vcount := rfl
@[simp] theorem State.setDma_keyinput (v : Vector DmaChannel 4) : (s.setDma v).keyinput = s.keyinput := rfl
@[simp] theorem State.setDma_keycnt (v : Vector DmaChannel 4) : (s.setDma v).keycnt = s.keycnt := rfl
@[simp] theorem State.setDma_dma (v : Vector DmaChannel 4) : (s.setDma v).dma = v := rfl
@[simp] theorem State.setDma_vec (v : Vector DmaChannel 4) : (s.setDma v).vec = s.vec := rfl
@[simp] theorem State.setDma_keys (v : Vector DmaChannel 4) : (s.setDma v).keys = s.keys := rfl
@[simp] theorem State.setDma_inService (v : Vector DmaChannel 4) : (s.setDma v).inService = s.inService := rfl
@[simp] theorem State.setDma_waiting (v : Vector DmaChannel 4) : (s.setDma v).waiting = s.waiting := rfl
@[simp] theorem State.setDma_halted (v : Vector DmaChannel 4) : (s.setDma v).halted = s.halted := rfl
@[simp] theorem State.setDma_kpLinePrev (v : Vector DmaChannel 4) : (s.setDma v).kpLinePrev = s.kpLinePrev := rfl
@[simp] theorem State.setDma_out (v : Vector DmaChannel 4) : (s.setDma v).out = s.out := rfl
@[simp] theorem State.setDma_mem (v : Vector DmaChannel 4) : (s.setDma v).mem = s.mem := rfl
@[simp] theorem State.setDma_pending (v : Vector DmaChannel 4) : (s.setDma v).pending = s.pending := rfl
@[simp] theorem State.setDma_drawCount (v : Vector DmaChannel 4) : (s.setDma v).drawCount = s.drawCount := rfl
@[simp] theorem State.setDma_conf (v : Vector DmaChannel 4) : (s.setDma v).conf = s.conf := rfl

/-! After `setVec`. -/
@[simp] theorem State.setVec_ime (v : Vector (Option Word) 16) : (s.setVec v).ime = s.ime := rfl
@[simp] theorem State.setVec_ie (v : Vector (Option Word) 16) : (s.setVec v).ie = s.ie := rfl
@[simp] theorem State.setVec_iflag (v : Vector (Option Word) 16) : (s.setVec v).iflag = s.iflag := rfl
@[simp] theorem State.setVec_dispstat (v : Vector (Option Word) 16) : (s.setVec v).dispstat = s.dispstat := rfl
@[simp] theorem State.setVec_vcount (v : Vector (Option Word) 16) : (s.setVec v).vcount = s.vcount := rfl
@[simp] theorem State.setVec_keyinput (v : Vector (Option Word) 16) : (s.setVec v).keyinput = s.keyinput := rfl
@[simp] theorem State.setVec_keycnt (v : Vector (Option Word) 16) : (s.setVec v).keycnt = s.keycnt := rfl
@[simp] theorem State.setVec_dma (v : Vector (Option Word) 16) : (s.setVec v).dma = s.dma := rfl
@[simp] theorem State.setVec_vec (v : Vector (Option Word) 16) : (s.setVec v).vec = v := rfl
@[simp] theorem State.setVec_keys (v : Vector (Option Word) 16) : (s.setVec v).keys = s.keys := rfl
@[simp] theorem State.setVec_inService (v : Vector (Option Word) 16) : (s.setVec v).inService = s.inService := rfl
@[simp] theorem State.setVec_waiting (v : Vector (Option Word) 16) : (s.setVec v).waiting = s.waiting := rfl
@[simp] theorem State.setVec_halted (v : Vector (Option Word) 16) : (s.setVec v).halted = s.halted := rfl
@[simp] theorem State.setVec_kpLinePrev (v : Vector (Option Word) 16) : (s.setVec v).kpLinePrev = s.kpLinePrev := rfl
@[simp] theorem State.setVec_out (v : Vector (Option Word) 16) : (s.setVec v).out = s.out := rfl
@[simp] theorem State.setVec_mem (v : Vector (Option Word) 16) : (s.setVec v).mem = s.mem := rfl
@[simp] theorem State.setVec_pending (v : Vector (Option Word) 16) : (s.setVec v).pending = s.pending := rfl
@[simp] theorem State.setVec_drawCount (v : Vector (Option Word) 16) : (s.setVec v).drawCount = s.drawCount := rfl
@[simp] theorem State.setVec_conf (v : Vector (Option Word) 16) : (s.setVec v).conf = s.conf := rfl

/-! After `setKeys`. -/
@[simp] theorem State.setKeys_ime (v : Snapshot) : (s.setKeys v).ime = s.ime := rfl
@[simp] theorem State.setKeys_ie (v : Snapshot) : (s.setKeys v).ie = s.ie := rfl
@[simp] theorem State.setKeys_iflag (v : Snapshot) : (s.setKeys v).iflag = s.iflag := rfl
@[simp] theorem State.setKeys_dispstat (v : Snapshot) : (s.setKeys v).dispstat = s.dispstat := rfl
@[simp] theorem State.setKeys_vcount (v : Snapshot) : (s.setKeys v).vcount = s.vcount := rfl
@[simp] theorem State.setKeys_keyinput (v : Snapshot) : (s.setKeys v).keyinput = s.keyinput := rfl
@[simp] theorem State.setKeys_keycnt (v : Snapshot) : (s.setKeys v).keycnt = s.keycnt := rfl
@[simp] theorem State.setKeys_dma (v : Snapshot) : (s.setKeys v).dma = s.dma := rfl
@[simp] theorem State.setKeys_vec (v : Snapshot) : (s.setKeys v).vec = s.vec := rfl
@[simp] theorem State.setKeys_keys (v : Snapshot) : (s.setKeys v).keys = v := rfl
@[simp] theorem State.setKeys_inService (v : Snapshot) : (s.setKeys v).inService = s.inService := rfl
@[simp] theorem State.setKeys_waiting (v : Snapshot) : (s.setKeys v).waiting = s.waiting := rfl
@[simp] theorem State.setKeys_halted (v : Snapshot) : (s.setKeys v).halted = s.halted := rfl
@[simp] theorem State.setKeys_kpLinePrev (v : Snapshot) : (s.setKeys v).kpLinePrev = s.kpLinePrev := rfl
@[simp] theorem State.setKeys_out (v : Snapshot) : (s.setKeys v).out = s.out := rfl
@[simp] theorem State.setKeys_mem (v : Snapshot) : (s.setKeys v).mem = s.mem := rfl
@[simp] theorem State.setKeys_pending (v : Snapshot) : (s.setKeys v).pending = s.pending := rfl
@[simp] theorem State.setKeys_drawCount (v : Snapshot) : (s.setKeys v).drawCount = s.drawCount := rfl
@[simp] theorem State.setKeys_conf (v : Snapshot) : (s.setKeys v).conf = s.conf := rfl

/-! After `setInService`. -/
@[simp] theorem State.setInService_ime (v : Half) : (s.setInService v).ime = s.ime := rfl
@[simp] theorem State.setInService_ie (v : Half) : (s.setInService v).ie = s.ie := rfl
@[simp] theorem State.setInService_iflag (v : Half) : (s.setInService v).iflag = s.iflag := rfl
@[simp] theorem State.setInService_dispstat (v : Half) : (s.setInService v).dispstat = s.dispstat := rfl
@[simp] theorem State.setInService_vcount (v : Half) : (s.setInService v).vcount = s.vcount := rfl
@[simp] theorem State.setInService_keyinput (v : Half) : (s.setInService v).keyinput = s.keyinput := rfl
@[simp] theorem State.setInService_keycnt (v : Half) : (s.setInService v).keycnt = s.keycnt := rfl
@[simp] theorem State.setInService_dma (v : Half) : (s.setInService v).dma = s.dma := rfl
@[simp] theorem State.setInService_vec (v : Half) : (s.setInService v).vec = s.vec := rfl
@[simp] theorem State.setInService_keys (v : Half) : (s.setInService v).keys = s.keys := rfl
@[simp] theorem State.setInService_inService (v : Half) : (s.setInService v).inService = v := rfl
@[simp] theorem State.setInService_waiting (v : Half) : (s.setInService v).waiting = s.waiting := rfl
@[simp] theorem State.setInService_halted (v : Half) : (s.setInService v).halted = s.halted := rfl
@[simp] theorem State.setInService_kpLinePrev (v : Half) : (s.setInService v).kpLinePrev = s.kpLinePrev := rfl
@[simp] theorem State.setInService_out (v : Half) : (s.setInService v).out = s.out := rfl
@[simp] theorem State.setInService_mem (v : Half) : (s.setInService v).mem = s.mem := rfl
@[simp] theorem State.setInService_pending (v : Half) : (s.setInService v).pending = s.pending := rfl
@[simp] theorem State.setInService_drawCount (v : Half) : (s.setInService v).drawCount = s.drawCount := rfl
@[simp] theorem State.setInService_conf (v : Half) : (s.setInService v).conf = s.conf := rfl

/-! After `setWaiting`. -/
@[simp] theorem State.setWaiting_ime (v : Bool) : (s.setWaiting v).ime = s.ime := rfl
@[simp] theorem State.setWaiting_ie (v : Bool) : (s.setWaiting v).ie = s.ie := rfl
@[simp] theorem State.setWaiting_iflag (v : Bool) : (s.setWaiting v).iflag = s.iflag := rfl
@[simp] theorem State.setWaiting_dispstat (v : Bool) : (s.setWaiting v).dispstat = s.dispstat := rfl
@[simp] theorem State.setWaiting_vcount (v : Bool) : (s.setWaiting v).vcount = s.vcount := rfl
@[simp] theorem State.setWaiting_keyinput (v : Bool) : (s.setWaiting v).keyinput = s.keyinput := rfl
@[simp] theorem State.setWaiting_keycnt (v : Bool) : (s.setWaiting v).keycnt = s.keycnt := rfl
@[simp] theorem State.setWaiting_dma (v : Bool) : (s.setWaiting v).dma = s.dma := rfl
@[simp] theorem State.setWaiting_vec (v : Bool) : (s.setWaiting v).vec = s.vec := rfl
@[simp] theorem State.setWaiting_keys (v : Bool) : (s.setWaiting v).keys = s.keys := rfl
@[simp] theorem State.setWaiting_inService (v : Bool) : (s.setWaiting v).inService = s.inService := rfl
@[simp] theorem State.setWaiting_waiting (v : Bool) : (s.setWaiting v).waiting = v := rfl
@[simp] theorem State.setWaiting_halted (v : Bool) : (s.setWaiting v).halted = s.halted := rfl
@[simp] theorem State.setWaiting_kpLinePrev (v : Bool) : (s.setWaiting v).kpLinePrev = s.kpLinePrev := rfl
@[simp] theorem State.setWaiting_out (v : Bool) : (s.setWaiting v).out = s.out := rfl
@[simp] theorem State.setWaiting_mem (v : Bool) : (s.setWaiting v).mem = s.mem := rfl
@[simp] theorem State.setWaiting_pending (v : Bool) : (s.setWaiting v).pending = s.pending := rfl
@[simp] theorem State.setWaiting_drawCount (v : Bool) : (s.setWaiting v).drawCount = s.drawCount := rfl
@[simp] theorem State.setWaiting_conf (v : Bool) : (s.setWaiting v).conf = s.conf := rfl

/-! After `setHalted`. -/
@[simp] theorem State.setHalted_ime (v : Bool) : (s.setHalted v).ime = s.ime := rfl
@[simp] theorem State.setHalted_ie (v : Bool) : (s.setHalted v).ie = s.ie := rfl
@[simp] theorem State.setHalted_iflag (v : Bool) : (s.setHalted v).iflag = s.iflag := rfl
@[simp] theorem State.setHalted_dispstat (v : Bool) : (s.setHalted v).dispstat = s.dispstat := rfl
@[simp] theorem State.setHalted_vcount (v : Bool) : (s.setHalted v).vcount = s.vcount := rfl
@[simp] theorem State.setHalted_keyinput (v : Bool) : (s.setHalted v).keyinput = s.keyinput := rfl
@[simp] theorem State.setHalted_keycnt (v : Bool) : (s.setHalted v).keycnt = s.keycnt := rfl
@[simp] theorem State.setHalted_dma (v : Bool) : (s.setHalted v).dma = s.dma := rfl
@[simp] theorem State.setHalted_vec (v : Bool) : (s.setHalted v).vec = s.vec := rfl
@[simp] theorem State.setHalted_keys (v : Bool) : (s.setHalted v).keys = s.keys := rfl
@[simp] theorem State.setHalted_inService (v : Bool) : (s.setHalted v).inService = s.inService := rfl
@[simp] theorem State.setHalted_waiting (v : Bool) : (s.setHalted v).waiting = s.waiting := rfl
@[simp] theorem State.setHalted_halted (v : Bool) : (s.setHalted v).halted = v := rfl
@[simp] theorem State.setHalted_kpLinePrev (v : Bool) : (s.setHalted v).kpLinePrev = s.kpLinePrev := rfl
@[simp] theorem State.setHalted_out (v : Bool) : (s.setHalted v).out = s.out := rfl
@[simp] theorem State.setHalted_mem (v : Bool) : (s.setHalted v).mem = s.mem := rfl
@[simp] theorem State.setHalted_pending (v : Bool) : (s.setHalted v).pending = s.pending := rfl
@[simp] theorem State.setHalted_drawCount (v : Bool) : (s.setHalted v).drawCount = s.drawCount := rfl
@[simp] theorem State.setHalted_conf (v : Bool) : (s.setHalted v).conf = s.conf := rfl

/-! After `setKpLinePrev`. -/
@[simp] theorem State.setKpLinePrev_ime (v : Bool) : (s.setKpLinePrev v).ime = s.ime := rfl
@[simp] theorem State.setKpLinePrev_ie (v : Bool) : (s.setKpLinePrev v).ie = s.ie := rfl
@[simp] theorem State.setKpLinePrev_iflag (v : Bool) : (s.setKpLinePrev v).iflag = s.iflag := rfl
@[simp] theorem State.setKpLinePrev_dispstat (v : Bool) : (s.setKpLinePrev v).dispstat = s.dispstat := rfl
@[simp] theorem State.setKpLinePrev_vcount (v : Bool) : (s.setKpLinePrev v).vcount = s.vcount := rfl
@[simp] theorem State.setKpLinePrev_keyinput (v : Bool) : (s.setKpLinePrev v).keyinput = s.keyinput := rfl
@[simp] theorem State.setKpLinePrev_keycnt (v : Bool) : (s.setKpLinePrev v).keycnt = s.keycnt := rfl
@[simp] theorem State.setKpLinePrev_dma (v : Bool) : (s.setKpLinePrev v).dma = s.dma := rfl
@[simp] theorem State.setKpLinePrev_vec (v : Bool) : (s.setKpLinePrev v).vec = s.vec := rfl
@[simp] theorem State.setKpLinePrev_keys (v : Bool) : (s.setKpLinePrev v).keys = s.keys := rfl
@[simp] theorem State.setKpLinePrev_inService (v : Bool) : (s.setKpLinePrev v).inService = s.inService := rfl
@[simp] theorem State.setKpLinePrev_waiting (v : Bool) : (s.setKpLinePrev v).waiting = s.waiting := rfl
@[simp] theorem State.setKpLinePrev_halted (v : Bool) : (s.setKpLinePrev v).halted = s.halted := rfl
@[simp] theorem State.setKpLinePrev_kpLinePrev (v : Bool) : (s.setKpLinePrev v).kpLinePrev = v := rfl
@[simp] theorem State.setKpLinePrev_out (v : Bool) : (s.setKpLinePrev v).out = s.out := rfl
@[simp] theorem State.setKpLinePrev_mem (v : Bool) : (s.setKpLinePrev v).mem = s.mem := rfl
@[simp] theorem State.setKpLinePrev_pending (v : Bool) : (s.setKpLinePrev v).pending = s.pending := rfl
@[simp] theorem State.setKpLinePrev_drawCount (v : Bool) : (s.setKpLinePrev v).drawCount = s.drawCount := rfl
@[simp] theorem State.setKpLinePrev_conf (v : Bool) : (s.setKpLinePrev v).conf = s.conf := rfl

/-! After `setOut`. -/
@[simp] theorem State.setOut_ime (v : List Record) : (s.setOut v).ime = s.ime := rfl
@[simp] theorem State.setOut_ie (v : List Record) : (s.setOut v).ie = s.ie := rfl
@[simp] theorem State.setOut_iflag (v : List Record) : (s.setOut v).iflag = s.iflag := rfl
@[simp] theorem State.setOut_dispstat (v : List Record) : (s.setOut v).dispstat = s.dispstat := rfl
@[simp] theorem State.setOut_vcount (v : List Record) : (s.setOut v).vcount = s.vcount := rfl
@[simp] theorem State.setOut_keyinput (v : List Record) : (s.setOut v).keyinput = s.keyinput := rfl
@[simp] theorem State.setOut_keycnt (v : List Record) : (s.setOut v).keycnt = s.keycnt := rfl
@[simp] theorem State.setOut_dma (v : List Record) : (s.setOut v).dma = s.dma := rfl
@[simp] theorem State.setOut_vec (v : List Record) : (s.setOut v).vec = s.vec := rfl
@[simp] theorem State.setOut_keys (v : List Record) : (s.setOut v).keys = s.keys := rfl
@[simp] theorem State.setOut_inService (v : List Record) : (s.setOut v).inService = s.inService := rfl
@[simp] theorem State.setOut_waiting (v : List Record) : (s.setOut v).waiting = s.waiting := rfl
@[simp] theorem State.setOut_halted (v : List Record) : (s.setOut v).halted = s.halted := rfl
@[simp] theorem State.setOut_kpLinePrev (v : List Record) : (s.setOut v).kpLinePrev = s.kpLinePrev := rfl
@[simp] theorem State.setOut_out (v : List Record) : (s.setOut v).out = v := rfl
@[simp] theorem State.setOut_mem (v : List Record) : (s.setOut v).mem = s.mem := rfl
@[simp] theorem State.setOut_pending (v : List Record) : (s.setOut v).pending = s.pending := rfl
@[simp] theorem State.setOut_drawCount (v : List Record) : (s.setOut v).drawCount = s.drawCount := rfl
@[simp] theorem State.setOut_conf (v : List Record) : (s.setOut v).conf = s.conf := rfl

/-! After `setMem`. -/
@[simp] theorem State.setMem_ime (v : Memory) : (s.setMem v).ime = s.ime := rfl
@[simp] theorem State.setMem_ie (v : Memory) : (s.setMem v).ie = s.ie := rfl
@[simp] theorem State.setMem_iflag (v : Memory) : (s.setMem v).iflag = s.iflag := rfl
@[simp] theorem State.setMem_dispstat (v : Memory) : (s.setMem v).dispstat = s.dispstat := rfl
@[simp] theorem State.setMem_vcount (v : Memory) : (s.setMem v).vcount = s.vcount := rfl
@[simp] theorem State.setMem_keyinput (v : Memory) : (s.setMem v).keyinput = s.keyinput := rfl
@[simp] theorem State.setMem_keycnt (v : Memory) : (s.setMem v).keycnt = s.keycnt := rfl
@[simp] theorem State.setMem_dma (v : Memory) : (s.setMem v).dma = s.dma := rfl
@[simp] theorem State.setMem_vec (v : Memory) : (s.setMem v).vec = s.vec := rfl
@[simp] theorem State.setMem_keys (v : Memory) : (s.setMem v).keys = s.keys := rfl
@[simp] theorem State.setMem_inService (v : Memory) : (s.setMem v).inService = s.inService := rfl
@[simp] theorem State.setMem_waiting (v : Memory) : (s.setMem v).waiting = s.waiting := rfl
@[simp] theorem State.setMem_halted (v : Memory) : (s.setMem v).halted = s.halted := rfl
@[simp] theorem State.setMem_kpLinePrev (v : Memory) : (s.setMem v).kpLinePrev = s.kpLinePrev := rfl
@[simp] theorem State.setMem_out (v : Memory) : (s.setMem v).out = s.out := rfl
@[simp] theorem State.setMem_mem (v : Memory) : (s.setMem v).mem = v := rfl
@[simp] theorem State.setMem_pending (v : Memory) : (s.setMem v).pending = s.pending := rfl
@[simp] theorem State.setMem_drawCount (v : Memory) : (s.setMem v).drawCount = s.drawCount := rfl
@[simp] theorem State.setMem_conf (v : Memory) : (s.setMem v).conf = s.conf := rfl

/-! After `setPending`. -/
@[simp] theorem State.setPending_ime (v : List Input) : (s.setPending v).ime = s.ime := rfl
@[simp] theorem State.setPending_ie (v : List Input) : (s.setPending v).ie = s.ie := rfl
@[simp] theorem State.setPending_iflag (v : List Input) : (s.setPending v).iflag = s.iflag := rfl
@[simp] theorem State.setPending_dispstat (v : List Input) : (s.setPending v).dispstat = s.dispstat := rfl
@[simp] theorem State.setPending_vcount (v : List Input) : (s.setPending v).vcount = s.vcount := rfl
@[simp] theorem State.setPending_keyinput (v : List Input) : (s.setPending v).keyinput = s.keyinput := rfl
@[simp] theorem State.setPending_keycnt (v : List Input) : (s.setPending v).keycnt = s.keycnt := rfl
@[simp] theorem State.setPending_dma (v : List Input) : (s.setPending v).dma = s.dma := rfl
@[simp] theorem State.setPending_vec (v : List Input) : (s.setPending v).vec = s.vec := rfl
@[simp] theorem State.setPending_keys (v : List Input) : (s.setPending v).keys = s.keys := rfl
@[simp] theorem State.setPending_inService (v : List Input) : (s.setPending v).inService = s.inService := rfl
@[simp] theorem State.setPending_waiting (v : List Input) : (s.setPending v).waiting = s.waiting := rfl
@[simp] theorem State.setPending_halted (v : List Input) : (s.setPending v).halted = s.halted := rfl
@[simp] theorem State.setPending_kpLinePrev (v : List Input) : (s.setPending v).kpLinePrev = s.kpLinePrev := rfl
@[simp] theorem State.setPending_out (v : List Input) : (s.setPending v).out = s.out := rfl
@[simp] theorem State.setPending_mem (v : List Input) : (s.setPending v).mem = s.mem := rfl
@[simp] theorem State.setPending_pending (v : List Input) : (s.setPending v).pending = v := rfl
@[simp] theorem State.setPending_drawCount (v : List Input) : (s.setPending v).drawCount = s.drawCount := rfl
@[simp] theorem State.setPending_conf (v : List Input) : (s.setPending v).conf = s.conf := rfl

/-! After `setDrawCount`. -/
@[simp] theorem State.setDrawCount_ime (v : Nat) : (s.setDrawCount v).ime = s.ime := rfl
@[simp] theorem State.setDrawCount_ie (v : Nat) : (s.setDrawCount v).ie = s.ie := rfl
@[simp] theorem State.setDrawCount_iflag (v : Nat) : (s.setDrawCount v).iflag = s.iflag := rfl
@[simp] theorem State.setDrawCount_dispstat (v : Nat) : (s.setDrawCount v).dispstat = s.dispstat := rfl
@[simp] theorem State.setDrawCount_vcount (v : Nat) : (s.setDrawCount v).vcount = s.vcount := rfl
@[simp] theorem State.setDrawCount_keyinput (v : Nat) : (s.setDrawCount v).keyinput = s.keyinput := rfl
@[simp] theorem State.setDrawCount_keycnt (v : Nat) : (s.setDrawCount v).keycnt = s.keycnt := rfl
@[simp] theorem State.setDrawCount_dma (v : Nat) : (s.setDrawCount v).dma = s.dma := rfl
@[simp] theorem State.setDrawCount_vec (v : Nat) : (s.setDrawCount v).vec = s.vec := rfl
@[simp] theorem State.setDrawCount_keys (v : Nat) : (s.setDrawCount v).keys = s.keys := rfl
@[simp] theorem State.setDrawCount_inService (v : Nat) : (s.setDrawCount v).inService = s.inService := rfl
@[simp] theorem State.setDrawCount_waiting (v : Nat) : (s.setDrawCount v).waiting = s.waiting := rfl
@[simp] theorem State.setDrawCount_halted (v : Nat) : (s.setDrawCount v).halted = s.halted := rfl
@[simp] theorem State.setDrawCount_kpLinePrev (v : Nat) : (s.setDrawCount v).kpLinePrev = s.kpLinePrev := rfl
@[simp] theorem State.setDrawCount_out (v : Nat) : (s.setDrawCount v).out = s.out := rfl
@[simp] theorem State.setDrawCount_mem (v : Nat) : (s.setDrawCount v).mem = s.mem := rfl
@[simp] theorem State.setDrawCount_pending (v : Nat) : (s.setDrawCount v).pending = s.pending := rfl
@[simp] theorem State.setDrawCount_drawCount (v : Nat) : (s.setDrawCount v).drawCount = v := rfl
@[simp] theorem State.setDrawCount_conf (v : Nat) : (s.setDrawCount v).conf = s.conf := rfl

/-- A state is its fields: two states with equal fields are equal. -/
theorem State.ext_fields {a b : State} (h0 : a.ime = b.ime) (h1 : a.ie = b.ie) (h2 : a.iflag = b.iflag) (h3 : a.dispstat = b.dispstat) (h4 : a.vcount = b.vcount) (h5 : a.keyinput = b.keyinput) (h6 : a.keycnt = b.keycnt) (h7 : a.dma = b.dma) (h8 : a.vec = b.vec) (h9 : a.keys = b.keys) (h10 : a.inService = b.inService) (h11 : a.waiting = b.waiting) (h12 : a.halted = b.halted) (h13 : a.kpLinePrev = b.kpLinePrev) (h14 : a.out = b.out) (h15 : a.mem = b.mem) (h16 : a.pending = b.pending) (h17 : a.drawCount = b.drawCount) (h18 : a.conf = b.conf) : a = b := by
  cases a; cases b; simp_all

end Sys2Proof.Machine
end

