-- ==== Sys2Proof/Laws/Memory.lean ====
section
/-! SUPPORT. The laws of `Mem`: a read after a write, that writes keep the canonical form, and that canonical memories
that read the same are the same. -/

namespace Sys2Proof.Machine

theorem Memory.read_put (a : Nat) (v : Byte) (rest : Memory) (h : v = Memory.unlisted → Memory.read rest a = v) :
    Memory.read (Memory.put a v rest) a = v := by
  unfold Memory.put
  split
  · next hv => exact h hv
  · simp [Memory.read]

theorem Memory.read_put_ne (a b : Nat) (v : Byte) (rest : Memory) (h : a ≠ b) :
    Memory.read (Memory.put a v rest) b = Memory.read rest b := by
  unfold Memory.put
  split
  · rfl
  · simp [Memory.read, h]

/-- Below its first address a canonical memory lists nothing. -/
theorem Memory.read_below {lo a : Nat} {m : Memory} (h : Memory.wfFrom lo m = true) (ha : a < lo) :
    Memory.read m a = Memory.unlisted := by
  induction m generalizing lo with
  | nil => rfl
  | cons x rest ih =>
    obtain ⟨k, b⟩ := x
    simp only [Memory.wfFrom, Bool.and_eq_true, decide_eq_true_eq] at h
    have hk : k ≠ a := by omega
    simp only [Memory.read, hk, if_false]
    exact ih h.2 (by omega)

theorem Memory.wfFrom_mono {lo lo' : Nat} {m : Memory} (h : Memory.wfFrom lo m = true) (hl : lo' ≤ lo) :
    Memory.wfFrom lo' m = true := by
  cases m with
  | nil => rfl
  | cons x rest =>
    obtain ⟨k, b⟩ := x
    simp only [Memory.wfFrom, Bool.and_eq_true, decide_eq_true_eq] at h ⊢
    exact ⟨⟨⟨by omega, h.1.1.2⟩, h.1.2⟩, h.2⟩

/-- Every byte but the written one reads as before, in any memory. -/
theorem Memory.read_write_ne (m : Memory) (a b : Nat) (v : Byte) (h : a ≠ b) :
    Memory.read (Memory.write m a v) b = Memory.read m b := by
  induction m with
  | nil => exact Memory.read_put_ne a b v [] h
  | cons x rest ih =>
    obtain ⟨k, c⟩ := x
    unfold Memory.write
    split
    · exact Memory.read_put_ne a b v _ h
    · split
      · next hk =>
        rw [Memory.read_put_ne a b v rest h]
        subst hk
        simp [Memory.read, h]
      · simp only [Memory.read, ih]

/-- The written byte reads back in a canonical memory. -/
theorem Memory.read_write_from {lo : Nat} {m : Memory} (h : Memory.wfFrom lo m = true) (a : Nat) (v : Byte) :
    Memory.read (Memory.write m a v) a = v := by
  induction m generalizing lo with
  | nil => exact Memory.read_put a v [] (fun hv => hv ▸ rfl)
  | cons x rest ih =>
    obtain ⟨k, c⟩ := x
    have h' := h
    simp only [Memory.wfFrom, Bool.and_eq_true, decide_eq_true_eq] at h'
    unfold Memory.write
    split
    · next hlt =>
      refine Memory.read_put a v _ (fun hv => ?_)
      rw [hv]
      exact Memory.read_below (Memory.wfFrom_mono (lo' := k) (m := (k, c) :: rest) (by
        simp only [Memory.wfFrom, Bool.and_eq_true, decide_eq_true_eq]
        exact ⟨⟨⟨Nat.le_refl k, h'.1.1.2⟩, h'.1.2⟩, h'.2⟩) (Nat.le_refl k)) hlt
    · split
      · next hk =>
        refine Memory.read_put a v rest (fun hv => ?_)
        rw [hv]
        exact Memory.read_below h'.2 (by omega)
      · next hk =>
        have hne : k ≠ a := fun he => hk he.symm
        simp only [Memory.read, hne, if_false]
        exact ih h'.2

/-- The written byte reads back. -/
theorem Memory.read_write_same {m : Memory} (h : m.wf = true) (a : Nat) (v : Byte) :
    Memory.read (Memory.write m a v) a = v :=
  Memory.read_write_from h a v

theorem Memory.put_wf {lo a : Nat} {v : Byte} {rest : Memory} (ha : lo ≤ a) (hb : a < 2 ^ 32)
    (h : Memory.wfFrom (a + 1) rest = true) : Memory.wfFrom lo (Memory.put a v rest) = true := by
  unfold Memory.put
  split
  · exact Memory.wfFrom_mono h (by omega)
  · next hv =>
    simp only [Memory.wfFrom, Bool.and_eq_true, decide_eq_true_eq]
    exact ⟨⟨⟨ha, hb⟩, by simpa using hv⟩, h⟩

theorem Memory.write_wfFrom {lo : Nat} {m : Memory} (h : Memory.wfFrom lo m = true) {a : Nat} (ha : lo ≤ a)
    (hb : a < 2 ^ 32) (v : Byte) : Memory.wfFrom lo (Memory.write m a v) = true := by
  induction m generalizing lo with
  | nil => exact Memory.put_wf ha hb rfl
  | cons x rest ih =>
    obtain ⟨k, c⟩ := x
    have h' := h
    simp only [Memory.wfFrom, Bool.and_eq_true, decide_eq_true_eq] at h'
    unfold Memory.write
    split
    · refine Memory.put_wf ha hb ?_
      simp only [Memory.wfFrom, Bool.and_eq_true, decide_eq_true_eq]
      exact ⟨⟨⟨by omega, h'.1.1.2⟩, h'.1.2⟩, h'.2⟩
    · split
      · next hk =>
        subst hk
        exact Memory.put_wf ha hb h'.2
      · simp only [Memory.wfFrom, Bool.and_eq_true, decide_eq_true_eq]
        exact ⟨⟨⟨h'.1.1.1, h'.1.1.2⟩, h'.1.2⟩, ih h'.2 (by omega)⟩

/-- A write keeps the canonical form. -/
theorem Memory.write_wf {m : Memory} (h : m.wf = true) {a : Nat} (hb : a < 2 ^ 32) (v : Byte) :
    (Memory.write m a v).wf = true :=
  Memory.write_wfFrom h (Nat.zero_le a) hb v

/-- Two canonical memories that read the same everywhere are equal data. -/
theorem Memory.eq_of_read {lo : Nat} {m n : Memory} (hm : Memory.wfFrom lo m = true) (hn : Memory.wfFrom lo n = true)
    (h : ∀ a, Memory.read m a = Memory.read n a) : m = n := by
  induction m generalizing lo n with
  | nil =>
    cases n with
    | nil => rfl
    | cons y ns =>
      obtain ⟨k, b⟩ := y
      simp only [Memory.wfFrom, Bool.and_eq_true, decide_eq_true_eq, bne_iff_ne] at hn
      have hk := h k
      simp only [Memory.read, if_true] at hk
      exact absurd hk.symm hn.1.2
  | cons x ms ih =>
    obtain ⟨k, b⟩ := x
    have hm' := hm
    simp only [Memory.wfFrom, Bool.and_eq_true, decide_eq_true_eq, bne_iff_ne] at hm'
    cases n with
    | nil =>
      have hk := h k
      simp only [Memory.read, if_true] at hk
      exact absurd hk hm'.1.2
    | cons y ns =>
      obtain ⟨j, c⟩ := y
      have hn' := hn
      simp only [Memory.wfFrom, Bool.and_eq_true, decide_eq_true_eq, bne_iff_ne] at hn'
      have hkj : k = j := by
        rcases Nat.lt_trichotomy k j with hlt | heq | hgt
        · have hk := h k
          have hne : j ≠ k := by omega
          simp only [Memory.read, if_true, hne, if_false] at hk
          rw [Memory.read_below hn'.2 (by omega)] at hk
          exact absurd hk hm'.1.2
        · exact heq
        · have hj := h j
          have hne : k ≠ j := by omega
          simp only [Memory.read, if_true, hne, if_false] at hj
          rw [Memory.read_below hm'.2 (by omega)] at hj
          exact absurd hj.symm hn'.1.2
      subst hkj
      have hb : b = c := by simpa [Memory.read] using h k
      subst hb
      congr 1
      refine ih hm'.2 hn'.2 (fun a => ?_)
      by_cases ha : k = a
      · subst ha
        rw [Memory.read_below hm'.2 (by omega), Memory.read_below hn'.2 (by omega)]
      · simpa [Memory.read, ha] using h a

end Sys2Proof.Machine
end

