-- ==== Sys2Proof/Laws/Frames.lean ====
section
/-! SUPPORT. What each shared operation leaves unchanged: one lemma per untouched member of the context, so that no later
proof unfolds the operation for its frame. -/

namespace Sys2Proof.Machine

/-! `emit` appends to OUT and leaves the rest. -/
@[simp] theorem emit_ime (r : Record) (t : State) : (emit r t).ime = t.ime := rfl
@[simp] theorem emit_ie (r : Record) (t : State) : (emit r t).ie = t.ie := rfl
@[simp] theorem emit_iflag (r : Record) (t : State) : (emit r t).iflag = t.iflag := rfl
@[simp] theorem emit_dispstat (r : Record) (t : State) : (emit r t).dispstat = t.dispstat := rfl
@[simp] theorem emit_vcount (r : Record) (t : State) : (emit r t).vcount = t.vcount := rfl
@[simp] theorem emit_keyinput (r : Record) (t : State) : (emit r t).keyinput = t.keyinput := rfl
@[simp] theorem emit_keycnt (r : Record) (t : State) : (emit r t).keycnt = t.keycnt := rfl
@[simp] theorem emit_dma (r : Record) (t : State) : (emit r t).dma = t.dma := rfl
@[simp] theorem emit_vec (r : Record) (t : State) : (emit r t).vec = t.vec := rfl
@[simp] theorem emit_keys (r : Record) (t : State) : (emit r t).keys = t.keys := rfl
@[simp] theorem emit_inService (r : Record) (t : State) : (emit r t).inService = t.inService := rfl
@[simp] theorem emit_waiting (r : Record) (t : State) : (emit r t).waiting = t.waiting := rfl
@[simp] theorem emit_halted (r : Record) (t : State) : (emit r t).halted = t.halted := rfl
@[simp] theorem emit_kpLinePrev (r : Record) (t : State) : (emit r t).kpLinePrev = t.kpLinePrev := rfl
@[simp] theorem emit_mem (r : Record) (t : State) : (emit r t).mem = t.mem := rfl
@[simp] theorem emit_pending (r : Record) (t : State) : (emit r t).pending = t.pending := rfl
@[simp] theorem emit_conf (r : Record) (t : State) : (emit r t).conf = t.conf := rfl
@[simp] theorem emit_drawCount (r : Record) (t : State) : (emit r t).drawCount = t.drawCount := rfl

@[simp] theorem emit_out (r : Record) (t : State) : (emit r t).out = t.out ++ [r] := rfl

/-! A draw advances the count and leaves the rest. -/
@[simp] theorem drawValue_ime (t : State) : ((drawValue t).2).ime = t.ime := rfl
@[simp] theorem drawValue_ie (t : State) : ((drawValue t).2).ie = t.ie := rfl
@[simp] theorem drawValue_iflag (t : State) : ((drawValue t).2).iflag = t.iflag := rfl
@[simp] theorem drawValue_dispstat (t : State) : ((drawValue t).2).dispstat = t.dispstat := rfl
@[simp] theorem drawValue_vcount (t : State) : ((drawValue t).2).vcount = t.vcount := rfl
@[simp] theorem drawValue_keyinput (t : State) : ((drawValue t).2).keyinput = t.keyinput := rfl
@[simp] theorem drawValue_keycnt (t : State) : ((drawValue t).2).keycnt = t.keycnt := rfl
@[simp] theorem drawValue_dma (t : State) : ((drawValue t).2).dma = t.dma := rfl
@[simp] theorem drawValue_vec (t : State) : ((drawValue t).2).vec = t.vec := rfl
@[simp] theorem drawValue_keys (t : State) : ((drawValue t).2).keys = t.keys := rfl
@[simp] theorem drawValue_inService (t : State) : ((drawValue t).2).inService = t.inService := rfl
@[simp] theorem drawValue_waiting (t : State) : ((drawValue t).2).waiting = t.waiting := rfl
@[simp] theorem drawValue_halted (t : State) : ((drawValue t).2).halted = t.halted := rfl
@[simp] theorem drawValue_kpLinePrev (t : State) : ((drawValue t).2).kpLinePrev = t.kpLinePrev := rfl
@[simp] theorem drawValue_out (t : State) : ((drawValue t).2).out = t.out := rfl
@[simp] theorem drawValue_mem (t : State) : ((drawValue t).2).mem = t.mem := rfl
@[simp] theorem drawValue_pending (t : State) : ((drawValue t).2).pending = t.pending := rfl
@[simp] theorem drawValue_conf (t : State) : ((drawValue t).2).conf = t.conf := rfl

/-! A register read leaves all but the count of draws. -/
@[simp] theorem regRead_ime (r : Reg) (t : State) : ((regRead r t).2).ime = t.ime := by cases r <;> rfl
@[simp] theorem regRead_ie (r : Reg) (t : State) : ((regRead r t).2).ie = t.ie := by cases r <;> rfl
@[simp] theorem regRead_iflag (r : Reg) (t : State) : ((regRead r t).2).iflag = t.iflag := by cases r <;> rfl
@[simp] theorem regRead_dispstat (r : Reg) (t : State) : ((regRead r t).2).dispstat = t.dispstat := by cases r <;> rfl
@[simp] theorem regRead_vcount (r : Reg) (t : State) : ((regRead r t).2).vcount = t.vcount := by cases r <;> rfl
@[simp] theorem regRead_keyinput (r : Reg) (t : State) : ((regRead r t).2).keyinput = t.keyinput := by cases r <;> rfl
@[simp] theorem regRead_keycnt (r : Reg) (t : State) : ((regRead r t).2).keycnt = t.keycnt := by cases r <;> rfl
@[simp] theorem regRead_dma (r : Reg) (t : State) : ((regRead r t).2).dma = t.dma := by cases r <;> rfl
@[simp] theorem regRead_vec (r : Reg) (t : State) : ((regRead r t).2).vec = t.vec := by cases r <;> rfl
@[simp] theorem regRead_keys (r : Reg) (t : State) : ((regRead r t).2).keys = t.keys := by cases r <;> rfl
@[simp] theorem regRead_inService (r : Reg) (t : State) : ((regRead r t).2).inService = t.inService := by cases r <;> rfl
@[simp] theorem regRead_waiting (r : Reg) (t : State) : ((regRead r t).2).waiting = t.waiting := by cases r <;> rfl
@[simp] theorem regRead_halted (r : Reg) (t : State) : ((regRead r t).2).halted = t.halted := by cases r <;> rfl
@[simp] theorem regRead_kpLinePrev (r : Reg) (t : State) : ((regRead r t).2).kpLinePrev = t.kpLinePrev := by cases r <;> rfl
@[simp] theorem regRead_out (r : Reg) (t : State) : ((regRead r t).2).out = t.out := by cases r <;> rfl
@[simp] theorem regRead_mem (r : Reg) (t : State) : ((regRead r t).2).mem = t.mem := by cases r <;> rfl
@[simp] theorem regRead_pending (r : Reg) (t : State) : ((regRead r t).2).pending = t.pending := by cases r <;> rfl
@[simp] theorem regRead_conf (r : Reg) (t : State) : ((regRead r t).2).conf = t.conf := by cases r <;> rfl

/-! A register write leaves all but the five writable registers. -/
@[simp] theorem regWrite_vcount (r : Reg) (d : Half) (t : State) : (regWrite r d t).vcount = t.vcount := by cases r <;> rfl
@[simp] theorem regWrite_keyinput (r : Reg) (d : Half) (t : State) : (regWrite r d t).keyinput = t.keyinput := by cases r <;> rfl
@[simp] theorem regWrite_dma (r : Reg) (d : Half) (t : State) : (regWrite r d t).dma = t.dma := by cases r <;> rfl
@[simp] theorem regWrite_vec (r : Reg) (d : Half) (t : State) : (regWrite r d t).vec = t.vec := by cases r <;> rfl
@[simp] theorem regWrite_keys (r : Reg) (d : Half) (t : State) : (regWrite r d t).keys = t.keys := by cases r <;> rfl
@[simp] theorem regWrite_inService (r : Reg) (d : Half) (t : State) : (regWrite r d t).inService = t.inService := by cases r <;> rfl
@[simp] theorem regWrite_waiting (r : Reg) (d : Half) (t : State) : (regWrite r d t).waiting = t.waiting := by cases r <;> rfl
@[simp] theorem regWrite_halted (r : Reg) (d : Half) (t : State) : (regWrite r d t).halted = t.halted := by cases r <;> rfl
@[simp] theorem regWrite_kpLinePrev (r : Reg) (d : Half) (t : State) : (regWrite r d t).kpLinePrev = t.kpLinePrev := by cases r <;> rfl
@[simp] theorem regWrite_out (r : Reg) (d : Half) (t : State) : (regWrite r d t).out = t.out := by cases r <;> rfl
@[simp] theorem regWrite_mem (r : Reg) (d : Half) (t : State) : (regWrite r d t).mem = t.mem := by cases r <;> rfl
@[simp] theorem regWrite_pending (r : Reg) (d : Half) (t : State) : (regWrite r d t).pending = t.pending := by cases r <;> rfl
@[simp] theorem regWrite_conf (r : Reg) (d : Half) (t : State) : (regWrite r d t).conf = t.conf := by cases r <;> rfl
@[simp] theorem regWrite_drawCount (r : Reg) (d : Half) (t : State) : (regWrite r d t).drawCount = t.drawCount := by cases r <;> rfl

/-! A byte written to `Mem` leaves the rest. -/
@[simp] theorem pokeByte_ime (a : Word) (v : Byte) (t : State) : (pokeByte a v t).ime = t.ime := rfl
@[simp] theorem pokeByte_ie (a : Word) (v : Byte) (t : State) : (pokeByte a v t).ie = t.ie := rfl
@[simp] theorem pokeByte_iflag (a : Word) (v : Byte) (t : State) : (pokeByte a v t).iflag = t.iflag := rfl
@[simp] theorem pokeByte_dispstat (a : Word) (v : Byte) (t : State) : (pokeByte a v t).dispstat = t.dispstat := rfl
@[simp] theorem pokeByte_vcount (a : Word) (v : Byte) (t : State) : (pokeByte a v t).vcount = t.vcount := rfl
@[simp] theorem pokeByte_keyinput (a : Word) (v : Byte) (t : State) : (pokeByte a v t).keyinput = t.keyinput := rfl
@[simp] theorem pokeByte_keycnt (a : Word) (v : Byte) (t : State) : (pokeByte a v t).keycnt = t.keycnt := rfl
@[simp] theorem pokeByte_dma (a : Word) (v : Byte) (t : State) : (pokeByte a v t).dma = t.dma := rfl
@[simp] theorem pokeByte_vec (a : Word) (v : Byte) (t : State) : (pokeByte a v t).vec = t.vec := rfl
@[simp] theorem pokeByte_keys (a : Word) (v : Byte) (t : State) : (pokeByte a v t).keys = t.keys := rfl
@[simp] theorem pokeByte_inService (a : Word) (v : Byte) (t : State) : (pokeByte a v t).inService = t.inService := rfl
@[simp] theorem pokeByte_waiting (a : Word) (v : Byte) (t : State) : (pokeByte a v t).waiting = t.waiting := rfl
@[simp] theorem pokeByte_halted (a : Word) (v : Byte) (t : State) : (pokeByte a v t).halted = t.halted := rfl
@[simp] theorem pokeByte_kpLinePrev (a : Word) (v : Byte) (t : State) : (pokeByte a v t).kpLinePrev = t.kpLinePrev := rfl
@[simp] theorem pokeByte_out (a : Word) (v : Byte) (t : State) : (pokeByte a v t).out = t.out := rfl
@[simp] theorem pokeByte_pending (a : Word) (v : Byte) (t : State) : (pokeByte a v t).pending = t.pending := rfl
@[simp] theorem pokeByte_conf (a : Word) (v : Byte) (t : State) : (pokeByte a v t).conf = t.conf := rfl
@[simp] theorem pokeByte_drawCount (a : Word) (v : Byte) (t : State) : (pokeByte a v t).drawCount = t.drawCount := rfl

/-! Two bytes written to `Mem` leave the rest. -/
@[simp] theorem pokeHalf_ime (a : Word) (v : Half) (t : State) : (pokeHalf a v t).ime = t.ime := rfl
@[simp] theorem pokeHalf_ie (a : Word) (v : Half) (t : State) : (pokeHalf a v t).ie = t.ie := rfl
@[simp] theorem pokeHalf_iflag (a : Word) (v : Half) (t : State) : (pokeHalf a v t).iflag = t.iflag := rfl
@[simp] theorem pokeHalf_dispstat (a : Word) (v : Half) (t : State) : (pokeHalf a v t).dispstat = t.dispstat := rfl
@[simp] theorem pokeHalf_vcount (a : Word) (v : Half) (t : State) : (pokeHalf a v t).vcount = t.vcount := rfl
@[simp] theorem pokeHalf_keyinput (a : Word) (v : Half) (t : State) : (pokeHalf a v t).keyinput = t.keyinput := rfl
@[simp] theorem pokeHalf_keycnt (a : Word) (v : Half) (t : State) : (pokeHalf a v t).keycnt = t.keycnt := rfl
@[simp] theorem pokeHalf_dma (a : Word) (v : Half) (t : State) : (pokeHalf a v t).dma = t.dma := rfl
@[simp] theorem pokeHalf_vec (a : Word) (v : Half) (t : State) : (pokeHalf a v t).vec = t.vec := rfl
@[simp] theorem pokeHalf_keys (a : Word) (v : Half) (t : State) : (pokeHalf a v t).keys = t.keys := rfl
@[simp] theorem pokeHalf_inService (a : Word) (v : Half) (t : State) : (pokeHalf a v t).inService = t.inService := rfl
@[simp] theorem pokeHalf_waiting (a : Word) (v : Half) (t : State) : (pokeHalf a v t).waiting = t.waiting := rfl
@[simp] theorem pokeHalf_halted (a : Word) (v : Half) (t : State) : (pokeHalf a v t).halted = t.halted := rfl
@[simp] theorem pokeHalf_kpLinePrev (a : Word) (v : Half) (t : State) : (pokeHalf a v t).kpLinePrev = t.kpLinePrev := rfl
@[simp] theorem pokeHalf_out (a : Word) (v : Half) (t : State) : (pokeHalf a v t).out = t.out := rfl
@[simp] theorem pokeHalf_pending (a : Word) (v : Half) (t : State) : (pokeHalf a v t).pending = t.pending := rfl
@[simp] theorem pokeHalf_conf (a : Word) (v : Half) (t : State) : (pokeHalf a v t).conf = t.conf := rfl
@[simp] theorem pokeHalf_drawCount (a : Word) (v : Half) (t : State) : (pokeHalf a v t).drawCount = t.drawCount := rfl

/-! Four bytes written to `Mem` leave the rest. -/
@[simp] theorem pokeWord_ime (a : Word) (v : Word) (t : State) : (pokeWord a v t).ime = t.ime := rfl
@[simp] theorem pokeWord_ie (a : Word) (v : Word) (t : State) : (pokeWord a v t).ie = t.ie := rfl
@[simp] theorem pokeWord_iflag (a : Word) (v : Word) (t : State) : (pokeWord a v t).iflag = t.iflag := rfl
@[simp] theorem pokeWord_dispstat (a : Word) (v : Word) (t : State) : (pokeWord a v t).dispstat = t.dispstat := rfl
@[simp] theorem pokeWord_vcount (a : Word) (v : Word) (t : State) : (pokeWord a v t).vcount = t.vcount := rfl
@[simp] theorem pokeWord_keyinput (a : Word) (v : Word) (t : State) : (pokeWord a v t).keyinput = t.keyinput := rfl
@[simp] theorem pokeWord_keycnt (a : Word) (v : Word) (t : State) : (pokeWord a v t).keycnt = t.keycnt := rfl
@[simp] theorem pokeWord_dma (a : Word) (v : Word) (t : State) : (pokeWord a v t).dma = t.dma := rfl
@[simp] theorem pokeWord_vec (a : Word) (v : Word) (t : State) : (pokeWord a v t).vec = t.vec := rfl
@[simp] theorem pokeWord_keys (a : Word) (v : Word) (t : State) : (pokeWord a v t).keys = t.keys := rfl
@[simp] theorem pokeWord_inService (a : Word) (v : Word) (t : State) : (pokeWord a v t).inService = t.inService := rfl
@[simp] theorem pokeWord_waiting (a : Word) (v : Word) (t : State) : (pokeWord a v t).waiting = t.waiting := rfl
@[simp] theorem pokeWord_halted (a : Word) (v : Word) (t : State) : (pokeWord a v t).halted = t.halted := rfl
@[simp] theorem pokeWord_kpLinePrev (a : Word) (v : Word) (t : State) : (pokeWord a v t).kpLinePrev = t.kpLinePrev := rfl
@[simp] theorem pokeWord_out (a : Word) (v : Word) (t : State) : (pokeWord a v t).out = t.out := rfl
@[simp] theorem pokeWord_pending (a : Word) (v : Word) (t : State) : (pokeWord a v t).pending = t.pending := rfl
@[simp] theorem pokeWord_conf (a : Word) (v : Word) (t : State) : (pokeWord a v t).conf = t.conf := rfl
@[simp] theorem pokeWord_drawCount (a : Word) (v : Word) (t : State) : (pokeWord a v t).drawCount = t.drawCount := rfl

/-! `MemRead(a, 2)` leaves all but the count of draws. -/
@[simp] theorem memRead16_ime (a : Word) (t : State) : ((memRead16 a t).2).ime = t.ime := by unfold memRead16; split <;> simp
@[simp] theorem memRead16_ie (a : Word) (t : State) : ((memRead16 a t).2).ie = t.ie := by unfold memRead16; split <;> simp
@[simp] theorem memRead16_iflag (a : Word) (t : State) : ((memRead16 a t).2).iflag = t.iflag := by unfold memRead16; split <;> simp
@[simp] theorem memRead16_dispstat (a : Word) (t : State) : ((memRead16 a t).2).dispstat = t.dispstat := by unfold memRead16; split <;> simp
@[simp] theorem memRead16_vcount (a : Word) (t : State) : ((memRead16 a t).2).vcount = t.vcount := by unfold memRead16; split <;> simp
@[simp] theorem memRead16_keyinput (a : Word) (t : State) : ((memRead16 a t).2).keyinput = t.keyinput := by unfold memRead16; split <;> simp
@[simp] theorem memRead16_keycnt (a : Word) (t : State) : ((memRead16 a t).2).keycnt = t.keycnt := by unfold memRead16; split <;> simp
@[simp] theorem memRead16_dma (a : Word) (t : State) : ((memRead16 a t).2).dma = t.dma := by unfold memRead16; split <;> simp
@[simp] theorem memRead16_vec (a : Word) (t : State) : ((memRead16 a t).2).vec = t.vec := by unfold memRead16; split <;> simp
@[simp] theorem memRead16_keys (a : Word) (t : State) : ((memRead16 a t).2).keys = t.keys := by unfold memRead16; split <;> simp
@[simp] theorem memRead16_inService (a : Word) (t : State) : ((memRead16 a t).2).inService = t.inService := by unfold memRead16; split <;> simp
@[simp] theorem memRead16_waiting (a : Word) (t : State) : ((memRead16 a t).2).waiting = t.waiting := by unfold memRead16; split <;> simp
@[simp] theorem memRead16_halted (a : Word) (t : State) : ((memRead16 a t).2).halted = t.halted := by unfold memRead16; split <;> simp
@[simp] theorem memRead16_kpLinePrev (a : Word) (t : State) : ((memRead16 a t).2).kpLinePrev = t.kpLinePrev := by unfold memRead16; split <;> simp
@[simp] theorem memRead16_out (a : Word) (t : State) : ((memRead16 a t).2).out = t.out := by unfold memRead16; split <;> simp
@[simp] theorem memRead16_mem (a : Word) (t : State) : ((memRead16 a t).2).mem = t.mem := by unfold memRead16; split <;> simp
@[simp] theorem memRead16_pending (a : Word) (t : State) : ((memRead16 a t).2).pending = t.pending := by unfold memRead16; split <;> simp
@[simp] theorem memRead16_conf (a : Word) (t : State) : ((memRead16 a t).2).conf = t.conf := by unfold memRead16; split <;> simp

/-! `MemRead(a, 4)` leaves all but the count of draws. -/
@[simp] theorem memRead32_ime (a : Word) (t : State) : ((memRead32 a t).2).ime = t.ime := by simp [memRead32]
@[simp] theorem memRead32_ie (a : Word) (t : State) : ((memRead32 a t).2).ie = t.ie := by simp [memRead32]
@[simp] theorem memRead32_iflag (a : Word) (t : State) : ((memRead32 a t).2).iflag = t.iflag := by simp [memRead32]
@[simp] theorem memRead32_dispstat (a : Word) (t : State) : ((memRead32 a t).2).dispstat = t.dispstat := by simp [memRead32]
@[simp] theorem memRead32_vcount (a : Word) (t : State) : ((memRead32 a t).2).vcount = t.vcount := by simp [memRead32]
@[simp] theorem memRead32_keyinput (a : Word) (t : State) : ((memRead32 a t).2).keyinput = t.keyinput := by simp [memRead32]
@[simp] theorem memRead32_keycnt (a : Word) (t : State) : ((memRead32 a t).2).keycnt = t.keycnt := by simp [memRead32]
@[simp] theorem memRead32_dma (a : Word) (t : State) : ((memRead32 a t).2).dma = t.dma := by simp [memRead32]
@[simp] theorem memRead32_vec (a : Word) (t : State) : ((memRead32 a t).2).vec = t.vec := by simp [memRead32]
@[simp] theorem memRead32_keys (a : Word) (t : State) : ((memRead32 a t).2).keys = t.keys := by simp [memRead32]
@[simp] theorem memRead32_inService (a : Word) (t : State) : ((memRead32 a t).2).inService = t.inService := by simp [memRead32]
@[simp] theorem memRead32_waiting (a : Word) (t : State) : ((memRead32 a t).2).waiting = t.waiting := by simp [memRead32]
@[simp] theorem memRead32_halted (a : Word) (t : State) : ((memRead32 a t).2).halted = t.halted := by simp [memRead32]
@[simp] theorem memRead32_kpLinePrev (a : Word) (t : State) : ((memRead32 a t).2).kpLinePrev = t.kpLinePrev := by simp [memRead32]
@[simp] theorem memRead32_out (a : Word) (t : State) : ((memRead32 a t).2).out = t.out := by simp [memRead32]
@[simp] theorem memRead32_mem (a : Word) (t : State) : ((memRead32 a t).2).mem = t.mem := by simp [memRead32]
@[simp] theorem memRead32_pending (a : Word) (t : State) : ((memRead32 a t).2).pending = t.pending := by simp [memRead32]
@[simp] theorem memRead32_conf (a : Word) (t : State) : ((memRead32 a t).2).conf = t.conf := by simp [memRead32]

/-! `MemWrite(a, 2, v)` leaves all but the writable registers and `Mem`. -/
@[simp] theorem memWrite16_vcount (a : Word) (v : Half) (t : State) : (memWrite16 a v t).vcount = t.vcount := by
  unfold memWrite16
  split
  · simp
  split <;> simp
@[simp] theorem memWrite16_keyinput (a : Word) (v : Half) (t : State) : (memWrite16 a v t).keyinput = t.keyinput := by
  unfold memWrite16
  split
  · simp
  split <;> simp
@[simp] theorem memWrite16_dma (a : Word) (v : Half) (t : State) : (memWrite16 a v t).dma = t.dma := by
  unfold memWrite16
  split
  · simp
  split <;> simp
@[simp] theorem memWrite16_vec (a : Word) (v : Half) (t : State) : (memWrite16 a v t).vec = t.vec := by
  unfold memWrite16
  split
  · simp
  split <;> simp
@[simp] theorem memWrite16_keys (a : Word) (v : Half) (t : State) : (memWrite16 a v t).keys = t.keys := by
  unfold memWrite16
  split
  · simp
  split <;> simp
@[simp] theorem memWrite16_inService (a : Word) (v : Half) (t : State) : (memWrite16 a v t).inService = t.inService := by
  unfold memWrite16
  split
  · simp
  split <;> simp
@[simp] theorem memWrite16_waiting (a : Word) (v : Half) (t : State) : (memWrite16 a v t).waiting = t.waiting := by
  unfold memWrite16
  split
  · simp
  split <;> simp
@[simp] theorem memWrite16_halted (a : Word) (v : Half) (t : State) : (memWrite16 a v t).halted = t.halted := by
  unfold memWrite16
  split
  · simp
  split <;> simp
@[simp] theorem memWrite16_kpLinePrev (a : Word) (v : Half) (t : State) : (memWrite16 a v t).kpLinePrev = t.kpLinePrev := by
  unfold memWrite16
  split
  · simp
  split <;> simp
@[simp] theorem memWrite16_out (a : Word) (v : Half) (t : State) : (memWrite16 a v t).out = t.out := by
  unfold memWrite16
  split
  · simp
  split <;> simp
@[simp] theorem memWrite16_pending (a : Word) (v : Half) (t : State) : (memWrite16 a v t).pending = t.pending := by
  unfold memWrite16
  split
  · simp
  split <;> simp
@[simp] theorem memWrite16_conf (a : Word) (v : Half) (t : State) : (memWrite16 a v t).conf = t.conf := by
  unfold memWrite16
  split
  · simp
  split <;> simp
@[simp] theorem memWrite16_drawCount (a : Word) (v : Half) (t : State) : (memWrite16 a v t).drawCount = t.drawCount := by
  unfold memWrite16
  split
  · simp
  split <;> simp

/-! `MemWrite(a, 4, v)` leaves all but the writable registers and `Mem`. -/
@[simp] theorem memWrite32_vcount (a : Word) (v : Word) (t : State) : (memWrite32 a v t).vcount = t.vcount := by simp [memWrite32]
@[simp] theorem memWrite32_keyinput (a : Word) (v : Word) (t : State) : (memWrite32 a v t).keyinput = t.keyinput := by simp [memWrite32]
@[simp] theorem memWrite32_dma (a : Word) (v : Word) (t : State) : (memWrite32 a v t).dma = t.dma := by simp [memWrite32]
@[simp] theorem memWrite32_vec (a : Word) (v : Word) (t : State) : (memWrite32 a v t).vec = t.vec := by simp [memWrite32]
@[simp] theorem memWrite32_keys (a : Word) (v : Word) (t : State) : (memWrite32 a v t).keys = t.keys := by simp [memWrite32]
@[simp] theorem memWrite32_inService (a : Word) (v : Word) (t : State) : (memWrite32 a v t).inService = t.inService := by simp [memWrite32]
@[simp] theorem memWrite32_waiting (a : Word) (v : Word) (t : State) : (memWrite32 a v t).waiting = t.waiting := by simp [memWrite32]
@[simp] theorem memWrite32_halted (a : Word) (v : Word) (t : State) : (memWrite32 a v t).halted = t.halted := by simp [memWrite32]
@[simp] theorem memWrite32_kpLinePrev (a : Word) (v : Word) (t : State) : (memWrite32 a v t).kpLinePrev = t.kpLinePrev := by simp [memWrite32]
@[simp] theorem memWrite32_out (a : Word) (v : Word) (t : State) : (memWrite32 a v t).out = t.out := by simp [memWrite32]
@[simp] theorem memWrite32_pending (a : Word) (v : Word) (t : State) : (memWrite32 a v t).pending = t.pending := by simp [memWrite32]
@[simp] theorem memWrite32_conf (a : Word) (v : Word) (t : State) : (memWrite32 a v t).conf = t.conf := by simp [memWrite32]
@[simp] theorem memWrite32_drawCount (a : Word) (v : Word) (t : State) : (memWrite32 a v t).drawCount = t.drawCount := by simp [memWrite32]

/-! The latch leaves all but IF. -/
@[simp] theorem latch_ime (s : Source) (t : State) : (latch s t).ime = t.ime := by unfold latch; split <;> rfl
@[simp] theorem latch_ie (s : Source) (t : State) : (latch s t).ie = t.ie := by unfold latch; split <;> rfl
@[simp] theorem latch_dispstat (s : Source) (t : State) : (latch s t).dispstat = t.dispstat := by unfold latch; split <;> rfl
@[simp] theorem latch_vcount (s : Source) (t : State) : (latch s t).vcount = t.vcount := by unfold latch; split <;> rfl
@[simp] theorem latch_keyinput (s : Source) (t : State) : (latch s t).keyinput = t.keyinput := by unfold latch; split <;> rfl
@[simp] theorem latch_keycnt (s : Source) (t : State) : (latch s t).keycnt = t.keycnt := by unfold latch; split <;> rfl
@[simp] theorem latch_dma (s : Source) (t : State) : (latch s t).dma = t.dma := by unfold latch; split <;> rfl
@[simp] theorem latch_vec (s : Source) (t : State) : (latch s t).vec = t.vec := by unfold latch; split <;> rfl
@[simp] theorem latch_keys (s : Source) (t : State) : (latch s t).keys = t.keys := by unfold latch; split <;> rfl
@[simp] theorem latch_inService (s : Source) (t : State) : (latch s t).inService = t.inService := by unfold latch; split <;> rfl
@[simp] theorem latch_waiting (s : Source) (t : State) : (latch s t).waiting = t.waiting := by unfold latch; split <;> rfl
@[simp] theorem latch_halted (s : Source) (t : State) : (latch s t).halted = t.halted := by unfold latch; split <;> rfl
@[simp] theorem latch_kpLinePrev (s : Source) (t : State) : (latch s t).kpLinePrev = t.kpLinePrev := by unfold latch; split <;> rfl
@[simp] theorem latch_out (s : Source) (t : State) : (latch s t).out = t.out := by unfold latch; split <;> rfl
@[simp] theorem latch_mem (s : Source) (t : State) : (latch s t).mem = t.mem := by unfold latch; split <;> rfl
@[simp] theorem latch_pending (s : Source) (t : State) : (latch s t).pending = t.pending := by unfold latch; split <;> rfl
@[simp] theorem latch_conf (s : Source) (t : State) : (latch s t).conf = t.conf := by unfold latch; split <;> rfl
@[simp] theorem latch_drawCount (s : Source) (t : State) : (latch s t).drawCount = t.drawCount := by unfold latch; split <;> rfl

/-! Entry leaves all but in_service and OUT. -/
@[simp] theorem enterHandler_ime (s : Source) (h : Word) (t : State) : (enterHandler s h t).ime = t.ime := rfl
@[simp] theorem enterHandler_ie (s : Source) (h : Word) (t : State) : (enterHandler s h t).ie = t.ie := rfl
@[simp] theorem enterHandler_iflag (s : Source) (h : Word) (t : State) : (enterHandler s h t).iflag = t.iflag := rfl
@[simp] theorem enterHandler_dispstat (s : Source) (h : Word) (t : State) : (enterHandler s h t).dispstat = t.dispstat := rfl
@[simp] theorem enterHandler_vcount (s : Source) (h : Word) (t : State) : (enterHandler s h t).vcount = t.vcount := rfl
@[simp] theorem enterHandler_keyinput (s : Source) (h : Word) (t : State) : (enterHandler s h t).keyinput = t.keyinput := rfl
@[simp] theorem enterHandler_keycnt (s : Source) (h : Word) (t : State) : (enterHandler s h t).keycnt = t.keycnt := rfl
@[simp] theorem enterHandler_dma (s : Source) (h : Word) (t : State) : (enterHandler s h t).dma = t.dma := rfl
@[simp] theorem enterHandler_vec (s : Source) (h : Word) (t : State) : (enterHandler s h t).vec = t.vec := rfl
@[simp] theorem enterHandler_keys (s : Source) (h : Word) (t : State) : (enterHandler s h t).keys = t.keys := rfl
@[simp] theorem enterHandler_waiting (s : Source) (h : Word) (t : State) : (enterHandler s h t).waiting = t.waiting := rfl
@[simp] theorem enterHandler_halted (s : Source) (h : Word) (t : State) : (enterHandler s h t).halted = t.halted := rfl
@[simp] theorem enterHandler_kpLinePrev (s : Source) (h : Word) (t : State) : (enterHandler s h t).kpLinePrev = t.kpLinePrev := rfl
@[simp] theorem enterHandler_mem (s : Source) (h : Word) (t : State) : (enterHandler s h t).mem = t.mem := rfl
@[simp] theorem enterHandler_pending (s : Source) (h : Word) (t : State) : (enterHandler s h t).pending = t.pending := rfl
@[simp] theorem enterHandler_conf (s : Source) (h : Word) (t : State) : (enterHandler s h t).conf = t.conf := rfl
@[simp] theorem enterHandler_drawCount (s : Source) (h : Word) (t : State) : (enterHandler s h t).drawCount = t.drawCount := rfl

/-! A wake leaves all but `waiting` and OUT. -/
@[simp] theorem wakeIfWaiting_ime (s : Source) (t : State) : (wakeIfWaiting s t).ime = t.ime := by unfold wakeIfWaiting; split <;> rfl
@[simp] theorem wakeIfWaiting_ie (s : Source) (t : State) : (wakeIfWaiting s t).ie = t.ie := by unfold wakeIfWaiting; split <;> rfl
@[simp] theorem wakeIfWaiting_iflag (s : Source) (t : State) : (wakeIfWaiting s t).iflag = t.iflag := by unfold wakeIfWaiting; split <;> rfl
@[simp] theorem wakeIfWaiting_dispstat (s : Source) (t : State) : (wakeIfWaiting s t).dispstat = t.dispstat := by unfold wakeIfWaiting; split <;> rfl
@[simp] theorem wakeIfWaiting_vcount (s : Source) (t : State) : (wakeIfWaiting s t).vcount = t.vcount := by unfold wakeIfWaiting; split <;> rfl
@[simp] theorem wakeIfWaiting_keyinput (s : Source) (t : State) : (wakeIfWaiting s t).keyinput = t.keyinput := by unfold wakeIfWaiting; split <;> rfl
@[simp] theorem wakeIfWaiting_keycnt (s : Source) (t : State) : (wakeIfWaiting s t).keycnt = t.keycnt := by unfold wakeIfWaiting; split <;> rfl
@[simp] theorem wakeIfWaiting_dma (s : Source) (t : State) : (wakeIfWaiting s t).dma = t.dma := by unfold wakeIfWaiting; split <;> rfl
@[simp] theorem wakeIfWaiting_vec (s : Source) (t : State) : (wakeIfWaiting s t).vec = t.vec := by unfold wakeIfWaiting; split <;> rfl
@[simp] theorem wakeIfWaiting_keys (s : Source) (t : State) : (wakeIfWaiting s t).keys = t.keys := by unfold wakeIfWaiting; split <;> rfl
@[simp] theorem wakeIfWaiting_inService (s : Source) (t : State) : (wakeIfWaiting s t).inService = t.inService := by unfold wakeIfWaiting; split <;> rfl
@[simp] theorem wakeIfWaiting_halted (s : Source) (t : State) : (wakeIfWaiting s t).halted = t.halted := by unfold wakeIfWaiting; split <;> rfl
@[simp] theorem wakeIfWaiting_kpLinePrev (s : Source) (t : State) : (wakeIfWaiting s t).kpLinePrev = t.kpLinePrev := by unfold wakeIfWaiting; split <;> rfl
@[simp] theorem wakeIfWaiting_mem (s : Source) (t : State) : (wakeIfWaiting s t).mem = t.mem := by unfold wakeIfWaiting; split <;> rfl
@[simp] theorem wakeIfWaiting_pending (s : Source) (t : State) : (wakeIfWaiting s t).pending = t.pending := by unfold wakeIfWaiting; split <;> rfl
@[simp] theorem wakeIfWaiting_conf (s : Source) (t : State) : (wakeIfWaiting s t).conf = t.conf := by unfold wakeIfWaiting; split <;> rfl
@[simp] theorem wakeIfWaiting_drawCount (s : Source) (t : State) : (wakeIfWaiting s t).drawCount = t.drawCount := by unfold wakeIfWaiting; split <;> rfl

/-! `Dispatch` leaves all but IF, in_service, `waiting` and OUT. -/
@[simp] theorem dispatch_ime (s : Source) (t : State) : ((dispatch s t).1).ime = t.ime := by
  unfold dispatch
  dsimp only
  split
  · split <;> simp
  simp
@[simp] theorem dispatch_ie (s : Source) (t : State) : ((dispatch s t).1).ie = t.ie := by
  unfold dispatch
  dsimp only
  split
  · split <;> simp
  simp
@[simp] theorem dispatch_dispstat (s : Source) (t : State) : ((dispatch s t).1).dispstat = t.dispstat := by
  unfold dispatch
  dsimp only
  split
  · split <;> simp
  simp
@[simp] theorem dispatch_vcount (s : Source) (t : State) : ((dispatch s t).1).vcount = t.vcount := by
  unfold dispatch
  dsimp only
  split
  · split <;> simp
  simp
@[simp] theorem dispatch_keyinput (s : Source) (t : State) : ((dispatch s t).1).keyinput = t.keyinput := by
  unfold dispatch
  dsimp only
  split
  · split <;> simp
  simp
@[simp] theorem dispatch_keycnt (s : Source) (t : State) : ((dispatch s t).1).keycnt = t.keycnt := by
  unfold dispatch
  dsimp only
  split
  · split <;> simp
  simp
@[simp] theorem dispatch_dma (s : Source) (t : State) : ((dispatch s t).1).dma = t.dma := by
  unfold dispatch
  dsimp only
  split
  · split <;> simp
  simp
@[simp] theorem dispatch_vec (s : Source) (t : State) : ((dispatch s t).1).vec = t.vec := by
  unfold dispatch
  dsimp only
  split
  · split <;> simp
  simp
@[simp] theorem dispatch_keys (s : Source) (t : State) : ((dispatch s t).1).keys = t.keys := by
  unfold dispatch
  dsimp only
  split
  · split <;> simp
  simp
@[simp] theorem dispatch_halted (s : Source) (t : State) : ((dispatch s t).1).halted = t.halted := by
  unfold dispatch
  dsimp only
  split
  · split <;> simp
  simp
@[simp] theorem dispatch_kpLinePrev (s : Source) (t : State) : ((dispatch s t).1).kpLinePrev = t.kpLinePrev := by
  unfold dispatch
  dsimp only
  split
  · split <;> simp
  simp
@[simp] theorem dispatch_mem (s : Source) (t : State) : ((dispatch s t).1).mem = t.mem := by
  unfold dispatch
  dsimp only
  split
  · split <;> simp
  simp
@[simp] theorem dispatch_pending (s : Source) (t : State) : ((dispatch s t).1).pending = t.pending := by
  unfold dispatch
  dsimp only
  split
  · split <;> simp
  simp
@[simp] theorem dispatch_conf (s : Source) (t : State) : ((dispatch s t).1).conf = t.conf := by
  unfold dispatch
  dsimp only
  split
  · split <;> simp
  simp
@[simp] theorem dispatch_drawCount (s : Source) (t : State) : ((dispatch s t).1).drawCount = t.drawCount := by
  unfold dispatch
  dsimp only
  split
  · split <;> simp
  simp

/-! So do several in turn. -/
@[simp] theorem dispatchAll_ime (l : List Source) (t : State) : (dispatchAll l t).ime = t.ime := by
  induction l generalizing t with
  | nil => rfl
  | cons s rest ih => simp [dispatchAll, ih]
@[simp] theorem dispatchAll_ie (l : List Source) (t : State) : (dispatchAll l t).ie = t.ie := by
  induction l generalizing t with
  | nil => rfl
  | cons s rest ih => simp [dispatchAll, ih]
@[simp] theorem dispatchAll_dispstat (l : List Source) (t : State) : (dispatchAll l t).dispstat = t.dispstat := by
  induction l generalizing t with
  | nil => rfl
  | cons s rest ih => simp [dispatchAll, ih]
@[simp] theorem dispatchAll_vcount (l : List Source) (t : State) : (dispatchAll l t).vcount = t.vcount := by
  induction l generalizing t with
  | nil => rfl
  | cons s rest ih => simp [dispatchAll, ih]
@[simp] theorem dispatchAll_keyinput (l : List Source) (t : State) : (dispatchAll l t).keyinput = t.keyinput := by
  induction l generalizing t with
  | nil => rfl
  | cons s rest ih => simp [dispatchAll, ih]
@[simp] theorem dispatchAll_keycnt (l : List Source) (t : State) : (dispatchAll l t).keycnt = t.keycnt := by
  induction l generalizing t with
  | nil => rfl
  | cons s rest ih => simp [dispatchAll, ih]
@[simp] theorem dispatchAll_dma (l : List Source) (t : State) : (dispatchAll l t).dma = t.dma := by
  induction l generalizing t with
  | nil => rfl
  | cons s rest ih => simp [dispatchAll, ih]
@[simp] theorem dispatchAll_vec (l : List Source) (t : State) : (dispatchAll l t).vec = t.vec := by
  induction l generalizing t with
  | nil => rfl
  | cons s rest ih => simp [dispatchAll, ih]
@[simp] theorem dispatchAll_keys (l : List Source) (t : State) : (dispatchAll l t).keys = t.keys := by
  induction l generalizing t with
  | nil => rfl
  | cons s rest ih => simp [dispatchAll, ih]
@[simp] theorem dispatchAll_halted (l : List Source) (t : State) : (dispatchAll l t).halted = t.halted := by
  induction l generalizing t with
  | nil => rfl
  | cons s rest ih => simp [dispatchAll, ih]
@[simp] theorem dispatchAll_kpLinePrev (l : List Source) (t : State) : (dispatchAll l t).kpLinePrev = t.kpLinePrev := by
  induction l generalizing t with
  | nil => rfl
  | cons s rest ih => simp [dispatchAll, ih]
@[simp] theorem dispatchAll_mem (l : List Source) (t : State) : (dispatchAll l t).mem = t.mem := by
  induction l generalizing t with
  | nil => rfl
  | cons s rest ih => simp [dispatchAll, ih]
@[simp] theorem dispatchAll_pending (l : List Source) (t : State) : (dispatchAll l t).pending = t.pending := by
  induction l generalizing t with
  | nil => rfl
  | cons s rest ih => simp [dispatchAll, ih]
@[simp] theorem dispatchAll_conf (l : List Source) (t : State) : (dispatchAll l t).conf = t.conf := by
  induction l generalizing t with
  | nil => rfl
  | cons s rest ih => simp [dispatchAll, ih]
@[simp] theorem dispatchAll_drawCount (l : List Source) (t : State) : (dispatchAll l t).drawCount = t.drawCount := by
  induction l generalizing t with
  | nil => rfl
  | cons s rest ih => simp [dispatchAll, ih]

/-! Return leaves all but in_service, `waiting` and OUT. -/
@[simp] theorem leaveHandler_ime (s : Source) (t : State) : (leaveHandler s t).ime = t.ime := by simp [leaveHandler]
@[simp] theorem leaveHandler_ie (s : Source) (t : State) : (leaveHandler s t).ie = t.ie := by simp [leaveHandler]
@[simp] theorem leaveHandler_iflag (s : Source) (t : State) : (leaveHandler s t).iflag = t.iflag := by simp [leaveHandler]
@[simp] theorem leaveHandler_dispstat (s : Source) (t : State) : (leaveHandler s t).dispstat = t.dispstat := by simp [leaveHandler]
@[simp] theorem leaveHandler_vcount (s : Source) (t : State) : (leaveHandler s t).vcount = t.vcount := by simp [leaveHandler]
@[simp] theorem leaveHandler_keyinput (s : Source) (t : State) : (leaveHandler s t).keyinput = t.keyinput := by simp [leaveHandler]
@[simp] theorem leaveHandler_keycnt (s : Source) (t : State) : (leaveHandler s t).keycnt = t.keycnt := by simp [leaveHandler]
@[simp] theorem leaveHandler_dma (s : Source) (t : State) : (leaveHandler s t).dma = t.dma := by simp [leaveHandler]
@[simp] theorem leaveHandler_vec (s : Source) (t : State) : (leaveHandler s t).vec = t.vec := by simp [leaveHandler]
@[simp] theorem leaveHandler_keys (s : Source) (t : State) : (leaveHandler s t).keys = t.keys := by simp [leaveHandler]
@[simp] theorem leaveHandler_halted (s : Source) (t : State) : (leaveHandler s t).halted = t.halted := by simp [leaveHandler]
@[simp] theorem leaveHandler_kpLinePrev (s : Source) (t : State) : (leaveHandler s t).kpLinePrev = t.kpLinePrev := by simp [leaveHandler]
@[simp] theorem leaveHandler_mem (s : Source) (t : State) : (leaveHandler s t).mem = t.mem := by simp [leaveHandler]
@[simp] theorem leaveHandler_pending (s : Source) (t : State) : (leaveHandler s t).pending = t.pending := by simp [leaveHandler]
@[simp] theorem leaveHandler_conf (s : Source) (t : State) : (leaveHandler s t).conf = t.conf := by simp [leaveHandler]
@[simp] theorem leaveHandler_drawCount (s : Source) (t : State) : (leaveHandler s t).drawCount = t.drawCount := by simp [leaveHandler]

/-! `waiting` ends only on VBlank. -/
theorem wakeIfWaiting_waiting_ne {s : Source} {t : State} (h : s ≠ srcVblank t.conf) : wakeIfWaiting s t = t := by
  simp [wakeIfWaiting, h]

theorem dispatch_waiting_ne {s : Source} {t : State} (h : s ≠ srcVblank t.conf) : (dispatch s t).1.waiting = t.waiting := by
  unfold dispatch; dsimp only; split
  · split
    · simp
    · rw [wakeIfWaiting_waiting_ne (by simpa using h)]; simp
  · simp

/-! The keypad epilogue leaves all but IF, in_service, OUT and the edge memory. -/
@[simp] theorem keypadEpilogue_ime (t : State) : (keypadEpilogue t).ime = t.ime := by unfold keypadEpilogue; dsimp only; split <;> simp
@[simp] theorem keypadEpilogue_ie (t : State) : (keypadEpilogue t).ie = t.ie := by unfold keypadEpilogue; dsimp only; split <;> simp
@[simp] theorem keypadEpilogue_dispstat (t : State) : (keypadEpilogue t).dispstat = t.dispstat := by unfold keypadEpilogue; dsimp only; split <;> simp
@[simp] theorem keypadEpilogue_vcount (t : State) : (keypadEpilogue t).vcount = t.vcount := by unfold keypadEpilogue; dsimp only; split <;> simp
@[simp] theorem keypadEpilogue_keyinput (t : State) : (keypadEpilogue t).keyinput = t.keyinput := by unfold keypadEpilogue; dsimp only; split <;> simp
@[simp] theorem keypadEpilogue_keycnt (t : State) : (keypadEpilogue t).keycnt = t.keycnt := by unfold keypadEpilogue; dsimp only; split <;> simp
@[simp] theorem keypadEpilogue_dma (t : State) : (keypadEpilogue t).dma = t.dma := by unfold keypadEpilogue; dsimp only; split <;> simp
@[simp] theorem keypadEpilogue_vec (t : State) : (keypadEpilogue t).vec = t.vec := by unfold keypadEpilogue; dsimp only; split <;> simp
@[simp] theorem keypadEpilogue_keys (t : State) : (keypadEpilogue t).keys = t.keys := by unfold keypadEpilogue; dsimp only; split <;> simp
@[simp] theorem keypadEpilogue_halted (t : State) : (keypadEpilogue t).halted = t.halted := by unfold keypadEpilogue; dsimp only; split <;> simp
@[simp] theorem keypadEpilogue_mem (t : State) : (keypadEpilogue t).mem = t.mem := by unfold keypadEpilogue; dsimp only; split <;> simp
@[simp] theorem keypadEpilogue_pending (t : State) : (keypadEpilogue t).pending = t.pending := by unfold keypadEpilogue; dsimp only; split <;> simp
@[simp] theorem keypadEpilogue_conf (t : State) : (keypadEpilogue t).conf = t.conf := by unfold keypadEpilogue; dsimp only; split <;> simp
@[simp] theorem keypadEpilogue_drawCount (t : State) : (keypadEpilogue t).drawCount = t.drawCount := by unfold keypadEpilogue; dsimp only; split <;> simp

@[simp] theorem keypadEpilogue_waiting (t : State) : (keypadEpilogue t).waiting = t.waiting := by
  unfold keypadEpilogue
  dsimp only
  split <;> simp [dispatch_waiting_ne (srcKeypad_ne_srcVblank t.conf)]

/-! So does a response. -/
@[simp] theorem respond_ime (c : ResultCode) (d : Half) (t : State) : (respond c d t).ime = t.ime := by simp [respond]
@[simp] theorem respond_ie (c : ResultCode) (d : Half) (t : State) : (respond c d t).ie = t.ie := by simp [respond]
@[simp] theorem respond_dispstat (c : ResultCode) (d : Half) (t : State) : (respond c d t).dispstat = t.dispstat := by simp [respond]
@[simp] theorem respond_vcount (c : ResultCode) (d : Half) (t : State) : (respond c d t).vcount = t.vcount := by simp [respond]
@[simp] theorem respond_keyinput (c : ResultCode) (d : Half) (t : State) : (respond c d t).keyinput = t.keyinput := by simp [respond]
@[simp] theorem respond_keycnt (c : ResultCode) (d : Half) (t : State) : (respond c d t).keycnt = t.keycnt := by simp [respond]
@[simp] theorem respond_dma (c : ResultCode) (d : Half) (t : State) : (respond c d t).dma = t.dma := by simp [respond]
@[simp] theorem respond_vec (c : ResultCode) (d : Half) (t : State) : (respond c d t).vec = t.vec := by simp [respond]
@[simp] theorem respond_keys (c : ResultCode) (d : Half) (t : State) : (respond c d t).keys = t.keys := by simp [respond]
@[simp] theorem respond_waiting (c : ResultCode) (d : Half) (t : State) : (respond c d t).waiting = t.waiting := by simp [respond]
@[simp] theorem respond_halted (c : ResultCode) (d : Half) (t : State) : (respond c d t).halted = t.halted := by simp [respond]
@[simp] theorem respond_mem (c : ResultCode) (d : Half) (t : State) : (respond c d t).mem = t.mem := by simp [respond]
@[simp] theorem respond_pending (c : ResultCode) (d : Half) (t : State) : (respond c d t).pending = t.pending := by simp [respond]
@[simp] theorem respond_conf (c : ResultCode) (d : Half) (t : State) : (respond c d t).conf = t.conf := by simp [respond]
@[simp] theorem respond_drawCount (c : ResultCode) (d : Half) (t : State) : (respond c d t).drawCount = t.drawCount := by simp [respond]

/-! A channel's record written leaves the rest. -/
@[simp] theorem State.setChannel_ime (t : State) (ch : Channel) (d : DmaChannel) : (t.setChannel ch d).ime = t.ime := rfl
@[simp] theorem State.setChannel_ie (t : State) (ch : Channel) (d : DmaChannel) : (t.setChannel ch d).ie = t.ie := rfl
@[simp] theorem State.setChannel_iflag (t : State) (ch : Channel) (d : DmaChannel) : (t.setChannel ch d).iflag = t.iflag := rfl
@[simp] theorem State.setChannel_dispstat (t : State) (ch : Channel) (d : DmaChannel) : (t.setChannel ch d).dispstat = t.dispstat := rfl
@[simp] theorem State.setChannel_vcount (t : State) (ch : Channel) (d : DmaChannel) : (t.setChannel ch d).vcount = t.vcount := rfl
@[simp] theorem State.setChannel_keyinput (t : State) (ch : Channel) (d : DmaChannel) : (t.setChannel ch d).keyinput = t.keyinput := rfl
@[simp] theorem State.setChannel_keycnt (t : State) (ch : Channel) (d : DmaChannel) : (t.setChannel ch d).keycnt = t.keycnt := rfl
@[simp] theorem State.setChannel_vec (t : State) (ch : Channel) (d : DmaChannel) : (t.setChannel ch d).vec = t.vec := rfl
@[simp] theorem State.setChannel_keys (t : State) (ch : Channel) (d : DmaChannel) : (t.setChannel ch d).keys = t.keys := rfl
@[simp] theorem State.setChannel_inService (t : State) (ch : Channel) (d : DmaChannel) : (t.setChannel ch d).inService = t.inService := rfl
@[simp] theorem State.setChannel_waiting (t : State) (ch : Channel) (d : DmaChannel) : (t.setChannel ch d).waiting = t.waiting := rfl
@[simp] theorem State.setChannel_halted (t : State) (ch : Channel) (d : DmaChannel) : (t.setChannel ch d).halted = t.halted := rfl
@[simp] theorem State.setChannel_kpLinePrev (t : State) (ch : Channel) (d : DmaChannel) : (t.setChannel ch d).kpLinePrev = t.kpLinePrev := rfl
@[simp] theorem State.setChannel_out (t : State) (ch : Channel) (d : DmaChannel) : (t.setChannel ch d).out = t.out := rfl
@[simp] theorem State.setChannel_mem (t : State) (ch : Channel) (d : DmaChannel) : (t.setChannel ch d).mem = t.mem := rfl
@[simp] theorem State.setChannel_pending (t : State) (ch : Channel) (d : DmaChannel) : (t.setChannel ch d).pending = t.pending := rfl
@[simp] theorem State.setChannel_conf (t : State) (ch : Channel) (d : DmaChannel) : (t.setChannel ch d).conf = t.conf := rfl
@[simp] theorem State.setChannel_drawCount (t : State) (ch : Channel) (d : DmaChannel) : (t.setChannel ch d).drawCount = t.drawCount := rfl

/-! A unit read leaves all but the count of draws. -/
@[simp] theorem dmaRead_ime (ch : Channel) (a : Word) (u : Bool) (t : State) : ((dmaRead ch a u t).2).ime = t.ime := by
  unfold dmaRead
  repeat' split
  all_goals simp
@[simp] theorem dmaRead_ie (ch : Channel) (a : Word) (u : Bool) (t : State) : ((dmaRead ch a u t).2).ie = t.ie := by
  unfold dmaRead
  repeat' split
  all_goals simp
@[simp] theorem dmaRead_iflag (ch : Channel) (a : Word) (u : Bool) (t : State) : ((dmaRead ch a u t).2).iflag = t.iflag := by
  unfold dmaRead
  repeat' split
  all_goals simp
@[simp] theorem dmaRead_dispstat (ch : Channel) (a : Word) (u : Bool) (t : State) : ((dmaRead ch a u t).2).dispstat = t.dispstat := by
  unfold dmaRead
  repeat' split
  all_goals simp
@[simp] theorem dmaRead_vcount (ch : Channel) (a : Word) (u : Bool) (t : State) : ((dmaRead ch a u t).2).vcount = t.vcount := by
  unfold dmaRead
  repeat' split
  all_goals simp
@[simp] theorem dmaRead_keyinput (ch : Channel) (a : Word) (u : Bool) (t : State) : ((dmaRead ch a u t).2).keyinput = t.keyinput := by
  unfold dmaRead
  repeat' split
  all_goals simp
@[simp] theorem dmaRead_keycnt (ch : Channel) (a : Word) (u : Bool) (t : State) : ((dmaRead ch a u t).2).keycnt = t.keycnt := by
  unfold dmaRead
  repeat' split
  all_goals simp
@[simp] theorem dmaRead_dma (ch : Channel) (a : Word) (u : Bool) (t : State) : ((dmaRead ch a u t).2).dma = t.dma := by
  unfold dmaRead
  repeat' split
  all_goals simp
@[simp] theorem dmaRead_vec (ch : Channel) (a : Word) (u : Bool) (t : State) : ((dmaRead ch a u t).2).vec = t.vec := by
  unfold dmaRead
  repeat' split
  all_goals simp
@[simp] theorem dmaRead_keys (ch : Channel) (a : Word) (u : Bool) (t : State) : ((dmaRead ch a u t).2).keys = t.keys := by
  unfold dmaRead
  repeat' split
  all_goals simp
@[simp] theorem dmaRead_inService (ch : Channel) (a : Word) (u : Bool) (t : State) : ((dmaRead ch a u t).2).inService = t.inService := by
  unfold dmaRead
  repeat' split
  all_goals simp
@[simp] theorem dmaRead_waiting (ch : Channel) (a : Word) (u : Bool) (t : State) : ((dmaRead ch a u t).2).waiting = t.waiting := by
  unfold dmaRead
  repeat' split
  all_goals simp
@[simp] theorem dmaRead_halted (ch : Channel) (a : Word) (u : Bool) (t : State) : ((dmaRead ch a u t).2).halted = t.halted := by
  unfold dmaRead
  repeat' split
  all_goals simp
@[simp] theorem dmaRead_kpLinePrev (ch : Channel) (a : Word) (u : Bool) (t : State) : ((dmaRead ch a u t).2).kpLinePrev = t.kpLinePrev := by
  unfold dmaRead
  repeat' split
  all_goals simp
@[simp] theorem dmaRead_out (ch : Channel) (a : Word) (u : Bool) (t : State) : ((dmaRead ch a u t).2).out = t.out := by
  unfold dmaRead
  repeat' split
  all_goals simp
@[simp] theorem dmaRead_mem (ch : Channel) (a : Word) (u : Bool) (t : State) : ((dmaRead ch a u t).2).mem = t.mem := by
  unfold dmaRead
  repeat' split
  all_goals simp
@[simp] theorem dmaRead_pending (ch : Channel) (a : Word) (u : Bool) (t : State) : ((dmaRead ch a u t).2).pending = t.pending := by
  unfold dmaRead
  repeat' split
  all_goals simp
@[simp] theorem dmaRead_conf (ch : Channel) (a : Word) (u : Bool) (t : State) : ((dmaRead ch a u t).2).conf = t.conf := by
  unfold dmaRead
  repeat' split
  all_goals simp

/-! A unit written leaves all but the writable registers, `Mem` and the count of draws. -/
@[simp] theorem dmaWrite_vcount (a : Word) (u : Bool) (v : Word) (t : State) : (dmaWrite a u v t).vcount = t.vcount := by
  unfold dmaWrite
  dsimp only
  repeat' split
  all_goals simp
@[simp] theorem dmaWrite_keyinput (a : Word) (u : Bool) (v : Word) (t : State) : (dmaWrite a u v t).keyinput = t.keyinput := by
  unfold dmaWrite
  dsimp only
  repeat' split
  all_goals simp
@[simp] theorem dmaWrite_dma (a : Word) (u : Bool) (v : Word) (t : State) : (dmaWrite a u v t).dma = t.dma := by
  unfold dmaWrite
  dsimp only
  repeat' split
  all_goals simp
@[simp] theorem dmaWrite_vec (a : Word) (u : Bool) (v : Word) (t : State) : (dmaWrite a u v t).vec = t.vec := by
  unfold dmaWrite
  dsimp only
  repeat' split
  all_goals simp
@[simp] theorem dmaWrite_keys (a : Word) (u : Bool) (v : Word) (t : State) : (dmaWrite a u v t).keys = t.keys := by
  unfold dmaWrite
  dsimp only
  repeat' split
  all_goals simp
@[simp] theorem dmaWrite_inService (a : Word) (u : Bool) (v : Word) (t : State) : (dmaWrite a u v t).inService = t.inService := by
  unfold dmaWrite
  dsimp only
  repeat' split
  all_goals simp
@[simp] theorem dmaWrite_waiting (a : Word) (u : Bool) (v : Word) (t : State) : (dmaWrite a u v t).waiting = t.waiting := by
  unfold dmaWrite
  dsimp only
  repeat' split
  all_goals simp
@[simp] theorem dmaWrite_halted (a : Word) (u : Bool) (v : Word) (t : State) : (dmaWrite a u v t).halted = t.halted := by
  unfold dmaWrite
  dsimp only
  repeat' split
  all_goals simp
@[simp] theorem dmaWrite_kpLinePrev (a : Word) (u : Bool) (v : Word) (t : State) : (dmaWrite a u v t).kpLinePrev = t.kpLinePrev := by
  unfold dmaWrite
  dsimp only
  repeat' split
  all_goals simp
@[simp] theorem dmaWrite_out (a : Word) (u : Bool) (v : Word) (t : State) : (dmaWrite a u v t).out = t.out := by
  unfold dmaWrite
  dsimp only
  repeat' split
  all_goals simp
@[simp] theorem dmaWrite_pending (a : Word) (u : Bool) (v : Word) (t : State) : (dmaWrite a u v t).pending = t.pending := by
  unfold dmaWrite
  dsimp only
  repeat' split
  all_goals simp
@[simp] theorem dmaWrite_conf (a : Word) (u : Bool) (v : Word) (t : State) : (dmaWrite a u v t).conf = t.conf := by
  unfold dmaWrite
  dsimp only
  repeat' split
  all_goals simp

/-! A unit of a burst. -/
@[simp] theorem burstUnit_vcount (ch : Channel) (fill : Option Word) (c : Half) (t : State) : (burstUnit ch fill c t).vcount = t.vcount := by unfold burstUnit; cases fill <;> simp
@[simp] theorem burstUnit_keyinput (ch : Channel) (fill : Option Word) (c : Half) (t : State) : (burstUnit ch fill c t).keyinput = t.keyinput := by unfold burstUnit; cases fill <;> simp
@[simp] theorem burstUnit_vec (ch : Channel) (fill : Option Word) (c : Half) (t : State) : (burstUnit ch fill c t).vec = t.vec := by unfold burstUnit; cases fill <;> simp
@[simp] theorem burstUnit_keys (ch : Channel) (fill : Option Word) (c : Half) (t : State) : (burstUnit ch fill c t).keys = t.keys := by unfold burstUnit; cases fill <;> simp
@[simp] theorem burstUnit_inService (ch : Channel) (fill : Option Word) (c : Half) (t : State) : (burstUnit ch fill c t).inService = t.inService := by unfold burstUnit; cases fill <;> simp
@[simp] theorem burstUnit_waiting (ch : Channel) (fill : Option Word) (c : Half) (t : State) : (burstUnit ch fill c t).waiting = t.waiting := by unfold burstUnit; cases fill <;> simp
@[simp] theorem burstUnit_halted (ch : Channel) (fill : Option Word) (c : Half) (t : State) : (burstUnit ch fill c t).halted = t.halted := by unfold burstUnit; cases fill <;> simp
@[simp] theorem burstUnit_kpLinePrev (ch : Channel) (fill : Option Word) (c : Half) (t : State) : (burstUnit ch fill c t).kpLinePrev = t.kpLinePrev := by unfold burstUnit; cases fill <;> simp
@[simp] theorem burstUnit_out (ch : Channel) (fill : Option Word) (c : Half) (t : State) : (burstUnit ch fill c t).out = t.out := by unfold burstUnit; cases fill <;> simp
@[simp] theorem burstUnit_pending (ch : Channel) (fill : Option Word) (c : Half) (t : State) : (burstUnit ch fill c t).pending = t.pending := by unfold burstUnit; cases fill <;> simp
@[simp] theorem burstUnit_conf (ch : Channel) (fill : Option Word) (c : Half) (t : State) : (burstUnit ch fill c t).conf = t.conf := by unfold burstUnit; cases fill <;> simp

/-! The units of a burst. -/
@[simp] theorem burstUnits_vcount (ch : Channel) (fill : Option Word) (c : Half) (n : Nat) (t : State) : (burstUnits ch fill c n t).vcount = t.vcount := by
  induction n generalizing t with
  | zero => rfl
  | succ n ih => simp [burstUnits, ih]
@[simp] theorem burstUnits_keyinput (ch : Channel) (fill : Option Word) (c : Half) (n : Nat) (t : State) : (burstUnits ch fill c n t).keyinput = t.keyinput := by
  induction n generalizing t with
  | zero => rfl
  | succ n ih => simp [burstUnits, ih]
@[simp] theorem burstUnits_vec (ch : Channel) (fill : Option Word) (c : Half) (n : Nat) (t : State) : (burstUnits ch fill c n t).vec = t.vec := by
  induction n generalizing t with
  | zero => rfl
  | succ n ih => simp [burstUnits, ih]
@[simp] theorem burstUnits_keys (ch : Channel) (fill : Option Word) (c : Half) (n : Nat) (t : State) : (burstUnits ch fill c n t).keys = t.keys := by
  induction n generalizing t with
  | zero => rfl
  | succ n ih => simp [burstUnits, ih]
@[simp] theorem burstUnits_inService (ch : Channel) (fill : Option Word) (c : Half) (n : Nat) (t : State) : (burstUnits ch fill c n t).inService = t.inService := by
  induction n generalizing t with
  | zero => rfl
  | succ n ih => simp [burstUnits, ih]
@[simp] theorem burstUnits_waiting (ch : Channel) (fill : Option Word) (c : Half) (n : Nat) (t : State) : (burstUnits ch fill c n t).waiting = t.waiting := by
  induction n generalizing t with
  | zero => rfl
  | succ n ih => simp [burstUnits, ih]
@[simp] theorem burstUnits_halted (ch : Channel) (fill : Option Word) (c : Half) (n : Nat) (t : State) : (burstUnits ch fill c n t).halted = t.halted := by
  induction n generalizing t with
  | zero => rfl
  | succ n ih => simp [burstUnits, ih]
@[simp] theorem burstUnits_kpLinePrev (ch : Channel) (fill : Option Word) (c : Half) (n : Nat) (t : State) : (burstUnits ch fill c n t).kpLinePrev = t.kpLinePrev := by
  induction n generalizing t with
  | zero => rfl
  | succ n ih => simp [burstUnits, ih]
@[simp] theorem burstUnits_out (ch : Channel) (fill : Option Word) (c : Half) (n : Nat) (t : State) : (burstUnits ch fill c n t).out = t.out := by
  induction n generalizing t with
  | zero => rfl
  | succ n ih => simp [burstUnits, ih]
@[simp] theorem burstUnits_pending (ch : Channel) (fill : Option Word) (c : Half) (n : Nat) (t : State) : (burstUnits ch fill c n t).pending = t.pending := by
  induction n generalizing t with
  | zero => rfl
  | succ n ih => simp [burstUnits, ih]
@[simp] theorem burstUnits_conf (ch : Channel) (fill : Option Word) (c : Half) (n : Nat) (t : State) : (burstUnits ch fill c n t).conf = t.conf := by
  induction n generalizing t with
  | zero => rfl
  | succ n ih => simp [burstUnits, ih]

/-! A burst. -/
@[simp] theorem burst_vcount (ch : Channel) (fill : Option Word) (t : State) : ((burst ch fill t).1).vcount = t.vcount := by simp [burst]
@[simp] theorem burst_keyinput (ch : Channel) (fill : Option Word) (t : State) : ((burst ch fill t).1).keyinput = t.keyinput := by simp [burst]
@[simp] theorem burst_vec (ch : Channel) (fill : Option Word) (t : State) : ((burst ch fill t).1).vec = t.vec := by simp [burst]
@[simp] theorem burst_keys (ch : Channel) (fill : Option Word) (t : State) : ((burst ch fill t).1).keys = t.keys := by simp [burst]
@[simp] theorem burst_inService (ch : Channel) (fill : Option Word) (t : State) : ((burst ch fill t).1).inService = t.inService := by simp [burst]
@[simp] theorem burst_waiting (ch : Channel) (fill : Option Word) (t : State) : ((burst ch fill t).1).waiting = t.waiting := by simp [burst]
@[simp] theorem burst_halted (ch : Channel) (fill : Option Word) (t : State) : ((burst ch fill t).1).halted = t.halted := by simp [burst]
@[simp] theorem burst_kpLinePrev (ch : Channel) (fill : Option Word) (t : State) : ((burst ch fill t).1).kpLinePrev = t.kpLinePrev := by simp [burst]
@[simp] theorem burst_out (ch : Channel) (fill : Option Word) (t : State) : ((burst ch fill t).1).out = t.out := by simp [burst]
@[simp] theorem burst_pending (ch : Channel) (fill : Option Word) (t : State) : ((burst ch fill t).1).pending = t.pending := by simp [burst]
@[simp] theorem burst_conf (ch : Channel) (fill : Option Word) (t : State) : ((burst ch fill t).1).conf = t.conf := by simp [burst]

/-! The bursts of an edge. -/
@[simp] theorem triggerChannels_vcount (tm : BitVec 2) (l : List Channel) (t : State) : ((triggerChannels tm l t).1).vcount = t.vcount := by
  induction l generalizing t with
  | nil => rfl
  | cons ch rest ih =>
    unfold triggerChannels
    dsimp only
    split <;> simp [ih]
@[simp] theorem triggerChannels_keyinput (tm : BitVec 2) (l : List Channel) (t : State) : ((triggerChannels tm l t).1).keyinput = t.keyinput := by
  induction l generalizing t with
  | nil => rfl
  | cons ch rest ih =>
    unfold triggerChannels
    dsimp only
    split <;> simp [ih]
@[simp] theorem triggerChannels_vec (tm : BitVec 2) (l : List Channel) (t : State) : ((triggerChannels tm l t).1).vec = t.vec := by
  induction l generalizing t with
  | nil => rfl
  | cons ch rest ih =>
    unfold triggerChannels
    dsimp only
    split <;> simp [ih]
@[simp] theorem triggerChannels_keys (tm : BitVec 2) (l : List Channel) (t : State) : ((triggerChannels tm l t).1).keys = t.keys := by
  induction l generalizing t with
  | nil => rfl
  | cons ch rest ih =>
    unfold triggerChannels
    dsimp only
    split <;> simp [ih]
@[simp] theorem triggerChannels_inService (tm : BitVec 2) (l : List Channel) (t : State) : ((triggerChannels tm l t).1).inService = t.inService := by
  induction l generalizing t with
  | nil => rfl
  | cons ch rest ih =>
    unfold triggerChannels
    dsimp only
    split <;> simp [ih]
@[simp] theorem triggerChannels_waiting (tm : BitVec 2) (l : List Channel) (t : State) : ((triggerChannels tm l t).1).waiting = t.waiting := by
  induction l generalizing t with
  | nil => rfl
  | cons ch rest ih =>
    unfold triggerChannels
    dsimp only
    split <;> simp [ih]
@[simp] theorem triggerChannels_halted (tm : BitVec 2) (l : List Channel) (t : State) : ((triggerChannels tm l t).1).halted = t.halted := by
  induction l generalizing t with
  | nil => rfl
  | cons ch rest ih =>
    unfold triggerChannels
    dsimp only
    split <;> simp [ih]
@[simp] theorem triggerChannels_kpLinePrev (tm : BitVec 2) (l : List Channel) (t : State) : ((triggerChannels tm l t).1).kpLinePrev = t.kpLinePrev := by
  induction l generalizing t with
  | nil => rfl
  | cons ch rest ih =>
    unfold triggerChannels
    dsimp only
    split <;> simp [ih]
@[simp] theorem triggerChannels_out (tm : BitVec 2) (l : List Channel) (t : State) : ((triggerChannels tm l t).1).out = t.out := by
  induction l generalizing t with
  | nil => rfl
  | cons ch rest ih =>
    unfold triggerChannels
    dsimp only
    split <;> simp [ih]
@[simp] theorem triggerChannels_pending (tm : BitVec 2) (l : List Channel) (t : State) : ((triggerChannels tm l t).1).pending = t.pending := by
  induction l generalizing t with
  | nil => rfl
  | cons ch rest ih =>
    unfold triggerChannels
    dsimp only
    split <;> simp [ih]
@[simp] theorem triggerChannels_conf (tm : BitVec 2) (l : List Channel) (t : State) : ((triggerChannels tm l t).1).conf = t.conf := by
  induction l generalizing t with
  | nil => rfl
  | cons ch rest ih =>
    unfold triggerChannels
    dsimp only
    split <;> simp [ih]

/-! `TriggerDMA`. -/
@[simp] theorem triggerDma_vcount (tm : BitVec 2) (t : State) : ((triggerDma tm t).1).vcount = t.vcount := by simp [triggerDma]
@[simp] theorem triggerDma_keyinput (tm : BitVec 2) (t : State) : ((triggerDma tm t).1).keyinput = t.keyinput := by simp [triggerDma]
@[simp] theorem triggerDma_vec (tm : BitVec 2) (t : State) : ((triggerDma tm t).1).vec = t.vec := by simp [triggerDma]
@[simp] theorem triggerDma_keys (tm : BitVec 2) (t : State) : ((triggerDma tm t).1).keys = t.keys := by simp [triggerDma]
@[simp] theorem triggerDma_inService (tm : BitVec 2) (t : State) : ((triggerDma tm t).1).inService = t.inService := by simp [triggerDma]
@[simp] theorem triggerDma_waiting (tm : BitVec 2) (t : State) : ((triggerDma tm t).1).waiting = t.waiting := by simp [triggerDma]
@[simp] theorem triggerDma_halted (tm : BitVec 2) (t : State) : ((triggerDma tm t).1).halted = t.halted := by simp [triggerDma]
@[simp] theorem triggerDma_kpLinePrev (tm : BitVec 2) (t : State) : ((triggerDma tm t).1).kpLinePrev = t.kpLinePrev := by simp [triggerDma]
@[simp] theorem triggerDma_out (tm : BitVec 2) (t : State) : ((triggerDma tm t).1).out = t.out := by simp [triggerDma]
@[simp] theorem triggerDma_pending (tm : BitVec 2) (t : State) : ((triggerDma tm t).1).pending = t.pending := by simp [triggerDma]
@[simp] theorem triggerDma_conf (tm : BitVec 2) (t : State) : ((triggerDma tm t).1).conf = t.conf := by simp [triggerDma]

/-! A processor's store leaves all but `Mem`. -/
@[simp] theorem cpuStoreByte_ime (a : Word) (v : Byte) (t : State) : (cpuStoreByte a v t).ime = t.ime := by unfold cpuStoreByte; split <;> simp
@[simp] theorem cpuStoreByte_ie (a : Word) (v : Byte) (t : State) : (cpuStoreByte a v t).ie = t.ie := by unfold cpuStoreByte; split <;> simp
@[simp] theorem cpuStoreByte_iflag (a : Word) (v : Byte) (t : State) : (cpuStoreByte a v t).iflag = t.iflag := by unfold cpuStoreByte; split <;> simp
@[simp] theorem cpuStoreByte_dispstat (a : Word) (v : Byte) (t : State) : (cpuStoreByte a v t).dispstat = t.dispstat := by unfold cpuStoreByte; split <;> simp
@[simp] theorem cpuStoreByte_vcount (a : Word) (v : Byte) (t : State) : (cpuStoreByte a v t).vcount = t.vcount := by unfold cpuStoreByte; split <;> simp
@[simp] theorem cpuStoreByte_keyinput (a : Word) (v : Byte) (t : State) : (cpuStoreByte a v t).keyinput = t.keyinput := by unfold cpuStoreByte; split <;> simp
@[simp] theorem cpuStoreByte_keycnt (a : Word) (v : Byte) (t : State) : (cpuStoreByte a v t).keycnt = t.keycnt := by unfold cpuStoreByte; split <;> simp
@[simp] theorem cpuStoreByte_dma (a : Word) (v : Byte) (t : State) : (cpuStoreByte a v t).dma = t.dma := by unfold cpuStoreByte; split <;> simp
@[simp] theorem cpuStoreByte_vec (a : Word) (v : Byte) (t : State) : (cpuStoreByte a v t).vec = t.vec := by unfold cpuStoreByte; split <;> simp
@[simp] theorem cpuStoreByte_keys (a : Word) (v : Byte) (t : State) : (cpuStoreByte a v t).keys = t.keys := by unfold cpuStoreByte; split <;> simp
@[simp] theorem cpuStoreByte_inService (a : Word) (v : Byte) (t : State) : (cpuStoreByte a v t).inService = t.inService := by unfold cpuStoreByte; split <;> simp
@[simp] theorem cpuStoreByte_waiting (a : Word) (v : Byte) (t : State) : (cpuStoreByte a v t).waiting = t.waiting := by unfold cpuStoreByte; split <;> simp
@[simp] theorem cpuStoreByte_halted (a : Word) (v : Byte) (t : State) : (cpuStoreByte a v t).halted = t.halted := by unfold cpuStoreByte; split <;> simp
@[simp] theorem cpuStoreByte_kpLinePrev (a : Word) (v : Byte) (t : State) : (cpuStoreByte a v t).kpLinePrev = t.kpLinePrev := by unfold cpuStoreByte; split <;> simp
@[simp] theorem cpuStoreByte_out (a : Word) (v : Byte) (t : State) : (cpuStoreByte a v t).out = t.out := by unfold cpuStoreByte; split <;> simp
@[simp] theorem cpuStoreByte_pending (a : Word) (v : Byte) (t : State) : (cpuStoreByte a v t).pending = t.pending := by unfold cpuStoreByte; split <;> simp
@[simp] theorem cpuStoreByte_conf (a : Word) (v : Byte) (t : State) : (cpuStoreByte a v t).conf = t.conf := by unfold cpuStoreByte; split <;> simp
@[simp] theorem cpuStoreByte_drawCount (a : Word) (v : Byte) (t : State) : (cpuStoreByte a v t).drawCount = t.drawCount := by unfold cpuStoreByte; split <;> simp

end Sys2Proof.Machine
end

