-- ==== Sys2Proof/Laws/Ops.lean ====
section
/-! SUPPORT. What each shared operation can do, said once: the dispatch decision, the keypad epilogue, the end of a frame,
the acceptance of an input, a step; and that every memory operation keeps the canonical form. -/

namespace Sys2Proof.Machine

/-! ## The dispatch decision -/

theorem lineOn_latch (s r : Source) (t : State) : lineOn r (latch s t) = lineOn r t := by
  simp [lineOn]

/-- The pending latch decides nothing. -/
@[simp] theorem takes_latch (s r : Source) (t : State) : takes r (latch s t) = takes r t := by
  simp [takes, lineOn_latch]

/-- A taken event has its line asserted. -/
theorem lineOn_of_takes {s : Source} {t : State} (h : takes s t = true) : lineOn s t = true := by
  simp only [takes, Bool.and_eq_true] at h
  exact h.1.2

theorem dispatch_lost {s : Source} {t : State} (h : takes s t = false) : dispatch s t = (latch s t, false) := by
  simp [dispatch, h]

theorem dispatch_invoked {s : Source} {t : State} {h : Word} (ht : takes s t = true) (hv : t.vec[s] = some h) :
    dispatch s t = (enterHandler s h (latch s t), true) := by
  simp only [dispatch, takes_latch, ht, if_true, latch_vec, hv]

theorem dispatch_absent {s : Source} {t : State} (ht : takes s t = true) (hv : t.vec[s] = none) :
    dispatch s t = (wakeIfWaiting s (latch s t), false) := by
  simp only [dispatch, takes_latch, ht, if_true, latch_vec, hv]

/-- Everything `Dispatch` can do: lose the event, invoke the handler, or find none. -/
theorem dispatch_cases (s : Source) (t : State) :
    (takes s t = false ∧ dispatch s t = (latch s t, false)) ∨
    (takes s t = true ∧ ∃ h, t.vec[s] = some h ∧ dispatch s t = (enterHandler s h (latch s t), true)) ∨
    (takes s t = true ∧ t.vec[s] = none ∧ dispatch s t = (wakeIfWaiting s (latch s t), false)) := by
  cases ht : takes s t with
  | false => exact .inl ⟨rfl, dispatch_lost ht⟩
  | true =>
    cases hv : t.vec[s] with
    | none => exact .inr (.inr ⟨rfl, rfl, dispatch_absent ht hv⟩)
    | some h => exact .inr (.inl ⟨rfl, h, rfl, dispatch_invoked ht hv⟩)

/-! ## The keypad epilogue -/

/-- The keypad line reads KEYCNT and KEYINPUT alone. -/
theorem keypadLine_congr {t u : State} (hc : u.keycnt = t.keycnt) (hi : u.keyinput = t.keyinput) :
    keypadLine u = keypadLine t := by
  simp only [keypadLine, hc, hi]

/-- Being settled depends on the edge memory, KEYCNT and KEYINPUT alone. -/
theorem KeypadSettled.of_eq {t u : State} (h : KeypadSettled t) (hp : u.kpLinePrev = t.kpLinePrev)
    (hc : u.keycnt = t.keycnt) (hi : u.keyinput = t.keyinput) : KeypadSettled u := by
  unfold KeypadSettled at h ⊢
  rw [hp, keypadLine_congr hc hi]
  exact h

/-- With no edge the epilogue does nothing but remember the line. -/
theorem keypadEpilogue_no_edge {t : State} (h : keypadLine t = false ∨ t.kpLinePrev = true) :
    keypadEpilogue t = t.setKpLinePrev (keypadLine t) := by
  unfold keypadEpilogue
  rcases h with h | h <;> simp [h]

/-- On a rising edge the epilogue dispatches the Keypad source. -/
theorem keypadEpilogue_edge {t : State} (h : keypadLine t = true) (hp : t.kpLinePrev = false) :
    keypadEpilogue t = (dispatch (srcKeypad t.conf) t).1.setKpLinePrev true := by
  unfold keypadEpilogue
  simp [h, hp]

/-- On a settled state the epilogue changes nothing. -/
theorem keypadEpilogue_settled {t : State} (h : KeypadSettled t) : keypadEpilogue t = t := by
  unfold KeypadSettled at h
  rw [keypadEpilogue_no_edge]
  · rw [← h]; rfl
  · cases hl : keypadLine t with
    | false => exact .inl rfl
    | true => exact .inr (h.trans hl)

theorem keypadEpilogue_kpLinePrev (t : State) : (keypadEpilogue t).kpLinePrev = keypadLine t := by
  unfold keypadEpilogue; simp

/-- After the epilogue the state is settled. -/
theorem keypadEpilogue_leaves_settled (t : State) : KeypadSettled (keypadEpilogue t) := by
  unfold KeypadSettled
  rw [keypadEpilogue_kpLinePrev]
  exact (keypadLine_congr (by simp) (by simp)).symm

theorem respond_settled {t : State} (h : KeypadSettled t) (c : ResultCode) (d : Half) :
    respond c d t = emit (.resp c d) t := by
  simp only [respond, keypadEpilogue_settled h]

theorem rejectFrame_settled {t : State} (h : KeypadSettled t) (c : ResultCode) :
    rejectFrame c t = .next (emit (.resp c 0) t) := by
  simp only [rejectFrame, respond_settled h]

/-! ## The end of a frame -/

/-- A frame ends in a next state by completing, silently completing or being rejected. -/
theorem finish_next {t u : State} {b : Body} (h : finish t b = .next u) :
    (∃ d t', b = .done d t' ∧ u = respond .ok d t') ∨ (∃ t', b = .silent t' ∧ u = keypadEpilogue t') ∨
    (∃ c, b = .reject c ∧ u = respond c 0 t) := by
  cases b with
  | done d t' => exact .inl ⟨d, t', rfl, (Host.Outcome.next.inj h).symm⟩
  | silent t' => exact .inr (.inl ⟨t', rfl, (Host.Outcome.next.inj h).symm⟩)
  | reject c => exact .inr (.inr ⟨c, rfl, (Host.Outcome.next.inj h).symm⟩)
  | refuse r => cases h

theorem finish_ne_fault (t : State) (b : Body) (f : Fault) : finish t b ≠ .fault f := by
  cases b <;> simp [finish, rejectFrame]

theorem finish_refused_iff {t : State} {b : Body} {r : Refusal} : finish t b = .refused r ↔ b = .refuse r := by
  cases b <;> simp [finish, rejectFrame]

/-- What the epilogue and the response keep, a frame keeps when its body keeps it. -/
theorem finish_keeps {P : State → Prop} (hep : ∀ x, P x → P (keypadEpilogue x)) (hem : ∀ r x, P x → P (emit r x))
    {t u : State} {b : Body} (ht : P t) (hd : ∀ d t', b = .done d t' → P t') (hs : ∀ t', b = .silent t' → P t')
    (h : finish t b = .next u) : P u := by
  rcases finish_next h with ⟨d, t', hb, rfl⟩ | ⟨t', hb, rfl⟩ | ⟨c, hb, rfl⟩
  · exact hem _ _ (hep _ (hd d t' hb))
  · exact hep _ (hs t' hb)
  · exact hem _ _ (hep _ ht)

/-- Every operation is a body met by the end of a frame. -/
theorem exec_eq_finish (i : Instr) (s : State) : ∃ b, exec i s = finish s b := by
  cases i <;> simp only [exec, execIrqInit] <;> exact ⟨_, rfl⟩

/-! ## The canonical form of `Mem` -/

theorem pokeByte_wf {t : State} (h : t.mem.wf = true) (a : Word) (v : Byte) : (pokeByte a v t).mem.wf = true :=
  Memory.write_wf h a.isLt v

theorem pokeHalf_wf {t : State} (h : t.mem.wf = true) (a : Word) (v : Half) : (pokeHalf a v t).mem.wf = true :=
  pokeByte_wf (pokeByte_wf h _ _) _ _

theorem pokeWord_wf {t : State} (h : t.mem.wf = true) (a v : Word) : (pokeWord a v t).mem.wf = true :=
  pokeHalf_wf (pokeHalf_wf h _ _) _ _

theorem memWrite16_wf {t : State} (h : t.mem.wf = true) (a : Word) (v : Half) : (memWrite16 a v t).mem.wf = true := by
  unfold memWrite16
  split
  · simpa using h
  · split
    · exact h
    · exact pokeHalf_wf h a v

theorem memWrite32_wf {t : State} (h : t.mem.wf = true) (a v : Word) : (memWrite32 a v t).mem.wf = true :=
  memWrite16_wf (memWrite16_wf h _ _) _ _

theorem memWrite8_wf {t u : State} (h : t.mem.wf = true) {a : Word} {v : Byte} (hu : memWrite8 a v t = some u) :
    u.mem.wf = true := by
  unfold memWrite8 at hu
  split at hu
  · cases hu
  · split at hu
    · cases hu; exact h
    · cases hu; exact pokeByte_wf h a v

theorem dmaWrite_wf {t : State} (h : t.mem.wf = true) (a : Word) (u : Bool) (v : Word) :
    (dmaWrite a u v t).mem.wf = true := by
  unfold dmaWrite
  dsimp only
  have hd : (drawValue t).2.mem.wf = true := by simpa using h
  split
  · split
    · exact pokeWord_wf hd _ _
    · exact pokeHalf_wf hd _ _
  · split
    · exact memWrite32_wf h _ _
    · exact memWrite16_wf h _ _

theorem burstUnit_wf {t : State} (h : t.mem.wf = true) (ch : Channel) (fill : Option Word) (c : Half) :
    (burstUnit ch fill c t).mem.wf = true := by
  unfold burstUnit
  cases fill <;> exact dmaWrite_wf (by simpa using h) _ _ _

theorem burstUnits_wf (ch : Channel) (fill : Option Word) (c : Half) (n : Nat) {t : State} (h : t.mem.wf = true) :
    (burstUnits ch fill c n t).mem.wf = true := by
  induction n generalizing t with
  | zero => exact h
  | succ n ih => exact ih (burstUnit_wf h ch fill c)

theorem burst_wf {t : State} (h : t.mem.wf = true) (ch : Channel) (fill : Option Word) :
    (burst ch fill t).1.mem.wf = true :=
  burstUnits_wf ch fill _ _ h

theorem triggerChannels_wf (tm : BitVec 2) (l : List Channel) {t : State} (h : t.mem.wf = true) :
    (triggerChannels tm l t).1.mem.wf = true := by
  induction l generalizing t with
  | nil => exact h
  | cons ch rest ih =>
    unfold triggerChannels
    dsimp only
    split
    · exact ih (burst_wf h ch none)
    · exact ih h

theorem triggerDma_wf {t : State} (h : t.mem.wf = true) (tm : BitVec 2) : (triggerDma tm t).1.mem.wf = true :=
  triggerChannels_wf tm channels h

theorem copyBytes_wf (n : Nat) {t u : State} (h : t.mem.wf = true) {d p : Word} (hu : copyBytes n d p t = some u) :
    u.mem.wf = true := by
  induction n generalizing t d p with
  | zero => cases hu; exact h
  | succ n ih =>
    unfold copyBytes at hu
    split at hu
    · cases hu
    · split at hu
      · cases hu
      · next b _ t' ht' => exact ih (memWrite8_wf h ht') hu

theorem cpuStoreByte_wf {t : State} (h : t.mem.wf = true) (a : Word) (v : Byte) :
    (cpuStoreByte a v t).mem.wf = true := by
  unfold cpuStoreByte
  split
  · exact h
  · exact pokeByte_wf h a v

/-! ## The storage copy -/

theorem memWrite8_eq {t u : State} {a : Word} {v : Byte} (h : memWrite8 a v t = some u) : u = t.setMem u.mem := by
  unfold memWrite8 at h
  split at h
  · cases h
  · split at h <;> cases h <;> rfl

theorem memWrite8_conf {t u : State} {a : Word} {v : Byte} (h : memWrite8 a v t = some u) : u.conf = t.conf := by
  rw [memWrite8_eq h]; rfl

/-- A storage copy changes `Mem` alone. -/
theorem copyBytes_eq (n : Nat) {t u : State} {d p : Word} (h : copyBytes n d p t = some u) : u = t.setMem u.mem := by
  induction n generalizing t d p with
  | zero => cases h; rfl
  | succ n ih =>
    unfold copyBytes at h
    split at h
    · cases h
    · split at h
      · cases h
      · next b _ t' ht' =>
        have h1 := ih h
        rw [memWrite8_eq ht'] at h1
        exact h1

/-! ## Inputs and steps -/

theorem takeInput_free (x : Input) (rest : List Input) : takeInput false (x :: rest) = some (x, rest) := by
  simp [takeInput]

theorem takeInput_pass (x : Input) (rest : List Input) (h : x.fromApp = false) (held : Bool) :
    takeInput held (x :: rest) = some (x, rest) := by
  simp [takeInput, h]

/-- What a step that answers a next state has done: nothing, a processor's store, a rejection at the decode checks, or
`exec` of the decoded operation of the right class. -/
theorem step_cases {s t : State} (h : step s = .next t) :
    (takeInput (appHeld s) s.pending = none ∧ s.halted = false ∧ t = s) ∨
    (∃ a v left, takeInput (appHeld s) s.pending = some (.cpuStore a v, left) ∧
      t = cpuStoreByte a v (s.setPending left)) ∨
    (∃ who fr left code, takeInput (appHeld s) s.pending = some (.frame who fr, left) ∧
      (code = .illegal ∨ code = .halted) ∧ t = respond code 0 (s.setPending left)) ∨
    (∃ who fr left i, takeInput (appHeld s) s.pending = some (.frame who fr, left) ∧ decode fr = .ok i ∧
      classOf i = who ∧ (who = .app → s.halted = false) ∧ exec i (s.setPending left) = .next t) := by
  unfold step stepInput at h
  split at h
  · next hn =>
    unfold idle at h
    split at h
    · cases h
    · next hh =>
      cases h
      exact .inl ⟨hn, by simpa using hh, rfl⟩
  · next x left hx =>
    unfold acceptInput at h
    split at h
    · next who fr =>
      unfold acceptFrame at h
      split at h
      · cases h
        exact .inr (.inr (.inl ⟨who, fr, left, .illegal, hx, .inl rfl, rfl⟩))
      · next i hi =>
        split at h
        · cases h
          exact .inr (.inr (.inl ⟨who, fr, left, .illegal, hx, .inl rfl, rfl⟩))
        · next hc =>
          split at h
          · cases h
            exact .inr (.inr (.inl ⟨who, fr, left, .halted, hx, .inr rfl, rfl⟩))
          · next hh =>
            refine .inr (.inr (.inr ⟨who, fr, left, i, hx, hi, by simpa using hc, fun hw => ?_, h⟩))
            simpa [hw] using hh
    · next a v =>
      cases h
      exact .inr (.inl ⟨a, v, left, hx, rfl⟩)

/-- An APP input is accepted only while the port is not held. -/
theorem takeInput_app {held : Bool} {l left : List Input} {fr : Frame}
    (h : takeInput held l = some (.frame .app fr, left)) : held = false := by
  induction l generalizing left with
  | nil => cases h
  | cons x rest ih =>
    unfold takeInput at h
    split at h
    · split at h
      · cases h
      · next y l' hy =>
        cases h
        exact ih hy
    · next hx =>
      cases h
      simpa [Input.fromApp] using hx

end Sys2Proof.Machine
end

