-- ==== Sys2Proof/Laws/Bursts.lean ====
section
/-! SUPPORT. What a DMA unit, a burst and a trigger do to the bytes of `Mem` and to the channel records, said once. -/

namespace Sys2Proof.Machine

/-! ## Vectors indexed by a channel or a source -/

theorem dma_set_same (v : Vector DmaChannel 4) (ch : Channel) (d : DmaChannel) : (v.set ch d)[ch] = d := by
  simp

theorem dma_set_other (v : Vector DmaChannel 4) {ch o : Channel} (d : DmaChannel) (h : o ≠ ch) :
    (v.set ch d)[o] = v[o] := by
  have h' : ch.val ≠ o.val := fun he => h (Fin.ext he.symm)
  simp [h']

theorem setChannel_same (t : State) (ch : Channel) (d : DmaChannel) : (t.setChannel ch d).dma[ch] = d :=
  dma_set_same _ _ _

theorem setChannel_other (t : State) {ch o : Channel} (d : DmaChannel) (h : o ≠ ch) :
    (t.setChannel ch d).dma[o] = t.dma[o] :=
  dma_set_other _ _ h

/-! ## Bytes a unit does not store to -/

/-- `readByte` reads `Mem` alone. -/
theorem readByte_congr {t u : State} (h : u.mem = t.mem) (x : Word) : readByte u x = readByte t x := by
  simp only [readByte, h]

theorem readByte_pokeByte_ne {a x : Word} (h : x ≠ a) (v : Byte) (t : State) :
    readByte (pokeByte a v t) x = readByte t x :=
  Memory.read_write_ne _ _ _ _ (fun he => h (BitVec.eq_of_toNat_eq he.symm))

theorem readByte_pokeHalf_ne {a x : Word} (h0 : x ≠ a) (h1 : x ≠ a + 1) (v : Half) (t : State) :
    readByte (pokeHalf a v t) x = readByte t x := by
  unfold pokeHalf
  rw [readByte_pokeByte_ne h1, readByte_pokeByte_ne h0]

theorem readByte_memWrite16_ne {a x : Word} (h0 : x ≠ a) (h1 : x ≠ a + 1) (v : Half) (t : State) :
    readByte (memWrite16 a v t) x = readByte t x := by
  unfold memWrite16
  split
  · exact readByte_congr (by simp) x
  · split
    · rfl
    · exact readByte_pokeHalf_ne h0 h1 v t

/-- `x` is none of the bytes of the unit at `a`. -/
def OffUnit (u32 : Bool) (a x : Word) : Prop := ∀ j, j < (unitBytes u32).toNat → x ≠ a + BitVec.ofNat 32 j

theorem OffUnit.half {a x : Word} (h : OffUnit false a x) : x ≠ a ∧ x ≠ a + 1 :=
  ⟨by simpa using h 0 (by decide), h 1 (by decide)⟩

theorem OffUnit.word {a x : Word} (h : OffUnit true a x) : (x ≠ a ∧ x ≠ a + 1) ∧ x ≠ a + 2 ∧ x ≠ a + 2 + 1 := by
  refine ⟨⟨by simpa using h 0 (by decide), h 1 (by decide)⟩, h 2 (by decide), ?_⟩
  rw [BitVec.add_assoc]
  exact h 3 (by decide)

/-- A unit leaves every other byte as it was. -/
theorem readByte_dmaWrite_ne {u32 : Bool} {a x : Word} (h : OffUnit u32 a x) (v : Word) (t : State) :
    readByte (dmaWrite a u32 v t) x = readByte t x := by
  unfold dmaWrite
  dsimp only
  cases u32 with
  | false =>
    obtain ⟨h0, h1⟩ := h.half
    split
    · simp only [Bool.false_eq_true, if_false]
      rw [readByte_pokeHalf_ne h0 h1]
      exact readByte_congr (by simp) x
    · exact readByte_memWrite16_ne h0 h1 _ _
  | true =>
    obtain ⟨⟨h0, h1⟩, h2, h3⟩ := h.word
    split
    · simp only [if_true, pokeWord]
      rw [readByte_pokeHalf_ne h2 h3, readByte_pokeHalf_ne h0 h1]
      exact readByte_congr (by simp) x
    · simp only [if_true, memWrite32]
      rw [readByte_memWrite16_ne h2 h3, readByte_memWrite16_ne h0 h1]

/-! ## A unit of a burst -/

/-- The value a unit moves and the state its read leaves. -/
def unitValue (ch : Channel) (fill : Option Word) (c : Half) (t : State) : Word × State :=
  match fill with
  | some x => (x, t)
  | none => dmaRead ch t.dma[ch].wsrc (ctrlU32 c) t

theorem burstUnit_eq (ch : Channel) (fill : Option Word) (c : Half) (t : State) :
    burstUnit ch fill c t =
      (dmaWrite t.dma[ch].wdst (ctrlU32 c) (unitValue ch fill c t).1 (unitValue ch fill c t).2).setChannel ch
        (t.dma[ch].advance c) := by
  cases fill <;> simp [burstUnit, unitValue]

/-- The channel records after a unit. -/
theorem burstUnit_dma (ch : Channel) (fill : Option Word) (c : Half) (t : State) :
    (burstUnit ch fill c t).dma = t.dma.set ch (t.dma[ch].advance c) := by
  rw [burstUnit_eq]
  cases fill <;> simp [unitValue, State.setChannel]

theorem readByte_burstUnit_ne (ch : Channel) (fill : Option Word) (c : Half) (t : State) {x : Word}
    (h : OffUnit (ctrlU32 c) t.dma[ch].wdst x) : readByte (burstUnit ch fill c t) x = readByte t x := by
  rw [burstUnit_eq]
  rw [readByte_congr (State.setChannel_mem _ _ _), readByte_dmaWrite_ne h]
  cases fill
  · exact readByte_congr (by simp [unitValue]) x
  · rfl

/-! ## What a burst keeps

A property kept by a register write, by a byte of `Mem`, by a draw and by a new channel record is kept by a burst and by
the triggers of an edge. -/

/-- A property the building blocks of a burst keep. -/
structure KeptByUnits (P : State → Prop) : Prop where
  reg  : ∀ r d x, P x → P (regWrite r d x)
  poke : ∀ a v x, P x → P (pokeByte a v x)
  draw : ∀ x, P x → P (drawValue x).2
  chan : ∀ ch d x, P x → P (x.setChannel ch d)

theorem KeptByUnits.pokeHalf {P : State → Prop} (k : KeptByUnits P) (a : Word) (v : Half) {t : State} (h : P t) :
    P (pokeHalf a v t) := k.poke _ _ _ (k.poke _ _ _ h)

theorem KeptByUnits.memWrite16 {P : State → Prop} (k : KeptByUnits P) (a : Word) (v : Half) {t : State} (h : P t) :
    P (memWrite16 a v t) := by
  unfold Sys2Proof.Machine.memWrite16
  split
  · exact k.reg _ _ _ h
  · split
    · exact h
    · exact k.pokeHalf _ _ h

theorem KeptByUnits.dmaWrite {P : State → Prop} (k : KeptByUnits P) (a : Word) (u : Bool) (v : Word) {t : State}
    (h : P t) : P (dmaWrite a u v t) := by
  unfold Sys2Proof.Machine.dmaWrite
  dsimp only
  split
  · split
    · exact k.pokeHalf _ _ (k.pokeHalf _ _ (k.draw _ h))
    · exact k.pokeHalf _ _ (k.draw _ h)
  · split
    · exact k.memWrite16 _ _ (k.memWrite16 _ _ h)
    · exact k.memWrite16 _ _ h

theorem KeptByUnits.regRead {P : State → Prop} (k : KeptByUnits P) (r : Reg) {t : State} (h : P t) :
    P (regRead r t).2 := by
  cases r <;> first | exact h | exact k.draw _ h

theorem KeptByUnits.memRead16 {P : State → Prop} (k : KeptByUnits P) (a : Word) {t : State} (h : P t) :
    P (memRead16 a t).2 := by
  unfold Sys2Proof.Machine.memRead16
  split
  · exact k.regRead _ h
  · exact h

theorem KeptByUnits.dmaRead {P : State → Prop} (k : KeptByUnits P) (ch : Channel) (a : Word) (u : Bool) {t : State}
    (h : P t) : P (dmaRead ch a u t).2 := by
  unfold Sys2Proof.Machine.dmaRead
  split
  · exact k.draw _ h
  · split
    · exact k.draw _ h
    · split
      · exact k.memRead16 _ (k.memRead16 _ h)
      · exact k.memRead16 _ h

theorem KeptByUnits.burstUnit {P : State → Prop} (k : KeptByUnits P) (ch : Channel) (fill : Option Word) (c : Half)
    {t : State} (h : P t) : P (burstUnit ch fill c t) := by
  rw [burstUnit_eq]
  refine k.chan _ _ _ (k.dmaWrite _ _ _ ?_)
  cases fill with
  | none => exact k.dmaRead _ _ _ h
  | some x => exact h

theorem KeptByUnits.burst {P : State → Prop} (k : KeptByUnits P) (ch : Channel) (fill : Option Word) {t : State}
    (h : P t) : P (burst ch fill t).1 := by
  have hu (c : Half) (n : Nat) (x : State) (hx : P x) : P (burstUnits ch fill c n x) := by
    induction n generalizing x with
    | zero => exact hx
    | succ n ih => exact ih _ (k.burstUnit ch fill c hx)
  exact k.chan _ _ _ (hu _ _ _ h)

theorem KeptByUnits.triggerChannels {P : State → Prop} (k : KeptByUnits P) (tm : BitVec 2) (l : List Channel)
    {t : State} (h : P t) : P (triggerChannels tm l t).1 := by
  induction l generalizing t with
  | nil => exact h
  | cons ch rest ih =>
    unfold Sys2Proof.Machine.triggerChannels
    dsimp only
    split
    · exact ih (k.burst ch none h)
    · exact ih h

/-! ## A burst -/

/-- The channel's own record after `n` units: each address has moved `n` steps. -/
theorem burstUnits_channel (ch : Channel) (fill : Option Word) (c : Half) (n : Nat) (t : State) :
    (burstUnits ch fill c n t).dma[ch] = { t.dma[ch] with
      wsrc := t.dma[ch].wsrc + BitVec.ofNat 32 n * srcStep c
      wdst := t.dma[ch].wdst + BitVec.ofNat 32 n * dstStep c } := by
  induction n generalizing t with
  | zero => simp [burstUnits]
  | succ n ih =>
    have hn : BitVec.ofNat 32 (n + 1) = BitVec.ofNat 32 n + 1 := by
      apply BitVec.eq_of_toNat_eq; simp
    have hs (x y : Word) : x + y + BitVec.ofNat 32 n * y = x + (BitVec.ofNat 32 n + 1) * y := by ring
    rw [burstUnits, ih]
    dsimp only
    rw [burstUnit_dma, dma_set_same, hn]
    simp only [DmaChannel.advance, hs]

theorem burstUnits_other {ch o : Channel} (h : o ≠ ch) (fill : Option Word) (c : Half) (n : Nat) (t : State) :
    (burstUnits ch fill c n t).dma[o] = t.dma[o] := by
  induction n generalizing t with
  | zero => rfl
  | succ n ih => rw [burstUnits, ih, burstUnit_dma, dma_set_other _ _ h]

/-- The channel's own record after a burst. -/
theorem burst_channel (ch : Channel) (fill : Option Word) (t : State) :
    (burst ch fill t).1.dma[ch] = DmaChannel.endBurst t.dma[ch].ctrl { t.dma[ch] with
      wsrc := t.dma[ch].wsrc + t.dma[ch].cnt * srcStep t.dma[ch].ctrl
      wdst := t.dma[ch].wdst + t.dma[ch].cnt * dstStep t.dma[ch].ctrl } := by
  unfold burst
  dsimp only
  rw [setChannel_same, burstUnits_channel]
  simp

/-- A burst touches no other channel's record. -/
theorem burst_other {ch o : Channel} (h : o ≠ ch) (fill : Option Word) (t : State) :
    (burst ch fill t).1.dma[o] = t.dma[o] := by
  unfold burst
  dsimp only
  rw [setChannel_other _ _ h, burstUnits_other h]

/-- Units store only to the bytes from the working destination on. -/
theorem readByte_burstUnits_ne (ch : Channel) (fill : Option Word) (c : Half) (n : Nat) (t : State) {x : Word}
    (h : ∀ k, k < n → OffUnit (ctrlU32 c) (t.dma[ch].wdst + BitVec.ofNat 32 k * dstStep c) x) :
    readByte (burstUnits ch fill c n t) x = readByte t x := by
  induction n generalizing t with
  | zero => rfl
  | succ n ih =>
    simp only [burstUnits]
    rw [ih]
    · exact readByte_burstUnit_ne ch fill c t (by simpa using h 0 (by omega))
    · intro k hk
      have hk' := h (k + 1) (by omega)
      have hn : BitVec.ofNat 32 (k + 1) = BitVec.ofNat 32 k + 1 := by
        apply BitVec.eq_of_toNat_eq; simp
      rw [hn] at hk'
      rw [burstUnit_dma, dma_set_same]
      have he : t.dma[ch].wdst + dstStep c + BitVec.ofNat 32 k * dstStep c =
          t.dma[ch].wdst + (BitVec.ofNat 32 k + 1) * dstStep c := by ring
      simp only [DmaChannel.advance]
      rw [he]
      exact hk'

/-- A byte the channel's span does not cover is off each of its units. -/
theorem DmaChannel.offUnit_of_not_covers {d : DmaChannel} {x : Word} (h : ¬ d.covers x) {k : Nat}
    (hk : k < d.cnt.toNat) : OffUnit (ctrlU32 d.ctrl) (d.wdst + BitVec.ofNat 32 k * dstStep d.ctrl) x := by
  intro j hj he
  apply h
  unfold dstStep at he
  by_cases hd : ctrlDm d.ctrl = 2
  · refine ⟨j, ?_, ?_⟩
    · simp only [DmaChannel.span, hd, if_true]
      have : min d.cnt.toNat 1 = 1 := by omega
      rw [this]; omega
    · simpa [hd] using he
  · refine ⟨(unitBytes (ctrlU32 d.ctrl)).toNat * k + j, ?_, ?_⟩
    · simp only [DmaChannel.span, hd, if_false]
      calc (unitBytes (ctrlU32 d.ctrl)).toNat * k + j < (unitBytes (ctrlU32 d.ctrl)).toNat * k + (unitBytes (ctrlU32 d.ctrl)).toNat := by omega
        _ = (unitBytes (ctrlU32 d.ctrl)).toNat * (k + 1) := by ring
        _ ≤ _ := Nat.mul_le_mul_left _ hk
    · simp only [hd, if_false] at he
      rw [he, BitVec.add_assoc]
      congr 1
      apply BitVec.eq_of_toNat_eq
      simp [Nat.mul_comm]

/-- A burst stores only to the bytes its channel covers. -/
theorem readByte_burst_ne (ch : Channel) (fill : Option Word) (t : State) {x : Word} (h : ¬ t.dma[ch].covers x) :
    readByte (burst ch fill t).1 x = readByte t x := by
  unfold burst
  rw [readByte_congr (State.setChannel_mem _ _ _)]
  exact readByte_burstUnits_ne ch fill _ _ t (fun k hk => DmaChannel.offUnit_of_not_covers h hk)

/-! ## The triggers of an edge -/

/-- A channel that is not triggered keeps its record. -/
theorem triggerChannels_other (tm : BitVec 2) (l : List Channel) (t : State) {o : Channel}
    (h : ¬ t.dma[o].armedFor tm ∨ o ∉ l) : (triggerChannels tm l t).1.dma[o] = t.dma[o] := by
  induction l generalizing t with
  | nil => rfl
  | cons ch rest ih =>
    unfold triggerChannels
    dsimp only
    split
    · next ha =>
      have hne : o ≠ ch := by
        rintro rfl
        rcases h with h | h
        · exact h ha
        · exact h (by simp)
      rw [ih, burst_other hne]
      rw [burst_other hne]
      rcases h with h | h
      · exact .inl h
      · exact .inr (fun hm => h (by simp [hm]))
    · apply ih
      rcases h with h | h
      · exact .inl h
      · exact .inr (fun hm => h (by simp [hm]))

/-- Triggers store only to the bytes the triggered channels cover. -/
theorem readByte_triggerChannels_ne (tm : BitVec 2) (l : List Channel) (hl : l.Nodup) (t : State) {x : Word}
    (h : ∀ ch ∈ l, t.dma[ch].armedFor tm → ¬ t.dma[ch].covers x) :
    readByte (triggerChannels tm l t).1 x = readByte t x := by
  induction l generalizing t with
  | nil => rfl
  | cons ch rest ih =>
    rw [List.nodup_cons] at hl
    unfold triggerChannels
    dsimp only
    split
    · next ha =>
      rw [ih hl.2]
      · exact readByte_burst_ne ch none t (h ch (by simp) ha)
      · intro o ho
        have hne : o ≠ ch := by rintro rfl; exact hl.1 ho
        rw [burst_other hne]
        exact h o (by simp [ho])
    · exact ih hl.2 t (fun o ho => h o (by simp [ho]))

theorem channels_nodup : channels.Nodup := by decide

/-- Whether an end-of-transfer event is due is the IRQ flag of the word the burst started with. -/
theorem burst_due (ch : Channel) (fill : Option Word) (t : State) : (burst ch fill t).2 = ctrlIrq t.dma[ch].ctrl := rfl

theorem triggerChannels_cons_armed {tm : BitVec 2} {ch : Channel} {t : State} (h : t.dma[ch].armedFor tm)
    (rest : List Channel) : triggerChannels tm (ch :: rest) t =
      ((triggerChannels tm rest (burst ch none t).1).1,
        if ctrlIrq t.dma[ch].ctrl then srcDmaEnd t.conf ch :: (triggerChannels tm rest (burst ch none t).1).2
        else (triggerChannels tm rest (burst ch none t).1).2) := by
  rw [← burst_due ch none t]
  exact if_pos h

theorem triggerChannels_cons_idle {tm : BitVec 2} {ch : Channel} {t : State} (h : ¬ t.dma[ch].armedFor tm)
    (rest : List Channel) : triggerChannels tm (ch :: rest) t = triggerChannels tm rest t :=
  if_neg h

/-- The channel is armed with timing `tm` and asks for an end-of-transfer event. -/
def DmaChannel.endDue (tm : BitVec 2) (d : DmaChannel) : Bool := ctrlEn d.ctrl && ctrlTm d.ctrl == tm && ctrlIrq d.ctrl

theorem DmaChannel.endDue_armed {tm : BitVec 2} {d : DmaChannel} (h : d.armedFor tm) : d.endDue tm = ctrlIrq d.ctrl := by
  simp [DmaChannel.endDue, h.1, h.2]

theorem DmaChannel.endDue_idle {tm : BitVec 2} {d : DmaChannel} (h : ¬ d.armedFor tm) : d.endDue tm = false := by
  by_contra hc
  simp only [DmaChannel.endDue, Bool.not_eq_false, Bool.and_eq_true, beq_iff_eq] at hc
  exact h hc.1

/-- The end-of-transfer sources due are those of the armed channels with IRQ = 1, in the list's order. -/
theorem triggerChannels_due (tm : BitVec 2) (l : List Channel) (hl : l.Nodup) (t : State) :
    (triggerChannels tm l t).2 = (l.filter fun ch => t.dma[ch].endDue tm).map (srcDmaEnd t.conf) := by
  induction l generalizing t with
  | nil => rfl
  | cons ch rest ih =>
    rw [List.nodup_cons] at hl
    by_cases ha : t.dma[ch].armedFor tm
    · have hrest : rest.filter (fun o => (burst ch none t).1.dma[o].endDue tm) = rest.filter (fun o => t.dma[o].endDue tm) := by
        apply List.filter_congr
        intro o ho
        have hne : o ≠ ch := by rintro rfl; exact hl.1 ho
        rw [burst_other hne]
      rw [triggerChannels_cons_armed ha, ih hl.2, hrest, List.filter_cons, DmaChannel.endDue_armed ha, burst_conf]
      cases ctrlIrq t.dma[ch].ctrl <;> rfl
    · rw [triggerChannels_cons_idle ha, ih hl.2, List.filter_cons, DmaChannel.endDue_idle ha]
      rfl

/-- The state after the triggers: the bursts of the channels armed beforehand, one after another in the list's order. -/
theorem triggerChannels_state (tm : BitVec 2) (l : List Channel) (hl : l.Nodup) (t : State) :
    (triggerChannels tm l t).1 =
      (l.filter fun ch => ctrlEn t.dma[ch].ctrl && ctrlTm t.dma[ch].ctrl == tm).foldl (fun x ch => (burst ch none x).1) t := by
  induction l generalizing t with
  | nil => rfl
  | cons ch rest ih =>
    rw [List.nodup_cons] at hl
    by_cases ha : t.dma[ch].armedFor tm
    · have hrest : (rest.filter fun o => ctrlEn (burst ch none t).1.dma[o].ctrl &&
          ctrlTm (burst ch none t).1.dma[o].ctrl == tm) =
          rest.filter fun o => ctrlEn t.dma[o].ctrl && ctrlTm t.dma[o].ctrl == tm := by
        apply List.filter_congr
        intro o ho
        have hne : o ≠ ch := by rintro rfl; exact hl.1 ho
        rw [burst_other hne]
      have hb : (ctrlEn t.dma[ch].ctrl && ctrlTm t.dma[ch].ctrl == tm) = true := by
        rw [ha.1, ha.2]; simp
      rw [triggerChannels_cons_armed ha, ih hl.2, hrest, List.filter_cons, if_pos hb, List.foldl_cons]
    · have hb : ¬ (ctrlEn t.dma[ch].ctrl && ctrlTm t.dma[ch].ctrl == tm) = true := by
        simpa [DmaChannel.armedFor] using ha
      rw [triggerChannels_cons_idle ha, ih hl.2, List.filter_cons, if_neg hb]

/-- The record of a channel armed for the edge, after the triggers: its own burst's, from its record beforehand. -/
theorem triggerChannels_armed (tm : BitVec 2) (l : List Channel) (hl : l.Nodup) (t : State) {o : Channel} (ho : o ∈ l)
    (ha : t.dma[o].armedFor tm) : (triggerChannels tm l t).1.dma[o] = (burst o none t).1.dma[o] := by
  induction l generalizing t with
  | nil => cases ho
  | cons ch rest ih =>
    rw [List.nodup_cons] at hl
    by_cases hc : o = ch
    · subst hc
      rw [triggerChannels_cons_armed ha]
      exact triggerChannels_other tm rest _ (.inr hl.1)
    · have hr : o ∈ rest := by simpa [hc] using ho
      by_cases hch : t.dma[ch].armedFor tm
      · rw [triggerChannels_cons_armed hch]
        have hd : (burst ch none t).1.dma[o] = t.dma[o] := burst_other hc none t
        refine (ih hl.2 _ hr (by rw [hd]; exact ha)).trans ?_
        rw [burst_channel, burst_channel, hd]
      · rw [triggerChannels_cons_idle hch]
        exact ih hl.2 t hr ha

/-- With no channel armed for the edge nothing happens. -/
theorem triggerChannels_none (tm : BitVec 2) (l : List Channel) (t : State)
    (h : ∀ ch ∈ l, ¬ t.dma[ch].armedFor tm) : triggerChannels tm l t = (t, []) := by
  induction l with
  | nil => rfl
  | cons ch rest ih =>
    rw [triggerChannels_cons_idle (h ch (by simp))]
    exact ih (fun o ho => h o (by simp [ho]))

/-! ## Registers a burst does not reach -/

/-- The registers a unit can change are as they were. -/
structure SameRegs (t u : State) : Prop where
  ime : u.ime = t.ime
  ie : u.ie = t.ie
  iflag : u.iflag = t.iflag
  dispstat : u.dispstat = t.dispstat
  keycnt : u.keycnt = t.keycnt

theorem SameRegs.trans {a b c : State} (h : SameRegs a b) (g : SameRegs b c) : SameRegs a c :=
  ⟨g.ime.trans h.ime, g.ie.trans h.ie, g.iflag.trans h.iflag, g.dispstat.trans h.dispstat, g.keycnt.trans h.keycnt⟩

theorem sameRegs_memWrite16 {a : Word} {t : State} (h : onRegister t.conf a = false) (v : Half) :
    SameRegs t (memWrite16 a v t) := by
  simp only [onRegister, Bool.or_eq_false_iff, Option.isSome_eq_false_iff, Option.isNone_iff_eq_none] at h
  unfold memWrite16
  rw [h.1]
  dsimp only
  split <;> exact ⟨rfl, rfl, rfl, rfl, rfl⟩

theorem sameRegs_dmaWrite {u32 : Bool} {a : Word} {t : State}
    (h : ∀ j, j < (unitBytes u32).toNat → onRegister t.conf (a + BitVec.ofNat 32 j) = false) (v : Word) :
    SameRegs t (dmaWrite a u32 v t) := by
  have h0 := h 0 (by cases u32 <;> decide)
  simp only [BitVec.add_zero] at h0
  unfold dmaWrite
  dsimp only
  split
  · split <;> exact ⟨by simp, by simp, by simp, by simp, by simp⟩
  · split
    · next hu =>
      subst hu
      exact (sameRegs_memWrite16 h0 _).trans (sameRegs_memWrite16 (by simpa using h 2 (by decide)) _)
    · exact sameRegs_memWrite16 h0 _

theorem sameRegs_burstUnit {ch : Channel} {c : Half} {t : State} (h : ∀ j, j < (unitBytes (ctrlU32 c)).toNat →
    onRegister t.conf (t.dma[ch].wdst + BitVec.ofNat 32 j) = false) (fill : Option Word) :
    SameRegs t (burstUnit ch fill c t) := by
  have hv : SameRegs t (unitValue ch fill c t).2 ∧ (unitValue ch fill c t).2.conf = t.conf := by
    cases fill <;> exact ⟨⟨by simp [unitValue], by simp [unitValue], by simp [unitValue], by simp [unitValue],
      by simp [unitValue]⟩, by simp [unitValue]⟩
  rw [burstUnit_eq]
  exact hv.1.trans ((sameRegs_dmaWrite (by rw [hv.2]; exact h) _).trans ⟨rfl, rfl, rfl, rfl, rfl⟩)

theorem sameRegs_burstUnits {ch : Channel} {c : Half} (n : Nat) {t : State} (h : ∀ k, k < n →
    ∀ j, j < (unitBytes (ctrlU32 c)).toNat →
      onRegister t.conf (t.dma[ch].wdst + BitVec.ofNat 32 k * dstStep c + BitVec.ofNat 32 j) = false)
    (fill : Option Word) : SameRegs t (burstUnits ch fill c n t) := by
  induction n generalizing t with
  | zero => exact ⟨rfl, rfl, rfl, rfl, rfl⟩
  | succ n ih =>
    refine (sameRegs_burstUnit (by simpa using h 0 (by omega)) fill).trans (ih fun k hk j hj => ?_)
    have hn : BitVec.ofNat 32 (k + 1) = BitVec.ofNat 32 k + 1 := by
      apply BitVec.eq_of_toNat_eq; simp
    have he : t.dma[ch].wdst + dstStep c + BitVec.ofNat 32 k * dstStep c =
        t.dma[ch].wdst + (BitVec.ofNat 32 k + 1) * dstStep c := by ring
    rw [burstUnit_conf, burstUnit_dma, dma_set_same]
    simp only [DmaChannel.advance]
    rw [he, ← hn]
    exact h (k + 1) (by omega) j hj

/-- A burst whose channel covers no register byte changes no register. -/
theorem sameRegs_burst {ch : Channel} {t : State} (h : ∀ x, t.dma[ch].covers x → onRegister t.conf x = false)
    (fill : Option Word) : SameRegs t (burst ch fill t).1 :=
  (sameRegs_burstUnits _ (fun _ hk j hj => h _ (by
    by_contra hc; exact DmaChannel.offUnit_of_not_covers hc hk j hj rfl)) fill).trans ⟨rfl, rfl, rfl, rfl, rfl⟩

/-- The triggers of an edge change no register where no triggered channel covers a register byte. -/
theorem sameRegs_triggerChannels (tm : BitVec 2) (l : List Channel) (hl : l.Nodup) {t : State}
    (h : ∀ ch ∈ l, t.dma[ch].armedFor tm → ∀ x, t.dma[ch].covers x → onRegister t.conf x = false) :
    SameRegs t (triggerChannels tm l t).1 := by
  induction l generalizing t with
  | nil => exact ⟨rfl, rfl, rfl, rfl, rfl⟩
  | cons ch rest ih =>
    rw [List.nodup_cons] at hl
    by_cases ha : t.dma[ch].armedFor tm
    · rw [triggerChannels_cons_armed ha]
      refine (sameRegs_burst (h ch (by simp) ha) none).trans (ih hl.2 fun o ho => ?_)
      have hne : o ≠ ch := by rintro rfl; exact hl.1 ho
      rw [burst_other hne, burst_conf]
      exact h o (by simp [ho])
    · rw [triggerChannels_cons_idle ha]
      exact ih hl.2 fun o ho => h o (by simp [ho])

end Sys2Proof.Machine
end

