-- ==== Sys2Proof/Laws/Decode.lean ====
section
/-! SUPPORT. The header fields and the word they make are each other's inverse, and what a mask leaves of a header word. -/

namespace Sys2Proof

/-- Which field a bit of the header word belongs to. -/
theorem headerWord_getLsbD (h : Header) (k : Nat) :
    (headerWord h).getLsbD k = if k < 8 then h.op.getLsbD k else if k < 12 then h.idx.getLsbD (k - 8)
      else if k < 13 then h.f else if k < 16 then h.z.getLsbD (k - 13) else h.imm.getLsbD (k - 16) := by
  unfold headerWord
  rw [BitVec.getLsbD_append, BitVec.getLsbD_append, BitVec.getLsbD_append, BitVec.getLsbD_append]
  by_cases h8 : k < 8
  · simp only [h8, if_true]
  · by_cases h12 : k < 12
    · have h1 : k - 8 < 4 := by omega
      simp only [h8, h12, h1, if_true, if_false]
    · by_cases h13 : k < 13
      · have h1 : ¬ k - 8 < 4 := by omega
        have h2 : k - 8 - 4 < 1 := by omega
        have h3 : k - 8 - 4 = 0 := by omega
        simp only [h8, h12, h13, h1, h3, if_true, if_false]
        simp
      · have h1 : ¬ k - 8 < 4 := by omega
        have h2 : ¬ k - 8 - 4 < 1 := by omega
        by_cases h16 : k < 16
        · have h3 : k - 8 - 4 - 1 < 3 := by omega
          have h4 : k - 8 - 4 - 1 = k - 13 := by omega
          rw [if_neg h8, if_neg h1, if_neg h2, if_pos h3, if_neg h8, if_neg h12, if_neg h13, if_pos h16, h4]
        · have h3 : ¬ k - 8 - 4 - 1 < 3 := by omega
          have h4 : k - 8 - 4 - 1 - 3 = k - 16 := by omega
          rw [if_neg h8, if_neg h1, if_neg h2, if_neg h3, if_neg h8, if_neg h12, if_neg h13, if_neg h16, h4]

theorem headerOf_headerWord (h : Header) : headerOf (headerWord h) = h := by
  obtain ⟨op, idx, f, z, imm⟩ := h
  simp only [headerOf, Header.mk.injEq]
  refine ⟨?_, ?_, ?_, ?_, ?_⟩
  · apply BitVec.eq_of_getLsbD_eq
    intro k hk
    rw [BitVec.getLsbD_extractLsb', headerWord_getLsbD]
    simp [hk]
  · apply BitVec.eq_of_getLsbD_eq
    intro k hk
    rw [BitVec.getLsbD_extractLsb', headerWord_getLsbD]
    have h1 : ¬ 8 + k < 8 := by omega
    have h2 : 8 + k < 12 := by omega
    simp [h2, hk]
  · rw [headerWord_getLsbD]
    simp
  · apply BitVec.eq_of_getLsbD_eq
    intro k hk
    rw [BitVec.getLsbD_extractLsb', headerWord_getLsbD]
    have h1 : ¬ 13 + k < 8 := by omega
    have h2 : ¬ 13 + k < 12 := by omega
    have h3 : ¬ 13 + k < 13 := by omega
    have h4 : 13 + k < 16 := by omega
    simp [h1, h2, h4, hk]
  · apply BitVec.eq_of_getLsbD_eq
    intro k hk
    rw [BitVec.getLsbD_extractLsb', headerWord_getLsbD]
    have h1 : ¬ 16 + k < 8 := by omega
    have h2 : ¬ 16 + k < 12 := by omega
    have h3 : ¬ 16 + k < 13 := by omega
    simp [h1, h2, h3, hk]

theorem headerWord_headerOf (w : Word) : headerWord (headerOf w) = w := by
  apply BitVec.eq_of_getLsbD_eq
  intro k hk
  rw [headerWord_getLsbD]
  simp only [headerOf, BitVec.getLsbD_extractLsb']
  split
  · next h => simp [h]
  · split
    · next h8 h =>
      have h1 : k - 8 < 4 := by omega
      have h2 : 8 + (k - 8) = k := by omega
      simp [h1, h2]
    · split
      · next h12 h =>
        have h1 : k = 12 := by omega
        rw [h1]
      · split
        · next h13 h =>
          have h1 : k - 13 < 3 := by omega
          have h2 : 13 + (k - 13) = k := by omega
          simp [h1, h2]
        · next h16 =>
          have h1 : k - 16 < 16 := by omega
          have h2 : 16 + (k - 16) = k := by omega
          simp [h1, h2]

/-- Two words with the same fields are equal. -/
theorem headerOf_inj {v w : Word} (h : headerOf v = headerOf w) : v = w := by
  rw [← headerWord_headerOf v, h, headerWord_headerOf]

theorem headerOf_and (v w : Word) :
    headerOf (v &&& w) = ⟨(headerOf v).op &&& (headerOf w).op, (headerOf v).idx &&& (headerOf w).idx,
      (headerOf v).f && (headerOf w).f, (headerOf v).z &&& (headerOf w).z, (headerOf v).imm &&& (headerOf w).imm⟩ := by
  simp only [headerOf, Header.mk.injEq]
  refine ⟨?_, ?_, ?_, ?_, ?_⟩ <;> first | (ext k hk; simp) | simp

/-- `W0 & mask = match`, field by field. -/
theorem OpRow.selects_iff (r : OpRow) (w : Word) :
    r.selects w ↔ (headerOf w).op &&& (headerOf r.mask).op = (headerOf r.pattern).op ∧
      (headerOf w).idx &&& (headerOf r.mask).idx = (headerOf r.pattern).idx ∧
      ((headerOf w).f && (headerOf r.mask).f) = (headerOf r.pattern).f ∧
      (headerOf w).z &&& (headerOf r.mask).z = (headerOf r.pattern).z ∧
      (headerOf w).imm &&& (headerOf r.mask).imm = (headerOf r.pattern).imm := by
  unfold OpRow.selects
  constructor
  · intro h
    rw [← h, headerOf_and]
    exact ⟨rfl, rfl, rfl, rfl, rfl⟩
  · rintro ⟨h1, h2, h3, h4, h5⟩
    apply headerOf_inj
    rw [headerOf_and, h1, h2, h3, h4, h5]

end Sys2Proof
end

