-- ==== Sys2Proof/Laws/Effects.lean ====
section
/-! SUPPORT. The inversion of `exec`: every next state is a rejection's, or that of the operation's own effect, met by the
epilogue and the response. A proof about all operations takes the cases of `Effect` and never unfolds a meaning. -/

namespace Sys2Proof.Machine

/-- The record DMA.COPY programs (42_dma.md R184). -/
def copyRecord (f : Bool) (a b c : Word) : DmaChannel where
  ctrl := copyWord f
  cnt  := unitCount f c
  dad  := truncAddr f b
  wsrc := truncAddr f a
  wdst := truncAddr f b

/-- The record DMA.FILL programs over a channel's old one (42_dma.md R185). -/
def fillRecord (f : Bool) (b c : Word) (old : DmaChannel) : DmaChannel where
  ctrl := fillWord f
  cnt  := unitCount f c
  dad  := truncAddr f b
  wsrc := old.wsrc
  wdst := truncAddr f b

/-- The record DMA.XFER programs (42_dma.md R186). -/
def xferRecord (cw : Half) (a b c : Word) : DmaChannel where
  ctrl := xferWord cw
  cnt  := c
  dad  := truncAddr (ctrlU32 cw) b
  wsrc := truncAddr (ctrlU32 cw) a
  wdst := truncAddr (ctrlU32 cw) b

/-- The end of an immediate DMA.XFER: the end event if it is due (42_dma.md R191). -/
def xferEnd (p : Platform) (ch : Channel) (r : State × Bool) : State :=
  if r.2 then (dispatch (srcDmaEnd p ch) r.1).1 else r.1

/-- `Effect s i d u`: the body of `i` on `s` completes with DATA `d` in `u`. -/
inductive Effect (s : State) : Instr → Half → State → Prop where
  | irqInit : Effect s .irqInit 0 ((((s.setVec (Vector.replicate _ none)).setIme true).setIe 0).setIflag 0)
  | irqSeth {idx f a src} (h : sourceOf s.conf idx = some src) :
      Effect s (.irqSeth idx f a) 0 (s.setVec (s.vec.set src (if f then some a else none)))
  | irqEn {idx src} (h : sourceOf s.conf idx = some src) :
      Effect s (.irqEn idx) 0 ((s.setIe (setBit s.ie src)).setDispstat (s.dispstat.setEnable s.conf src true))
  | irqDis {idx src} (h : sourceOf s.conf idx = some src) :
      Effect s (.irqDis idx) 0 ((s.setIe (clearBit s.ie src)).setDispstat (s.dispstat.setEnable s.conf src false))
  | irqVcnt {imm} : Effect s (.irqVcnt imm) 0 (s.setDispstat { s.dispstat with vcTgt := lineOf s.conf imm })
  | keyUpd : Effect s .keyUpd 0 (s.setKeys (s.keys.sample s.keyinput))
  | keyPrs : Effect s .keyPrs s.keys.pressed s
  | keyHld : Effect s .keyHld s.keys.held s
  | keyRel : Effect s .keyRel s.keys.released s
  | keyIrqall {imm} : Effect s (.keyIrqall imm) 0 (s.setKeycnt (0xC000 ||| (imm &&& s.conf.keySelMask)))
  | keyIrqany {imm} : Effect s (.keyIrqany imm) 0 (s.setKeycnt (0x4000 ||| (imm &&& s.conf.keySelMask)))
  | keyIrqoff : Effect s .keyIrqoff 0 (s.setKeycnt 0)
  | dmaCopy {idx f a b c ch} (h : channelOf idx = some ch) (hc : capViolation s.conf ch a = false) :
      Effect s (.dmaCopy idx f a b c) 0 (burst ch none (s.setChannel ch (copyRecord f a b c))).1
  | dmaFill {idx f a b c ch} (h : channelOf idx = some ch) :
      Effect s (.dmaFill idx f a b c) 0 (burst ch (some a) (s.setChannel ch (fillRecord f b c s.dma[ch]))).1
  | dmaXferNow {idx cw a b c ch} (h : channelOf idx = some ch) (hc : capViolation s.conf ch a = false)
      (hr : reservedCw cw = false) (hm : ctrlTm cw = 0) :
      Effect s (.dmaXfer idx cw a b c) 0 (xferEnd s.conf ch (burst ch none (s.setChannel ch (xferRecord cw a b c))))
  | dmaXferArm {idx cw a b c ch} (h : channelOf idx = some ch) (hc : capViolation s.conf ch a = false)
      (hr : reservedCw cw = false) (hm : ctrlTm cw ≠ 0) :
      Effect s (.dmaXfer idx cw a b c) 0 (s.setChannel ch (xferRecord cw a b c))
  | dmaStop {idx ch} (h : channelOf idx = some ch) :
      Effect s (.dmaStop idx) 0 (s.setChannel ch { s.dma[ch] with ctrl := disarmWord s.dma[ch].ctrl })
  | sramWr {a b c u} (hb : boundsCheck s.conf a c = none) (hu : copyBytes c.toNat a b s = some u) :
      Effect s (.sramWr a b c) 0 u
  | sramRd {a b c u} (hb : boundsCheck s.conf b c = none) (hu : copyBytes c.toNat a b s = some u) :
      Effect s (.sramRd a b c) 0 u
  | regRd {a r} (h : regAt s.conf a = some r) : Effect s (.regRd a) (regRead r s).1 (regRead r s).2
  | regWr {imm a r} (h : regAt s.conf a = some r) (hw : r.readOnly = false) : Effect s (.regWr imm a) 0 (regWrite r imm s)
  | evtDispatch {idx src} (h : sourceOf s.conf idx = some src) :
      Effect s (.evtDispatch idx) (if (dispatch src s).2 then 1 else 0) (dispatch src s).1
  | evtHdone {idx src} (h : sourceOf s.conf idx = some src) (hi : bitOf s.inService src = true) :
      Effect s (.evtHdone idx) 0 (leaveHandler src s)
  | evtLine : Effect s .evtLine 0 (startLine s)
  | evtHbl : Effect s .evtHbl 0 (startHblank s)
  | evtKeys {imm} : Effect s (.evtKeys imm) 0 (s.setKeyinput imm)

/-- A bounds check never answers OK. -/
theorem boundsCheck_ne_ok {p : Platform} {t n : Word} {c : ResultCode} (h : boundsCheck p t n = some c) : c ≠ .ok := by
  unfold boundsCheck at h
  split at h
  · cases h; decide
  · split at h
    · cases h; decide
    · split at h
      · cases h; decide
      · cases h

/-- The body of every operation but the two silent ones: it completes with its effect, is rejected with a code that is not
OK, or is refused. -/
theorem exec_body (i : Instr) (s : State) (h1 : i ≠ .sysWaitvbl) (h2 : i ≠ .sysFatal) :
    ∃ b, exec i s = finish s b ∧ ((∃ d u, b = .done d u ∧ Effect s i d u) ∨ (∃ c, b = .reject c ∧ c ≠ .ok) ∨
      ∃ r, b = .refuse r) := by
  cases i <;> simp only [exec, execIrqInit]
  case sysWaitvbl => exact absurd rfl h1
  case sysFatal => exact absurd rfl h2
  case irqInit => exact ⟨_, rfl, .inl ⟨_, _, rfl, .irqInit⟩⟩
  case irqSeth idx f a =>
    refine ⟨_, rfl, ?_⟩
    split
    · exact .inr (.inl ⟨_, rfl, by decide⟩)
    · exact .inl ⟨_, _, rfl, .irqSeth ‹_›⟩
  case irqEn idx =>
    refine ⟨_, rfl, ?_⟩
    split
    · exact .inr (.inl ⟨_, rfl, by decide⟩)
    · exact .inl ⟨_, _, rfl, .irqEn ‹_›⟩
  case irqDis idx =>
    refine ⟨_, rfl, ?_⟩
    split
    · exact .inr (.inl ⟨_, rfl, by decide⟩)
    · exact .inl ⟨_, _, rfl, .irqDis ‹_›⟩
  case irqVcnt imm => exact ⟨_, rfl, .inl ⟨_, _, rfl, .irqVcnt⟩⟩
  case keyUpd => exact ⟨_, rfl, .inl ⟨_, _, rfl, .keyUpd⟩⟩
  case keyPrs => exact ⟨_, rfl, .inl ⟨_, _, rfl, .keyPrs⟩⟩
  case keyHld => exact ⟨_, rfl, .inl ⟨_, _, rfl, .keyHld⟩⟩
  case keyRel => exact ⟨_, rfl, .inl ⟨_, _, rfl, .keyRel⟩⟩
  case keyIrqall imm => exact ⟨_, rfl, .inl ⟨_, _, rfl, .keyIrqall⟩⟩
  case keyIrqany imm => exact ⟨_, rfl, .inl ⟨_, _, rfl, .keyIrqany⟩⟩
  case keyIrqoff => exact ⟨_, rfl, .inl ⟨_, _, rfl, .keyIrqoff⟩⟩
  case dmaCopy idx f a b c =>
    refine ⟨_, rfl, ?_⟩
    split
    · exact .inr (.inl ⟨_, rfl, by decide⟩)
    · split
      · exact .inr (.inl ⟨_, rfl, by decide⟩)
      · exact .inl ⟨_, _, rfl, .dmaCopy ‹_› (Bool.eq_false_iff.2 ‹_›)⟩
  case dmaFill idx f a b c =>
    refine ⟨_, rfl, ?_⟩
    split
    · exact .inr (.inl ⟨_, rfl, by decide⟩)
    · exact .inl ⟨_, _, rfl, .dmaFill ‹_›⟩
  case dmaXfer idx cw a b c =>
    refine ⟨_, rfl, ?_⟩
    split
    · exact .inr (.inl ⟨_, rfl, by decide⟩)
    · split
      · exact .inr (.inl ⟨_, rfl, by decide⟩)
      · split
        · exact .inr (.inr ⟨_, rfl⟩)
        · dsimp only
          split
          · exact .inl ⟨_, _, rfl, .dmaXferNow ‹_› (Bool.eq_false_iff.2 ‹_›) (Bool.eq_false_iff.2 ‹_›) ‹_›⟩
          · exact .inl ⟨_, _, rfl, .dmaXferArm ‹_› (Bool.eq_false_iff.2 ‹_›) (Bool.eq_false_iff.2 ‹_›) ‹_›⟩
  case dmaStop idx =>
    refine ⟨_, rfl, ?_⟩
    split
    · exact .inr (.inl ⟨_, rfl, by decide⟩)
    · exact .inl ⟨_, _, rfl, .dmaStop ‹_›⟩
  case sramWr a b c =>
    refine ⟨_, rfl, ?_⟩
    unfold storageBody
    split
    · next code hb => exact .inr (.inl ⟨_, rfl, boundsCheck_ne_ok hb⟩)
    · split
      · exact .inl ⟨_, _, rfl, .sramWr ‹_› ‹_›⟩
      · exact .inr (.inr ⟨_, rfl⟩)
  case sramRd a b c =>
    refine ⟨_, rfl, ?_⟩
    unfold storageBody
    split
    · next code hb => exact .inr (.inl ⟨_, rfl, boundsCheck_ne_ok hb⟩)
    · split
      · exact .inl ⟨_, _, rfl, .sramRd ‹_› ‹_›⟩
      · exact .inr (.inr ⟨_, rfl⟩)
  case regRd a =>
    refine ⟨_, rfl, ?_⟩
    split
    · exact .inr (.inl ⟨_, rfl, by decide⟩)
    · exact .inl ⟨_, _, rfl, .regRd ‹_›⟩
  case regWr imm a =>
    refine ⟨_, rfl, ?_⟩
    split
    · exact .inr (.inl ⟨_, rfl, by decide⟩)
    · split
      · exact .inr (.inl ⟨_, rfl, by decide⟩)
      · exact .inl ⟨_, _, rfl, .regWr ‹_› (Bool.eq_false_iff.2 ‹_›)⟩
  case evtDispatch idx =>
    refine ⟨_, rfl, ?_⟩
    split
    · exact .inr (.inl ⟨_, rfl, by decide⟩)
    · exact .inl ⟨_, _, rfl, .evtDispatch ‹_›⟩
  case evtHdone idx =>
    refine ⟨_, rfl, ?_⟩
    split
    · exact .inr (.inl ⟨_, rfl, by decide⟩)
    · split
      · exact .inl ⟨_, _, rfl, .evtHdone ‹_› ‹_›⟩
      · exact .inr (.inl ⟨_, rfl, by decide⟩)
  case evtLine => exact ⟨_, rfl, .inl ⟨_, _, rfl, .evtLine⟩⟩
  case evtHbl => exact ⟨_, rfl, .inl ⟨_, _, rfl, .evtHbl⟩⟩
  case evtKeys imm => exact ⟨_, rfl, .inl ⟨_, _, rfl, .evtKeys⟩⟩

/-- Everything a next state of `exec` can be. -/
theorem exec_cases {i : Instr} {s t : State} (h : exec i s = .next t) :
    (i ≠ .sysWaitvbl ∧ i ≠ .sysFatal ∧ ∃ c, c ≠ .ok ∧ t = respond c 0 s) ∨
    (i ≠ .sysWaitvbl ∧ i ≠ .sysFatal ∧ ∃ d u, Effect s i d u ∧ t = respond .ok d u) ∨
    (i = .sysWaitvbl ∧ t = keypadEpilogue (s.setWaiting true)) ∨ (i = .sysFatal ∧ t = keypadEpilogue (fatalState s)) := by
  by_cases h1 : i = .sysWaitvbl
  · subst h1
    exact .inr (.inr (.inl ⟨rfl, (Host.Outcome.next.inj h).symm⟩))
  · by_cases h2 : i = .sysFatal
    · subst h2
      exact .inr (.inr (.inr ⟨rfl, (Host.Outcome.next.inj h).symm⟩))
    · obtain ⟨b, hb, ⟨d, u, rfl, he⟩ | ⟨c, rfl, hc⟩ | ⟨r, rfl⟩⟩ := exec_body i s h1 h2 <;> rw [hb] at h
      · exact .inr (.inl ⟨h1, h2, d, u, he, (Host.Outcome.next.inj h).symm⟩)
      · exact .inl ⟨h1, h2, c, hc, (Host.Outcome.next.inj h).symm⟩
      · cases h

/-- What the epilogue, a response and every effect keep, every operation keeps. -/
theorem exec_keeps {P : State → Prop} (hep : ∀ x, P x → P (keypadEpilogue x)) (hem : ∀ r x, P x → P (emit r x))
    {s : State} (hs : P s) (he : ∀ i d u, Effect s i d u → P u) (hw : P (s.setWaiting true)) (hf : P (fatalState s))
    {i : Instr} {t : State} (h : exec i s = .next t) : P t := by
  rcases exec_cases h with ⟨_, _, c, _, rfl⟩ | ⟨_, _, d, u, hu, rfl⟩ | ⟨_, rfl⟩ | ⟨_, rfl⟩
  · exact hem _ _ (hep _ hs)
  · exact hem _ _ (hep _ (he _ _ _ hu))
  · exact hep _ hw
  · exact hep _ hf

/-- What every operation, a processor's store and a change of the pending inputs keep, every step keeps. -/
theorem step_keeps {P : State → Prop} (hpend : ∀ s l, P s → P (s.setPending l))
    (hcpu : ∀ a v s, P s → P (cpuStoreByte a v s)) (hrej : ∀ c s, P s → P (respond c 0 s))
    (hex : ∀ i s t, P s → exec i s = .next t → P t) {s t : State} (h : P s) (hs : step s = .next t) : P t := by
  rcases step_cases hs with ⟨_, _, rfl⟩ | ⟨a, v, left, _, rfl⟩ | ⟨_, _, left, code, _, _, rfl⟩ |
    ⟨who, fr, left, i, _, _, _, _, hx⟩
  · exact h
  · exact hcpu _ _ _ (hpend _ _ h)
  · exact hrej _ _ (hpend _ _ h)
  · exact hex _ _ _ (hpend _ _ h) hx

end Sys2Proof.Machine
end

