-- ==== Sys2Proof/Laws/Flags.lean ====
section
/-! SUPPORT. The bits of the flag computations, and that the shared operations keep IF and in_service below N_SOURCES. -/

namespace Sys2Proof.Machine

theorem getLsbD_setBit (w : Half) (s : Source) (k : Nat) :
    (setBit w s).getLsbD k = (decide (k = s.val) || w.getLsbD k) := by
  have hs : s.val < 16 := s.isLt
  unfold setBit
  rw [BitVec.getLsbD_or, BitVec.getLsbD_shiftLeft, BitVec.getLsbD_one]
  by_cases hk : k = s.val
  · subst hk; simp [hs]
  · by_cases h16 : k < 16
    · by_cases hl : k < s.val
      · simp [hk, hl]
      · have : k - s.val ≠ 0 := by omega
        simp [hk, this]
    · simp [hk, h16]

theorem getLsbD_clearBit (w : Half) (s : Source) (k : Nat) :
    (clearBit w s).getLsbD k = (decide (k ≠ s.val) && w.getLsbD k) := by
  have hs : s.val < 16 := s.isLt
  unfold clearBit
  rw [BitVec.getLsbD_and, BitVec.getLsbD_not, BitVec.getLsbD_shiftLeft, BitVec.getLsbD_one]
  by_cases h16 : k < 16
  · by_cases hk : k = s.val
    · subst hk; simp [hs]
    · by_cases hl : k < s.val
      · simp [hk, hl, h16]
      · have : k - s.val ≠ 0 := by omega
        simp [hk, this, h16]
  · have := BitVec.getLsbD_of_ge w k (by omega)
    simp [this]

theorem latch_off {s : Source} {t : State} (h : lineOn s t = false) : latch s t = t := by
  simp [latch, h]

theorem latch_on {s : Source} {t : State} (h : lineOn s t = true) : latch s t = t.setIflag (setBit t.iflag s) := by
  simp [latch, h]

/-- The line is on when the source's DISPSTAT enable is set, or it has none. -/
theorem lineOn_iff (s : Source) (t : State) :
    lineOn s t = true ↔ (s.val = t.conf.idxVblank → t.dispstat.vblEn = true) ∧
      (s.val = t.conf.idxHblank → t.dispstat.hblEn = true) ∧ (s.val = t.conf.idxVcount → t.dispstat.vcEn = true) := by
  rw [← eq_srcVblank, ← eq_srcHblank, ← eq_srcVcount]
  unfold lineOn displayLinked Dispstat.enableOf
  by_cases h0 : s = srcVblank t.conf
  · subst h0
    simp [(srcHblank_ne_srcVblank t.conf).symm, (srcVcount_ne_srcVblank t.conf).symm]
  · by_cases h1 : s = srcHblank t.conf
    · subst h1
      simp [srcHblank_ne_srcVblank t.conf, (srcVcount_ne_srcHblank t.conf).symm]
    · by_cases h2 : s = srcVcount t.conf
      · subst h2
        simp [srcVcount_ne_srcVblank t.conf, srcVcount_ne_srcHblank t.conf]
      · simp [h0, h1, h2]

/-- No bit of IF or of in_service at or above N_SOURCES is set (10_state.md R23, R31). -/
def SourcesLegal (t : State) : Prop :=
  ∀ k, t.conf.nSources ≤ k → t.iflag.getLsbD k = false ∧ t.inService.getLsbD k = false

theorem SourcesLegal.congr {t u : State} (h : SourcesLegal t) (hf : u.iflag = t.iflag) (hi : u.inService = t.inService)
    (hc : u.conf = t.conf) : SourcesLegal u := by
  intro k hk
  rw [hf, hi]
  exact h k (hc ▸ hk)

theorem setBit_above {w : Half} {n k : Nat} {s : Source} (hs : s.val < n) (hk : n ≤ k) (h : w.getLsbD k = false) :
    (setBit w s).getLsbD k = false := by
  have : k ≠ s.val := by omega
  rw [getLsbD_setBit, h]
  simp [this]

theorem sourcesLegal_latch {s : Source} {t : State} (hs : s.val < t.conf.nSources) (h : SourcesLegal t) :
    SourcesLegal (latch s t) := by
  intro k hk
  rw [latch_conf] at hk
  refine ⟨?_, by rw [latch_inService]; exact (h k hk).2⟩
  cases hl : lineOn s t with
  | false => rw [latch_off hl]; exact (h k hk).1
  | true => rw [latch_on hl]; exact setBit_above hs hk (h k hk).1

theorem sourcesLegal_dispatch {s : Source} {t : State} (hs : s.val < t.conf.nSources) (h : SourcesLegal t) :
    SourcesLegal (dispatch s t).1 := by
  rcases dispatch_cases s t with ⟨_, e⟩ | ⟨_, a, _, e⟩ | ⟨_, _, e⟩ <;> rw [e]
  · exact sourcesLegal_latch hs h
  · intro k hk
    rw [enterHandler_conf, latch_conf] at hk
    have hl := sourcesLegal_latch hs h k (by rw [latch_conf]; exact hk)
    exact ⟨hl.1, setBit_above hs hk hl.2⟩
  · exact (sourcesLegal_latch hs h).congr (wakeIfWaiting_iflag _ _) (wakeIfWaiting_inService _ _) (wakeIfWaiting_conf _ _)

theorem sourcesLegal_dispatchAll (l : List Source) {t : State} (hl : ∀ s ∈ l, s.val < t.conf.nSources)
    (h : SourcesLegal t) : SourcesLegal (dispatchAll l t) := by
  induction l generalizing t with
  | nil => exact h
  | cons s rest ih =>
    exact ih (fun r hr => by rw [dispatch_conf]; exact hl r (by simp [hr])) (sourcesLegal_dispatch (hl s (by simp)) h)

theorem sourcesLegal_keypadEpilogue {t : State} (h : SourcesLegal t) : SourcesLegal (keypadEpilogue t) := by
  unfold keypadEpilogue
  dsimp only
  split
  · exact (sourcesLegal_dispatch (srcKeypad_lt t.conf) h).congr rfl rfl rfl
  · exact h.congr rfl rfl rfl

theorem sourcesLegal_leaveHandler (s : Source) {t : State} (h : SourcesLegal t) : SourcesLegal (leaveHandler s t) := by
  unfold leaveHandler
  refine SourcesLegal.congr (t := t.setInService (clearBit t.inService s)) ?_ (by simp) (by simp) (by simp)
  intro k hk
  refine ⟨(h k hk).1, ?_⟩
  simp only [State.setInService, getLsbD_clearBit, (h k hk).2, Bool.and_false]

theorem regWrite_sourcesLegal (r : Reg) (d : Half) {t : State} (h : SourcesLegal t) : SourcesLegal (regWrite r d t) := by
  intro k hk
  rw [regWrite_conf] at hk
  refine ⟨?_, by rw [regWrite_inService]; exact (h k hk).2⟩
  cases r <;> first | exact (h k hk).1 | skip
  simp [regWrite, ackFlags, (h k hk).1]

/-- Bursts keep it. -/
theorem keptByUnits_sourcesLegal : KeptByUnits SourcesLegal where
  reg r d _ h := regWrite_sourcesLegal r d h
  poke _ _ _ h := h.congr rfl rfl rfl
  draw _ h := h.congr rfl rfl rfl
  chan _ _ _ h := h.congr rfl rfl rfl

/-- Every end-of-transfer source a trigger leaves due is a source. -/
theorem triggerChannels_due_lt (tm : BitVec 2) (l : List Channel) (t : State) :
    ∀ s ∈ (triggerChannels tm l t).2, s.val < t.conf.nSources := by
  induction l generalizing t with
  | nil => simp [triggerChannels]
  | cons ch rest ih =>
    by_cases ha : t.dma[ch].armedFor tm
    · rw [triggerChannels_cons_armed ha]
      have hr : ∀ s ∈ (triggerChannels tm rest (burst ch none t).1).2, s.val < t.conf.nSources := by
        simpa using ih (burst ch none t).1
      intro s hs
      dsimp only at hs
      split at hs
      · rcases List.mem_cons.1 hs with rfl | hs
        · exact srcDmaEnd_lt _ _
        · exact hr s hs
      · exact hr s hs
    · rw [triggerChannels_cons_idle ha]
      exact ih t

end Sys2Proof.Machine
end

