-- ==== Sys2Proof/Laws/Traces.lean ====
section
/-! SUPPORT. What the shared operations append to OUT: `Dispatch`, a list of dispatches, the epilogue and the display events
append records that are no responses; a wait ends only where WAKE is appended. -/

namespace Sys2Proof.Machine

/-- `u` has the records of `t` and after them only records that are no responses; if a wait ended, WAKE is among them. -/
def Grows (t u : State) : Prop :=
  ∃ rs : List Record, u.out = t.out ++ rs ∧ (∀ r ∈ rs, r.isResp = false) ∧
    (t.waiting = true → u.waiting = false → Record.wake ∈ rs)

/-- Same OUT, same `waiting`. -/
theorem Grows.of_same {t u : State} (ho : u.out = t.out) (hw : u.waiting = t.waiting) : Grows t u :=
  ⟨[], by simp [ho], by simp, fun h1 h2 => by rw [hw, h1] at h2; cases h2⟩

theorem Grows.refl (t : State) : Grows t t := Grows.of_same rfl rfl

theorem Grows.trans {t u v : State} (h1 : Grows t u) (h2 : Grows u v) : Grows t v := by
  obtain ⟨r1, o1, n1, w1⟩ := h1
  obtain ⟨r2, o2, n2, w2⟩ := h2
  refine ⟨r1 ++ r2, by rw [o2, o1, List.append_assoc], ?_, ?_⟩
  · intro r hr
    rcases List.mem_append.1 hr with h | h
    · exact n1 r h
    · exact n2 r h
  · intro ht hv
    cases hu : u.waiting with
    | false => exact List.mem_append_left _ (w1 ht hu)
    | true => exact List.mem_append_right _ (w2 hu hv)

/-- Growth from a state with the same OUT and `waiting`. -/
theorem Grows.from_same {t t' u : State} (ho : t'.out = t.out) (hw : t'.waiting = t.waiting) (h : Grows t' u) :
    Grows t u :=
  (Grows.of_same ho hw).trans h

theorem grows_latch (s : Source) (t : State) : Grows t (latch s t) := Grows.of_same (by simp) (by simp)

theorem grows_wakeIfWaiting (s : Source) (t : State) : Grows t (wakeIfWaiting s t) := by
  unfold wakeIfWaiting
  split
  · exact ⟨[.wake], rfl, by simp [Record.isResp], by simp⟩
  · exact Grows.refl t

theorem grows_enterHandler (s : Source) (h : Word) (t : State) : Grows t (enterHandler s h t) :=
  ⟨[.invoke s h], rfl, by simp [Record.isResp], fun h1 h2 => by
    rw [enterHandler_waiting, h1] at h2; cases h2⟩

theorem grows_dispatch (s : Source) (t : State) : Grows t (dispatch s t).1 := by
  rcases dispatch_cases s t with ⟨_, h⟩ | ⟨_, a, _, h⟩ | ⟨_, _, h⟩ <;> rw [h]
  · exact grows_latch s t
  · exact (grows_latch s t).trans (grows_enterHandler s a _)
  · exact (grows_latch s t).trans (grows_wakeIfWaiting s _)

theorem grows_dispatchAll (l : List Source) (t : State) : Grows t (dispatchAll l t) := by
  induction l generalizing t with
  | nil => exact Grows.refl t
  | cons s rest ih => exact (grows_dispatch s t).trans (ih _)

theorem grows_leaveHandler (s : Source) (t : State) : Grows t (leaveHandler s t) := by
  unfold leaveHandler
  exact Grows.from_same (by simp) (by simp) (grows_wakeIfWaiting s _)

theorem grows_keypadEpilogue (t : State) : Grows t (keypadEpilogue t) := by
  unfold keypadEpilogue
  dsimp only
  split
  · exact (grows_dispatch (srcKeypad t.conf) t).trans (Grows.of_same (by simp) (by simp))
  · exact Grows.of_same (by simp) (by simp)

/-- A response: the epilogue's records, then the one response. -/
theorem respond_out (c : ResultCode) (d : Half) (t : State) :
    ∃ rs : List Record, (respond c d t).out = t.out ++ rs ++ [.resp c d] ∧ ∀ r ∈ rs, r.isResp = false := by
  obtain ⟨rs, h, hn, _⟩ := grows_keypadEpilogue t
  exact ⟨rs, by simp only [respond, emit_out, h], hn⟩

end Sys2Proof.Machine
end

