-- ==== Sys2Proof/Laws/Events.lean ====
section
/-! SUPPORT. What the two display events and the storage copy can do, said once. -/

namespace Sys2Proof.Machine

/-- What the dispatch of a source keeps, a list of dispatches keeps. -/
theorem dispatchAll_keeps {P : State → Prop} (hd : ∀ s x, s.val < x.conf.nSources → P x → P (dispatch s x).1)
    (l : List Source) {t : State} (hl : ∀ s ∈ l, s.val < t.conf.nSources) (h : P t) : P (dispatchAll l t) := by
  induction l generalizing t with
  | nil => exact h
  | cons s rest ih =>
    exact ih (fun r hr => by rw [dispatch_conf]; exact hl r (by simp [hr])) (hd s t (hl s (by simp)) h)

/-! ## The two display events -/

@[simp] theorem vblankStart_conf (t : State) : (vblankStart t).1.conf = t.conf := by
  unfold vblankStart; split <;> simp

@[simp] theorem vcountMatch_conf (t : State) : (vcountMatch t).conf = t.conf := by
  unfold vcountMatch; split <;> simp

@[simp] theorem hblankBursts_conf (t : State) : (hblankBursts t).1.conf = t.conf := by
  unfold hblankBursts; split <;> simp

/-- The events a start of VBlank leaves due are sources. -/
theorem vblankStart_due_lt (t : State) : ∀ s ∈ (vblankStart t).2, s.val < t.conf.nSources := by
  unfold vblankStart
  split
  · exact triggerChannels_due_lt 1 channels t
  · simp

theorem hblankBursts_due_lt (t : State) : ∀ s ∈ (hblankBursts t).2, s.val < t.conf.nSources := by
  unfold hblankBursts
  split
  · simp
  · exact triggerChannels_due_lt 2 channels t

/-- What bursts and the dispatch of a source keep, the start of VBlank keeps. -/
theorem vblankStart_keeps {P : State → Prop} (k : KeptByUnits P)
    (hd : ∀ s x, s.val < x.conf.nSources → P x → P (dispatch s x).1) {t : State} (h : P t) : P (vblankStart t).1 := by
  unfold vblankStart
  split
  · exact hd _ _ (by simpa using srcVblank_lt t.conf) (k.triggerChannels 1 channels h)
  · exact h

theorem vcountMatch_keeps {P : State → Prop} (hd : ∀ s x, s.val < x.conf.nSources → P x → P (dispatch s x).1) {t : State}
    (h : P t) : P (vcountMatch t) := by
  unfold vcountMatch
  split
  · exact hd _ _ (srcVcount_lt t.conf) h
  · exact h

/-- What bursts and the dispatch of a source keep, a new line keeps from the moment the counter has stepped. -/
theorem startLine_keeps {P : State → Prop} (k : KeptByUnits P)
    (hd : ∀ s x, s.val < x.conf.nSources → P x → P (dispatch s x).1) {t : State}
    (h : P (t.setVcount (nextLine t.conf t.vcount))) : P (startLine t) := by
  refine dispatchAll_keeps hd _ ?_ (vcountMatch_keeps hd (vblankStart_keeps k hd h))
  simpa using vblankStart_due_lt (t.setVcount (nextLine t.conf t.vcount))

theorem hblankBursts_keeps {P : State → Prop} (k : KeptByUnits P) {t : State} (h : P t) : P (hblankBursts t).1 := by
  unfold hblankBursts
  split
  · exact h
  · exact k.triggerChannels 2 channels h

/-- What bursts and the dispatch of a source keep, a horizontal blank keeps. -/
theorem startHblank_keeps {P : State → Prop} (k : KeptByUnits P)
    (hd : ∀ s x, s.val < x.conf.nSources → P x → P (dispatch s x).1) {t : State} (h : P t) : P (startHblank t) := by
  refine dispatchAll_keeps hd _ ?_ (hd _ _ (by simpa using srcHblank_lt t.conf) (hblankBursts_keeps k h))
  simpa using hblankBursts_due_lt t

/-- What a new line and a horizontal blank append to OUT. -/
theorem grows_vblankStart (t : State) : Grows t (vblankStart t).1 := by
  unfold vblankStart
  split
  · exact Grows.from_same (triggerDma_out 1 t) (triggerDma_waiting 1 t) (grows_dispatch _ _)
  · exact Grows.refl t

theorem grows_vcountMatch (t : State) : Grows t (vcountMatch t) := by
  unfold vcountMatch
  split
  · exact grows_dispatch _ _
  · exact Grows.refl t

theorem grows_startLine (t : State) : Grows t (startLine t) :=
  Grows.from_same (t' := t.setVcount (nextLine t.conf t.vcount)) rfl rfl
    ((grows_vblankStart _).trans ((grows_vcountMatch _).trans (grows_dispatchAll _ _)))

theorem grows_hblankBursts (t : State) : Grows t (hblankBursts t).1 := by
  unfold hblankBursts
  split
  · exact Grows.refl t
  · exact Grows.of_same (triggerDma_out 2 t) (triggerDma_waiting 2 t)

theorem grows_startHblank (t : State) : Grows t (startHblank t) :=
  (grows_hblankBursts t).trans ((grows_dispatch _ _).trans (grows_dispatchAll _ _))

/-- The counter after a new line. -/
theorem startLine_vcount (t : State) : (startLine t).vcount = nextLine t.conf t.vcount := by
  unfold startLine vcountMatch vblankStart
  dsimp only
  rw [dispatchAll_vcount]
  split <;> split <;> simp

@[simp] theorem startLine_conf (t : State) : (startLine t).conf = t.conf := by
  simp [startLine]

@[simp] theorem startHblank_conf (t : State) : (startHblank t).conf = t.conf := by
  simp [startHblank]

theorem startHblank_vcount (t : State) : (startHblank t).vcount = t.vcount := by
  unfold startHblank hblankBursts
  dsimp only
  rw [dispatchAll_vcount, dispatch_vcount]
  split <;> simp

/-! ## The storage copy -/

theorem copyBytes_conf {n : Nat} {t u : State} {d p : Word} (h : copyBytes n d p t = some u) : u.conf = t.conf := by
  rw [copyBytes_eq n h]; rfl

/-- A byte outside the destination reads as before. -/
theorem copyBytes_read_ne (n : Nat) {t u : State} {d p x : Word} (h : copyBytes n d p t = some u)
    (hx : ∀ k, k < n → x ≠ d + BitVec.ofNat 32 k) : readByte u x = readByte t x := by
  induction n generalizing t d p with
  | zero => cases h; rfl
  | succ n ih =>
    unfold copyBytes at h
    split at h
    · cases h
    · split at h
      · cases h
      · next b _ t' ht' =>
        have h0 : x ≠ d := by simpa using hx 0 (by omega)
        have hs : ∀ k, k < n → x ≠ d + 1 + BitVec.ofNat 32 k := by
          intro k hk
          have := hx (k + 1) (by omega)
          have he : d + 1 + BitVec.ofNat 32 k = d + BitVec.ofNat 32 (k + 1) := by
            apply BitVec.eq_of_toNat_eq; simp; omega
          rw [he]; exact this
        rw [ih h hs]
        unfold memWrite8 at ht'
        split at ht'
        · cases ht'
        · split at ht'
          · cases ht'; rfl
          · cases ht'; exact readByte_pokeByte_ne h0 _ _

theorem ofNat_add_one (a : Word) (k : Nat) : a + 1 + BitVec.ofNat 32 k = a + BitVec.ofNat 32 (k + 1) := by
  apply BitVec.eq_of_toNat_eq; simp; omega

/-- The copy completes exactly when no byte of either side is on a register. -/
theorem copyBytes_isSome_iff (n : Nat) (d p : Word) (t : State) :
    (copyBytes n d p t).isSome = true ↔
      ∀ k, k < n → onRegister t.conf (p + BitVec.ofNat 32 k) = false ∧ onRegister t.conf (d + BitVec.ofNat 32 k) = false := by
  induction n generalizing t d p with
  | zero => simp [copyBytes]
  | succ n ih =>
    unfold copyBytes
    constructor
    · intro h k hk
      cases hp : onRegister t.conf p with
      | true => simp [memRead8, hp] at h
      | false =>
        cases hd : onRegister t.conf d with
        | true => simp [memRead8, hp, memWrite8, hd] at h
        | false =>
          cases k with
          | zero => simp [hp, hd]
          | succ k =>
            rw [← ofNat_add_one, ← ofNat_add_one]
            have hw : ∃ t', memWrite8 d (readByte t p) t = some t' := by
              unfold memWrite8; rw [if_neg (by simp [hd])]; split <;> exact ⟨_, rfl⟩
            obtain ⟨t', ht'⟩ := hw
            simp only [memRead8, hp, Bool.false_eq_true, if_false, ht'] at h
            rw [← memWrite8_conf ht']
            exact (ih _ _ _).1 h k (by omega)
    · intro h
      have h0 := h 0 (by omega)
      simp only [BitVec.add_zero] at h0
      have hw : ∃ t', memWrite8 d (readByte t p) t = some t' := by
        unfold memWrite8; rw [if_neg (by simp [h0.2])]; split <;> exact ⟨_, rfl⟩
      obtain ⟨t', ht'⟩ := hw
      simp only [memRead8, h0.1, Bool.false_eq_true, if_false, ht']
      refine (ih _ _ _).2 (fun k hk => ?_)
      rw [ofNat_add_one, ofNat_add_one, memWrite8_conf ht']
      exact h (k + 1) (by omega)

/-- With the two sides sharing no address, a destination byte outside mass storage is the source byte. -/
theorem copyBytes_read (n : Nat) (hn : n ≤ 2 ^ 32) {t u : State} (hw : t.mem.wf = true) {d p : Word}
    (h : copyBytes n d p t = some u)
    (hdis : ∀ j k, j < n → k < n → p + BitVec.ofNat 32 j ≠ d + BitVec.ofNat 32 k) (k : Nat) (hk : k < n) :
    readByte u (d + BitVec.ofNat 32 k) =
      if inRom t.conf (d + BitVec.ofNat 32 k) then readByte t (d + BitVec.ofNat 32 k)
      else readByte t (p + BitVec.ofNat 32 k) := by
  induction n generalizing t d p k with
  | zero => omega
  | succ n ih =>
    unfold copyBytes at h
    split at h
    · cases h
    · next b hb =>
      split at h
      · cases h
      · next t' ht' =>
        have hb' : b = readByte t p := by
          unfold memRead8 at hb
          split at hb
          · cases hb
          · exact (Option.some.inj hb).symm
        have ht8 := ht'
        unfold memWrite8 at ht8
        have hframe : ∀ x, x ≠ d → readByte t' x = readByte t x := by
          intro x hx
          split at ht8
          · cases ht8
          · split at ht8
            · cases ht8; rfl
            · cases ht8; exact readByte_pokeByte_ne hx _ _
        cases k with
        | zero =>
          simp only [BitVec.add_zero]
          have hrest : readByte u d = readByte t' d := by
            refine copyBytes_read_ne n h (fun j hj he => ?_)
            have := congrArg BitVec.toNat he
            simp at this
            omega
          rw [hrest]
          split at ht8
          · cases ht8
          · split at ht8
            · next hr => cases ht8; rw [if_pos hr]
            · next hr =>
              cases ht8
              rw [if_neg hr, ← hb']
              exact Memory.read_write_same hw _ _
        | succ k =>
          have hd' : ∀ j, d + BitVec.ofNat 32 (j + 1) ≠ d ∨ 2 ^ 32 ≤ j + 1 := by
            intro j
            by_cases hj : 2 ^ 32 ≤ j + 1
            · exact .inr hj
            · refine .inl (fun he => ?_)
              have := congrArg BitVec.toNat he
              simp at this
              omega
          have hw' := memWrite8_wf hw ht'
          have := ih (by omega) hw' h (fun j l hj hl => by
            rw [ofNat_add_one, ofNat_add_one]
            exact hdis (j + 1) (l + 1) (by omega) (by omega)) k (by omega)
          rw [ofNat_add_one, ofNat_add_one] at this
          rw [this]
          have e1 : readByte t' (d + BitVec.ofNat 32 (k + 1)) = readByte t (d + BitVec.ofNat 32 (k + 1)) := by
            rcases hd' k with hne | hge
            · exact hframe _ hne
            · omega
          have e2 : readByte t' (p + BitVec.ofNat 32 (k + 1)) = readByte t (p + BitVec.ofNat 32 (k + 1)) := by
            apply hframe
            have := hdis (k + 1) 0 hk (by omega)
            simpa using this
          rw [e1, e2, memWrite8_conf ht']

end Sys2Proof.Machine
end

