-- ==== Sys2Proof/Laws/PerInstr.lean ====
section
/-! SUPPORT. The per-instruction family EncodeSelectsRow: the W0 of every operation's encoding selects, by the match and mask
columns of 30_encoding.md R103, a row with that operation's mnemonic and class. -/

namespace Sys2Proof.Laws.EncodeSelectsRow

/-- The encoding of `i` selects a row of the operation map that has `i`'s mnemonic and class (30_encoding.md R103). -/
def Statement (i : Instr) : Prop :=
  ∃ r ∈ opTable, r.mnemonic = mnemonicOf i ∧ r.cls = classOf i ∧ r.selects (encode i).w0

/-- The fields of a frame's W0 are the fields it was made of. -/
theorem selects_mkFrame (r : OpRow) (op : Byte) (idx : BitVec 4) (f : Bool) (imm : Half) (a b c : Word) :
    r.selects (mkFrame op idx f imm a b c).w0 ↔ op &&& (headerOf r.mask).op = (headerOf r.pattern).op ∧
      idx &&& (headerOf r.mask).idx = (headerOf r.pattern).idx ∧ (f && (headerOf r.mask).f) = (headerOf r.pattern).f ∧
      0 &&& (headerOf r.mask).z = (headerOf r.pattern).z ∧
      imm &&& (headerOf r.mask).imm = (headerOf r.pattern).imm := by
  rw [OpRow.selects_iff]
  simp only [mkFrame, headerOf_headerWord]

theorem and_zero_fields (idx : BitVec 4) (imm : Half) :
    idx &&& 0 = 0 ∧ imm &&& 0 = 0 := ⟨BitVec.and_zero, BitVec.and_zero⟩

theorem irqInit : Statement .irqInit := by
  refine ⟨opTable[0], by decide, rfl, rfl, (selects_mkFrame _ _ _ _ _ _ _ _).2 ⟨by decide, ?_, ?_, by decide, ?_⟩⟩
  · decide
  · decide
  · decide

theorem irqSeth (idx : BitVec 4) (f : Bool) (a : Word) : Statement (.irqSeth idx f a) := by
  refine ⟨opTable[1], by decide, rfl, rfl, (selects_mkFrame _ _ _ _ _ _ _ _).2 ⟨by decide, ?_, ?_, by decide, ?_⟩⟩
  · exact BitVec.and_zero
  · exact Bool.and_false _
  · decide

theorem irqEn (idx : BitVec 4) : Statement (.irqEn idx) := by
  refine ⟨opTable[2], by decide, rfl, rfl, (selects_mkFrame _ _ _ _ _ _ _ _).2 ⟨by decide, ?_, ?_, by decide, ?_⟩⟩
  · exact BitVec.and_zero
  · decide
  · decide

theorem irqDis (idx : BitVec 4) : Statement (.irqDis idx) := by
  refine ⟨opTable[3], by decide, rfl, rfl, (selects_mkFrame _ _ _ _ _ _ _ _).2 ⟨by decide, ?_, ?_, by decide, ?_⟩⟩
  · exact BitVec.and_zero
  · decide
  · decide

theorem irqVcnt (imm : Half) : Statement (.irqVcnt imm) := by
  refine ⟨opTable[4], by decide, rfl, rfl, (selects_mkFrame _ _ _ _ _ _ _ _).2 ⟨by decide, ?_, ?_, by decide, ?_⟩⟩
  · decide
  · decide
  · exact BitVec.and_zero

theorem keyUpd : Statement .keyUpd := by
  refine ⟨opTable[5], by decide, rfl, rfl, (selects_mkFrame _ _ _ _ _ _ _ _).2 ⟨by decide, ?_, ?_, by decide, ?_⟩⟩
  · decide
  · decide
  · decide

theorem keyPrs : Statement .keyPrs := by
  refine ⟨opTable[6], by decide, rfl, rfl, (selects_mkFrame _ _ _ _ _ _ _ _).2 ⟨by decide, ?_, ?_, by decide, ?_⟩⟩
  · decide
  · decide
  · decide

theorem keyHld : Statement .keyHld := by
  refine ⟨opTable[7], by decide, rfl, rfl, (selects_mkFrame _ _ _ _ _ _ _ _).2 ⟨by decide, ?_, ?_, by decide, ?_⟩⟩
  · decide
  · decide
  · decide

theorem keyRel : Statement .keyRel := by
  refine ⟨opTable[8], by decide, rfl, rfl, (selects_mkFrame _ _ _ _ _ _ _ _).2 ⟨by decide, ?_, ?_, by decide, ?_⟩⟩
  · decide
  · decide
  · decide

theorem keyIrqall (imm : Half) : Statement (.keyIrqall imm) := by
  refine ⟨opTable[9], by decide, rfl, rfl, (selects_mkFrame _ _ _ _ _ _ _ _).2 ⟨by decide, ?_, ?_, by decide, ?_⟩⟩
  · decide
  · decide
  · exact BitVec.and_zero

theorem keyIrqany (imm : Half) : Statement (.keyIrqany imm) := by
  refine ⟨opTable[10], by decide, rfl, rfl, (selects_mkFrame _ _ _ _ _ _ _ _).2 ⟨by decide, ?_, ?_, by decide, ?_⟩⟩
  · decide
  · decide
  · exact BitVec.and_zero

theorem keyIrqoff : Statement .keyIrqoff := by
  refine ⟨opTable[11], by decide, rfl, rfl, (selects_mkFrame _ _ _ _ _ _ _ _).2 ⟨by decide, ?_, ?_, by decide, ?_⟩⟩
  · decide
  · decide
  · decide

theorem dmaCopy (idx : BitVec 4) (f : Bool) (a : Word) (b : Word) (c : Word) : Statement (.dmaCopy idx f a b c) := by
  refine ⟨opTable[12], by decide, rfl, rfl, (selects_mkFrame _ _ _ _ _ _ _ _).2 ⟨by decide, ?_, ?_, by decide, ?_⟩⟩
  · exact BitVec.and_zero
  · exact Bool.and_false _
  · decide

theorem dmaFill (idx : BitVec 4) (f : Bool) (a : Word) (b : Word) (c : Word) : Statement (.dmaFill idx f a b c) := by
  refine ⟨opTable[13], by decide, rfl, rfl, (selects_mkFrame _ _ _ _ _ _ _ _).2 ⟨by decide, ?_, ?_, by decide, ?_⟩⟩
  · exact BitVec.and_zero
  · exact Bool.and_false _
  · decide

theorem dmaXfer (idx : BitVec 4) (imm : Half) (a : Word) (b : Word) (c : Word) : Statement (.dmaXfer idx imm a b c) := by
  refine ⟨opTable[14], by decide, rfl, rfl, (selects_mkFrame _ _ _ _ _ _ _ _).2 ⟨by decide, ?_, ?_, by decide, ?_⟩⟩
  · exact BitVec.and_zero
  · decide
  · exact BitVec.and_zero

theorem dmaStop (idx : BitVec 4) : Statement (.dmaStop idx) := by
  refine ⟨opTable[15], by decide, rfl, rfl, (selects_mkFrame _ _ _ _ _ _ _ _).2 ⟨by decide, ?_, ?_, by decide, ?_⟩⟩
  · exact BitVec.and_zero
  · decide
  · decide

theorem sramWr (a : Word) (b : Word) (c : Word) : Statement (.sramWr a b c) := by
  refine ⟨opTable[16], by decide, rfl, rfl, (selects_mkFrame _ _ _ _ _ _ _ _).2 ⟨by decide, ?_, ?_, by decide, ?_⟩⟩
  · decide
  · decide
  · decide

theorem sramRd (a : Word) (b : Word) (c : Word) : Statement (.sramRd a b c) := by
  refine ⟨opTable[17], by decide, rfl, rfl, (selects_mkFrame _ _ _ _ _ _ _ _).2 ⟨by decide, ?_, ?_, by decide, ?_⟩⟩
  · decide
  · decide
  · decide

theorem regRd (a : Word) : Statement (.regRd a) := by
  refine ⟨opTable[18], by decide, rfl, rfl, (selects_mkFrame _ _ _ _ _ _ _ _).2 ⟨by decide, ?_, ?_, by decide, ?_⟩⟩
  · decide
  · decide
  · decide

theorem regWr (imm : Half) (a : Word) : Statement (.regWr imm a) := by
  refine ⟨opTable[19], by decide, rfl, rfl, (selects_mkFrame _ _ _ _ _ _ _ _).2 ⟨by decide, ?_, ?_, by decide, ?_⟩⟩
  · decide
  · decide
  · exact BitVec.and_zero

theorem sysWaitvbl : Statement .sysWaitvbl := by
  refine ⟨opTable[20], by decide, rfl, rfl, (selects_mkFrame _ _ _ _ _ _ _ _).2 ⟨by decide, ?_, ?_, by decide, ?_⟩⟩
  · decide
  · decide
  · decide

theorem sysFatal : Statement .sysFatal := by
  refine ⟨opTable[21], by decide, rfl, rfl, (selects_mkFrame _ _ _ _ _ _ _ _).2 ⟨by decide, ?_, ?_, by decide, ?_⟩⟩
  · decide
  · decide
  · decide

theorem evtDispatch (idx : BitVec 4) : Statement (.evtDispatch idx) := by
  refine ⟨opTable[22], by decide, rfl, rfl, (selects_mkFrame _ _ _ _ _ _ _ _).2 ⟨by decide, ?_, ?_, by decide, ?_⟩⟩
  · exact BitVec.and_zero
  · decide
  · decide

theorem evtHdone (idx : BitVec 4) : Statement (.evtHdone idx) := by
  refine ⟨opTable[23], by decide, rfl, rfl, (selects_mkFrame _ _ _ _ _ _ _ _).2 ⟨by decide, ?_, ?_, by decide, ?_⟩⟩
  · exact BitVec.and_zero
  · decide
  · decide

theorem evtLine : Statement .evtLine := by
  refine ⟨opTable[24], by decide, rfl, rfl, (selects_mkFrame _ _ _ _ _ _ _ _).2 ⟨by decide, ?_, ?_, by decide, ?_⟩⟩
  · decide
  · decide
  · decide

theorem evtHbl : Statement .evtHbl := by
  refine ⟨opTable[25], by decide, rfl, rfl, (selects_mkFrame _ _ _ _ _ _ _ _).2 ⟨by decide, ?_, ?_, by decide, ?_⟩⟩
  · decide
  · decide
  · decide

theorem evtKeys (imm : Half) : Statement (.evtKeys imm) := by
  refine ⟨opTable[26], by decide, rfl, rfl, (selects_mkFrame _ _ _ _ _ _ _ _).2 ⟨by decide, ?_, ?_, by decide, ?_⟩⟩
  · decide
  · decide
  · exact BitVec.and_zero

end Sys2Proof.Laws.EncodeSelectsRow
end

