-- ==== Sys2Proof/Laws/Units.lean ====
section
/-! SUPPORT. A unit read from plain memory, a unit written to plain memory, and all the units of a burst there, said once:
the bytes, little-endian, and that nothing but `Mem` (and the channel's record) changes. -/

namespace Sys2Proof.Machine

/-- Every byte of the unit at `a` is off the registers and out of the SRAM region. -/
def PlainUnit (c : Platform) (u32 : Bool) (a : Word) : Prop :=
  ∀ j, j < (unitBytes u32).toNat → onRegister c (a + BitVec.ofNat 32 j) = false ∧ inSram c (a + BitVec.ofNat 32 j) = false

/-- Every byte of the unit at `a` is out of the mass-storage range. -/
def NoRomUnit (c : Platform) (u32 : Bool) (a : Word) : Prop := ∀ j, j < (unitBytes u32).toNat → inRom c (a + BitVec.ofNat 32 j) = false

theorem regAt_of_onRegister {c : Platform} {a : Word} (h : onRegister c a = false) : regAt c a = none := by
  simp only [onRegister, Bool.or_eq_false_iff, Option.isSome_eq_false_iff, Option.isNone_iff_eq_none] at h
  exact h.1

theorem PlainUnit.half {c : Platform} {a : Word} (h : PlainUnit c false a) : regAt c a = none ∧ inSram c a = false := by
  have h0 := h 0 (by decide)
  simp only [BitVec.add_zero] at h0
  exact ⟨regAt_of_onRegister h0.1, h0.2⟩

theorem PlainUnit.word {c : Platform} {a : Word} (h : PlainUnit c true a) : regAt c a = none ∧ inSram c a = false ∧ regAt c (a + 2) = none := by
  have h0 := h 0 (by decide)
  simp only [BitVec.add_zero] at h0
  exact ⟨regAt_of_onRegister h0.1, h0.2, regAt_of_onRegister (h 2 (by decide)).1⟩

theorem NoRomUnit.first {c : Platform} {u32 : Bool} {a : Word} (h : NoRomUnit c u32 a) : inRom c a = false := by
  simpa using h 0 (by cases u32 <;> decide)

/-- Two places of one unit are different addresses. -/
theorem unit_places {a : Word} {j k : Nat} (hj : j < 4) (hk : k < 4) (h : a + BitVec.ofNat 32 j = a + BitVec.ofNat 32 k) :
    j = k := by
  have h1 := congrArg BitVec.toNat h
  simp only [BitVec.toNat_add, BitVec.toNat_ofNat] at h1
  have h2 : j % 2 ^ 32 = j := Nat.mod_eq_of_lt (by omega)
  have h3 : k % 2 ^ 32 = k := Nat.mod_eq_of_lt (by omega)
  rw [h2, h3] at h1
  have := a.isLt
  omega

theorem byteOf_append (hi lo : Byte) : (hi ++ lo).extractLsb' 0 8 = lo ∧ (hi ++ lo).extractLsb' 8 8 = hi := by
  constructor <;> (apply BitVec.eq_of_getLsbD_eq; intro k hk; rw [BitVec.getLsbD_extractLsb', BitVec.getLsbD_append])
  · simp [hk]
  · have : ¬ 8 + k < 8 := by omega
    simp [hk]

/-- A half put in memory, byte by byte. -/
theorem readByte_pokeHalf {t : State} (hw : t.mem.wf = true) (a : Word) (v : Half) :
    readByte (pokeHalf a v t) a = v.extractLsb' 0 8 ∧ readByte (pokeHalf a v t) (a + 1) = v.extractLsb' 8 8 := by
  have hne : a ≠ a + 1 := by
    intro h
    have := unit_places (a := a) (j := 0) (k := 1) (by decide) (by decide) (by simp at h)
    omega
  unfold pokeHalf
  constructor
  · rw [readByte_pokeByte_ne hne]
    exact Memory.read_write_same hw _ _
  · exact Memory.read_write_same (pokeByte_wf hw _ _) _ _

theorem halfBytes (v : Word) :
    (v.extractLsb' 0 16).extractLsb' 0 8 = v.extractLsb' 0 8 ∧ (v.extractLsb' 0 16).extractLsb' 8 8 = v.extractLsb' 8 8 ∧
      (v.extractLsb' 16 16).extractLsb' 0 8 = v.extractLsb' 16 8 ∧
      (v.extractLsb' 16 16).extractLsb' 8 8 = v.extractLsb' 24 8 := by
  refine ⟨?_, ?_, ?_, ?_⟩ <;>
    (apply BitVec.eq_of_getLsbD_eq; intro k hk; simp only [BitVec.getLsbD_extractLsb', hk, decide_true, Bool.true_and])
  · have : 0 + k < 16 := by omega
    simp only [this, decide_true, Bool.true_and]
    congr 1; omega
  · have : 8 + k < 16 := by omega
    simp only [this, decide_true, Bool.true_and]
    congr 1; omega
  · have : 0 + k < 16 := by omega
    simp only [this, decide_true, Bool.true_and]
    congr 1; omega
  · have : 8 + k < 16 := by omega
    simp only [this, decide_true, Bool.true_and]
    congr 1; omega

/-- A unit written to plain memory: only `Mem` changes, its bytes are the value's, little-endian, every other byte stays. -/
theorem dmaWrite_plain {u32 : Bool} {a : Word} {t : State} (hp : PlainUnit t.conf u32 a) (hr : NoRomUnit t.conf u32 a)
    (v : Word) (hw : t.mem.wf = true) :
    ∃ m : Memory, dmaWrite a u32 v t = t.setMem m ∧ m.wf = true ∧
      (∀ j, j < (unitBytes u32).toNat → Memory.read m (a + BitVec.ofNat 32 j).toNat = v.extractLsb' (8 * j) 8) ∧
      (∀ x, OffUnit u32 a x → Memory.read m x.toNat = readByte t x) := by
  cases u32 with
  | false =>
    obtain ⟨h1, h2⟩ := hp.half
    have he : dmaWrite a false v t = pokeHalf a (v.extractLsb' 0 16) t := by
      simp [dmaWrite, memWrite16, h1, h2, hr.first]
    obtain ⟨e0, e1⟩ := readByte_pokeHalf hw a (v.extractLsb' 0 16)
    refine ⟨(pokeHalf a (v.extractLsb' 0 16) t).mem, he, pokeHalf_wf hw _ _, ?_, ?_⟩
    · intro j hj
      have hj' : j < 2 := hj
      have : j = 0 ∨ j = 1 := by omega
      rcases this with rfl | rfl
      · simp only [BitVec.add_zero]
        exact e0.trans (halfBytes v).1
      · exact e1.trans (halfBytes v).2.1
    · intro x hx
      exact readByte_pokeHalf_ne hx.half.1 hx.half.2 _ _
  | true =>
    obtain ⟨h1, h2, h3⟩ := hp.word
    have hr2 : inRom t.conf (a + 2) = false := hr 2 (by decide)
    have he : dmaWrite a true v t = pokeHalf (a + 2) (v.extractLsb' 16 16) (pokeHalf a (v.extractLsb' 0 16) t) := by
      have h3' : regAt t.conf (a + 2#32) = none := h3
      have hr2' : inRom t.conf (a + 2#32) = false := hr2
      simp [dmaWrite, memWrite32, memWrite16, h1, h2, h3', hr.first, hr2']
    have hw1 := pokeHalf_wf hw a (v.extractLsb' 0 16)
    obtain ⟨e0, e1⟩ := readByte_pokeHalf hw a (v.extractLsb' 0 16)
    obtain ⟨e2, e3⟩ := readByte_pokeHalf hw1 (a + 2) (v.extractLsb' 16 16)
    have hpl {j k : Nat} (hj : j < 4) (hk : k < 4) (hne : j ≠ k) : a + BitVec.ofNat 32 j ≠ a + BitVec.ofNat 32 k :=
      fun h => hne (unit_places hj hk h)
    have a3 : a + 2 + 1 = a + 3 := by rw [BitVec.add_assoc]; rfl
    refine ⟨_, he, pokeHalf_wf hw1 _ _, ?_, ?_⟩
    · intro j hj
      have hj' : j < 4 := hj
      have : j = 0 ∨ j = 1 ∨ j = 2 ∨ j = 3 := by omega
      rcases this with rfl | rfl | rfl | rfl
      · have n1 : a ≠ a + 2 := by simp
        have n2 : a ≠ a + 2 + 1 := by
          rw [a3]; simp
        simp only [BitVec.add_zero]
        exact (readByte_pokeHalf_ne n1 n2 _ _).trans (e0.trans (halfBytes v).1)
      · have n1 : a + 1 ≠ a + 2 := hpl (j := 1) (k := 2) (by decide) (by decide) (by decide)
        have n2 : a + 1 ≠ a + 2 + 1 := by
          rw [a3]; exact hpl (j := 1) (k := 3) (by decide) (by decide) (by decide)
        exact (readByte_pokeHalf_ne n1 n2 _ _).trans (e1.trans (halfBytes v).2.1)
      · exact e2.trans (halfBytes v).2.2.1
      · rw [a3] at e3
        exact e3.trans (halfBytes v).2.2.2
    · intro x hx
      obtain ⟨⟨n0, n1⟩, n2, n3⟩ := hx.word
      show readByte (pokeHalf (a + 2) _ _) x = _
      rw [readByte_pokeHalf_ne n2 n3, readByte_pokeHalf_ne n0 n1]

/-- A unit read from plain memory the channel reaches: no state changes, its bytes are the memory's, little-endian. -/
theorem dmaRead_plain {ch : Channel} {u32 : Bool} {a : Word} {t : State} (hp : PlainUnit t.conf u32 a)
    (hc : capViolation t.conf ch a = false) :
    ∃ v : Word, dmaRead ch a u32 t = (v, t) ∧
      ∀ j, j < (unitBytes u32).toNat → v.extractLsb' (8 * j) 8 = readByte t (a + BitVec.ofNat 32 j) := by
  cases u32 with
  | false =>
    obtain ⟨h1, h2⟩ := hp.half
    refine ⟨(readByte t (a + 1) ++ readByte t a).setWidth 32, ?_, ?_⟩
    · simp [dmaRead, hc, h2, memRead16, h1]
    · intro j hj
      have hj' : j < 2 := hj
      have hb := byteOf_append (readByte t (a + 1)) (readByte t a)
      have hs (i : Nat) (hi : i + 8 ≤ 16) (w : Half) : (w.setWidth 32).extractLsb' i 8 = w.extractLsb' i 8 := by
        apply BitVec.eq_of_getLsbD_eq
        intro k hk
        have : i + k < 32 := by omega
        simp [hk, this]
      have : j = 0 ∨ j = 1 := by omega
      rcases this with rfl | rfl
      · rw [hs _ (by decide)]; simp only [BitVec.add_zero]; exact hb.1
      · rw [hs _ (by decide)]; exact hb.2
  | true =>
    obtain ⟨h1, h2, h3⟩ := hp.word
    have a3 : a + 2 + 1 = a + 3 := by rw [BitVec.add_assoc]; rfl
    refine ⟨(readByte t (a + 2 + 1) ++ readByte t (a + 2)) ++ (readByte t (a + 1) ++ readByte t a), ?_, ?_⟩
    · have h3' : regAt t.conf (a + 2#32) = none := h3
      simp [dmaRead, hc, h2, memRead32, memRead16, h1, h3']
    · intro j hj
      have hj' : j < 4 := hj
      have hlo := byteOf_append (readByte t (a + 1)) (readByte t a)
      have hhi := byteOf_append (readByte t (a + 2 + 1)) (readByte t (a + 2))
      have hl (i : Nat) (hi : i + 8 ≤ 16) (x y : Half) : (x ++ y).extractLsb' i 8 = y.extractLsb' i 8 := by
        apply BitVec.eq_of_getLsbD_eq
        intro k hk
        have : i + k < 16 := by omega
        rw [BitVec.getLsbD_extractLsb', BitVec.getLsbD_extractLsb', BitVec.getLsbD_append, if_pos this]
      have hh (i : Nat) (x y : Half) : (x ++ y).extractLsb' (16 + i) 8 = x.extractLsb' i 8 := by
        apply BitVec.eq_of_getLsbD_eq
        intro k hk
        have h1 : ¬ 16 + i + k < 16 := by omega
        have h2 : 16 + i + k - 16 = i + k := by omega
        rw [BitVec.getLsbD_extractLsb', BitVec.getLsbD_extractLsb', BitVec.getLsbD_append, if_neg h1, h2]
      have : j = 0 ∨ j = 1 ∨ j = 2 ∨ j = 3 := by omega
      rcases this with rfl | rfl | rfl | rfl
      · rw [hl _ (by decide)]; simp only [BitVec.add_zero]; exact hlo.1
      · rw [hl _ (by decide)]; exact hlo.2
      · exact (hh 0 _ _).trans hhi.1
      · refine (hh 8 _ _).trans (hhi.2.trans ?_)
        rw [a3]; rfl

/-! ## The units of a burst over plain memory -/

/-- The unit that starts `n` steps of `w` bytes past `a`. -/
def unitAt (a w : Word) (n : Nat) : Word := a + BitVec.ofNat 32 n * w

/-- Byte `j` of a unit: of the fill value, or of the unit at `a` as it stands in `t`. -/
def unitByte (fill : Option Word) (t : State) (a : Word) (j : Nat) : Byte :=
  match fill with
  | some v => v.extractLsb' (8 * j) 8
  | none => readByte t (a + BitVec.ofNat 32 j)

/-- The units in the other order: the last one after all the others. -/
theorem burstUnits_last (ch : Channel) (fill : Option Word) (c : Half) (n : Nat) (t : State) :
    burstUnits ch fill c (n + 1) t = burstUnit ch fill c (burstUnits ch fill c n t) := by
  induction n generalizing t with
  | zero => rfl
  | succ n ih => rw [burstUnits, ih, ← burstUnits]

/-- What the units of a burst do when every unit read and written lies in plain memory, no unit written shares a byte with
a unit read, and the units written share none unless the destination is fixed: only `Mem` and the channel's record change;
each unit holds the bytes it was read as, or the fill value's, the last unit's where the destination is fixed; every
other byte stays (42_dma.md R183). -/
theorem burstUnits_plain (ch : Channel) (fill : Option Word) (c : Half) (n : Nat) {t : State} (hw : t.mem.wf = true)
    (hs : fill = none → ∀ i, i < n → PlainUnit t.conf (ctrlU32 c) (unitAt t.dma[ch].wsrc (srcStep c) i) ∧
      capViolation t.conf ch (unitAt t.dma[ch].wsrc (srcStep c) i) = false)
    (hd : ∀ i, i < n → PlainUnit t.conf (ctrlU32 c) (unitAt t.dma[ch].wdst (dstStep c) i) ∧
      NoRomUnit t.conf (ctrlU32 c) (unitAt t.dma[ch].wdst (dstStep c) i))
    (hsd : fill = none → ∀ i k, i < n → k < n → ∀ j, j < (unitBytes (ctrlU32 c)).toNat →
      OffUnit (ctrlU32 c) (unitAt t.dma[ch].wdst (dstStep c) k) (unitAt t.dma[ch].wsrc (srcStep c) i + BitVec.ofNat 32 j))
    (hdd : ctrlDm c ≠ 2 → ∀ i k, i < k → k < n → ∀ j, j < (unitBytes (ctrlU32 c)).toNat →
      OffUnit (ctrlU32 c) (unitAt t.dma[ch].wdst (dstStep c) k) (unitAt t.dma[ch].wdst (dstStep c) i + BitVec.ofNat 32 j)) :
    ∃ m : Memory, m.wf = true ∧ burstUnits ch fill c n t = (t.setMem m).setDma (burstUnits ch fill c n t).dma ∧
      (∀ i j, i < n → j < (unitBytes (ctrlU32 c)).toNat → (ctrlDm c = 2 → i + 1 = n) →
        Memory.read m (unitAt t.dma[ch].wdst (dstStep c) i + BitVec.ofNat 32 j).toNat =
          unitByte fill t (unitAt t.dma[ch].wsrc (srcStep c) i) j) ∧
      (∀ x, (∀ i, i < n → OffUnit (ctrlU32 c) (unitAt t.dma[ch].wdst (dstStep c) i) x) →
        Memory.read m x.toNat = readByte t x) := by
  induction n with
  | zero => exact ⟨t.mem, hw, rfl, fun i j hi => absurd hi (by omega), fun x _ => rfl⟩
  | succ n ih =>
    obtain ⟨m, hmw, hm, hmb, hmo⟩ := ih (fun hf i hi => hs hf i (by omega)) (fun i hi => hd i (by omega))
      (fun hf i k hi hk => hsd hf i k (by omega) (by omega)) (fun h2 i k hi hk => hdd h2 i k hi (by omega))
    set u := burstUnits ch fill c n t with hu
    have hum : u.mem = m := by rw [hm]; rfl
    have huc : u.conf = t.conf := by rw [hm]; rfl
    have hread (x : Word) : readByte u x = Memory.read m x.toNat := by rw [readByte, hum]
    have hch : u.dma[ch] = _ := burstUnits_channel ch fill c n t
    have hsrc : u.dma[ch].wsrc = unitAt t.dma[ch].wsrc (srcStep c) n := by rw [hch]; rfl
    have hdst : u.dma[ch].wdst = unitAt t.dma[ch].wdst (dstStep c) n := by rw [hch]; rfl
    obtain ⟨hp, hr⟩ := hd n (by omega)
    have hval : ∃ v : Word, unitValue ch fill c u = (v, u) ∧ ∀ j, j < (unitBytes (ctrlU32 c)).toNat →
        v.extractLsb' (8 * j) 8 = unitByte fill t (unitAt t.dma[ch].wsrc (srcStep c) n) j := by
      cases fill with
      | some v => exact ⟨v, rfl, fun j _ => rfl⟩
      | none =>
        obtain ⟨hps, hc⟩ := hs rfl n (by omega)
        rw [← huc] at hps hc
        obtain ⟨v, hv, hvb⟩ := dmaRead_plain hps hc
        refine ⟨v, by rw [unitValue, hsrc, hv], fun j hj => ?_⟩
        rw [hvb j hj, hread]
        exact hmo _ (fun i hi => hsd rfl n i (by omega) (by omega) j hj)
    obtain ⟨v, hv, hvb⟩ := hval
    rw [← huc] at hp hr
    obtain ⟨m2, hw2, hm2w, hm2b, hm2o⟩ := dmaWrite_plain hp hr v (by rw [hum]; exact hmw)
    have hlast : burstUnits ch fill c (n + 1) t = (u.setMem m2).setChannel ch (u.dma[ch].advance c) := by
      rw [burstUnits_last, ← hu, burstUnit_eq, hv, hdst, hw2]
    refine ⟨m2, hm2w, ?_, ?_, ?_⟩
    · rw [hlast, hm]; rfl
    · intro i j hi hj hfix
      by_cases hin : i = n
      · subst hin
        rw [hm2b j hj, hvb j hj]
      · have hne : ctrlDm c ≠ 2 := fun h2 => hin (by have := hfix h2; omega)
        rw [hm2o _ (hdd hne i n (by omega) (by omega) j hj), hread]
        exact hmb i j (by omega) hj (fun h2 => absurd h2 hne)
    · intro x hx
      rw [hm2o _ (hx n (by omega)), hread]
      exact hmo x (fun i hi => hx i (by omega))

end Sys2Proof.Machine
end

