-- ==== Sys2Proof/Tests/Slice0.lean ====
section
/-! SUPPORT. Tests on one frame each, their expected results from spec/95_test_vectors.md (the section is named in the
docstring) or from the rule named, and a witness for the hypotheses of every obligation that has some. -/

namespace Sys2Proof.Machine

/-! ## Helpers -/

/-- What `f` reads from the state a result leads to. -/
def ask {α : Type} (r : Result) (f : State → α) : Option α :=
  match r with
  | .next t => some (f t)
  | .fault _ => none
  | .refused _ => none

/-- The refusal a result is. -/
def refusalOf (r : Result) : Option Refusal :=
  match r with
  | .next _ => none
  | .fault _ => none
  | .refused x => some x

/-- The fault a result is. -/
def faultOf (r : Result) : Option Fault :=
  match r with
  | .next _ => none
  | .fault x => some x
  | .refused _ => none

/-- Reset with every button up: `EVT.KEYS 0xFFFF` has ended the reset draw. -/
def calm : State := { State.reset with keyinput := 0xFFFF }

/-- `calm` with these bytes at an address. -/
def calmWith (a : Nat) (bytes : List Byte) : State :=
  { calm with mem := (bytes.foldl (fun (p : Memory × Nat) b => (Memory.write p.1 p.2 b, p.2 + 1)) (([], a) : Memory × Nat)).1 }

/-- The `n` bytes at an address. -/
def bytesAt (t : State) (a : Nat) (n : Nat) : List Byte := (List.range n).map fun k => Memory.read t.mem (a + k)

/-- With KEYCNT and the edge memory 0 the line is low and remembered low. -/
theorem settled_of_off {s : State} (hp : s.kpLinePrev = false) (hc : s.keycnt = 0) : KeypadSettled s := by
  simp [KeypadSettled, keypadLine, hp, hc]

/-- Two indices below one bound, taken in the other order. -/
theorem both_below {n : Nat} {P : Nat → Nat → Prop} (h : ∀ j, j < n → ∀ k, k < n → P j k) :
    ∀ j k, j < n → k < n → P j k := fun j k hj hk => h j hj k hk

/-! ## The configuration -/

/-- R4: two of the eight source indices equal. -/
theorem test_config_equal_indices_refused : ¬ ({ cfg with idxKeypad := 0 } : Config).Valid := fun h => absurd h.1 (by decide)

/-- R4: a display frame whose parts do not add up. -/
theorem test_config_lines_refused : ¬ ({ cfg with linesVblank := 67 } : Config).Valid := fun h =>
  absurd h.2.2.2.2.2.2.1 (by decide)

/-- R4: a register inside the SRAM region. -/
theorem test_config_register_in_sram_refused : ¬ ({ cfg with addrIe := 0x0E000000 } : Config).Valid := fun h =>
  absurd (h.2.2.2.2.2.2.2.2.2.2.2.2.2.2.2.1 0x0E000000 (by decide)).2.2.2 (by decide)

/-- Log entry 16: an empty SRAM region just past mass storage is accepted, one whose base lies inside it is refused. -/
theorem test_config_empty_region : ({ cfg with sramSize := 0 } : Config).Valid ∧
    ¬ ({ cfg with sramBase := 0x09000000, sramSize := 0 } : Config).Valid :=
  ⟨by refine ⟨?_, ?_, ?_, ?_, ?_, ?_, ?_, ?_, ?_, ?_, ?_, ?_, ?_, ?_, ?_, ?_, ?_, ?_⟩ <;> decide,
    fun h => absurd h.2.2.2.2.2.2.2.2.2.2.2.2.2.2.1 (by decide)⟩

/-- Another platform: 16 sources, the keypad at index 3 (90_conflicts.md C9), a display of 100 + 20 lines, 16 KiB of SRAM,
channel 0 for mass storage, IE at another address. -/
def otherPlatform : Platform :=
  { { cfg with nSources := 16, idxKeypad := 3, linesTotal := 120, linesVisible := 100, linesVblank := 20, dmaRomChannel := 0,
               sramSize := 0x4000, addrIe := 0x04000210, keySelMask := 0x0003 } with
    ok := by refine ⟨?_, ?_, ?_, ?_, ?_, ?_, ?_, ?_, ?_, ?_, ?_, ?_, ?_, ?_, ?_, ?_, ?_, ?_⟩ <;> decide }

/-- The machine of that platform after start-up, every button up. -/
def other : State := { State.startUp otherPlatform [] 0 with keyinput := 0xFFFF }

/-- C9: the Keypad event of that platform is source 3; VBlank starts on its line 100. -/
theorem test_other_events : ask (exec (.evtKeys 0xFFFE) { other with keycnt := 0x4001 }) (fun t => t.iflag) = some 0x0008 ∧
    ask (exec .evtLine { other with vcount := 99, dispstat := ⟨true, false, false, 0⟩ }) (fun t => (t.vcount, t.iflag)) =
      some (100, 1) ∧
    ask (exec .evtLine { other with vcount := 119 }) (fun t => t.vcount) = some 0 := by decide

/-- The mass-storage channel, the size of the storage, the register map and the sources of that platform. -/
theorem test_other_checks : ask (exec (.dmaCopy 0 true 0x08000000 0x02000000 0) other) (fun t => t.out) = some [.resp .ok 0] ∧
    ask (exec (.dmaCopy 3 true 0x08000000 0x02000000 0) other) (fun t => t.out) = some [.resp .capability 0] ∧
    ask (exec (.sramWr 0x0E000000 0x02000000 0x4001) other) (fun t => t.out) = some [.resp .sramSize 0] ∧
    ask (exec (.regWr 7 0x04000200) other) (fun t => t.out) = some [.resp .access 0] ∧
    ask (exec (.regWr 7 0x04000210) other) (fun t => t.ie) = some 7 ∧
    ask (exec (.irqSeth 15 true 9) other) (fun t => t.out) = some [.resp .ok 0] ∧
    ask (exec (.keyIrqany 0xFFFF) other) (fun t => t.keycnt) = some 0x4003 := by decide

/-! ## Well-formed operations: one ill-formed term for each check -/

/-- Well-formed on the default platform. -/
def wf (i : Instr) : Bool := i.wellFormed Platform.standard

theorem test_wf_accepts :
    wf (.irqSeth 13 true 0) = true ∧ wf (.dmaCopy 3 true 0x08000000 0 0) = true ∧
    wf (.dmaXfer 0 0x2300 0x04000006 0x02000000 1) = true ∧
    wf (.sramWr 0x0E000000 0x02000000 4) = true ∧ wf (.sramRd 0x02000100 0x0E000000 4) = true ∧
    wf (.regWr 4 0x04000202) = true := by decide

theorem test_wf_source_14 : wf (.irqSeth 14 true 0) = false ∧ wf (.irqEn 14) = false ∧
    wf (.irqDis 14) = false ∧ wf (.evtDispatch 14) = false ∧
    wf (.evtHdone 14) = false := by decide

theorem test_wf_channel_4 : wf (.dmaCopy 4 false 0 0 0) = false ∧
    wf (.dmaFill 4 false 0 0 0) = false ∧ wf (.dmaXfer 4 0 0 0 0) = false ∧
    wf (.dmaStop 4) = false := by decide

theorem test_wf_capability : wf (.dmaCopy 0 true 0x08000000 0 0) = false ∧
    wf (.dmaXfer 2 0x1000 0x0DFFFFFF 0 0) = false := by decide

theorem test_wf_reserved_control : wf (.dmaXfer 0 0x3000 0 0 0) = false ∧
    wf (.dmaXfer 0 0x0001 0 0 0) = false ∧ wf (.dmaXfer 0 0x0800 0 0 0) = false ∧
    wf (.dmaXfer 0 0x0020 0 0 0) = false ∧ wf (.dmaXfer 0 0x0080 0 0 0) = false ∧
    wf (.dmaXfer 0 0x0180 0 0 0) = false := by decide

theorem test_wf_storage_bounds : wf (.sramWr 0x0E000000 0x02000000 0x10001) = false ∧
    wf (.sramWr 0x0DFFFFFF 0x02000000 4) = false ∧
    wf (.sramRd 0x02000000 0x0E00FFFD 4) = false := by decide

theorem test_wf_storage_register : wf (.sramWr 0x0E000000 0x04000200 2) = false ∧
    wf (.sramRd 0x04000201 0x0E000000 1) = false := by decide

theorem test_wf_register_address : wf (.regRd 0x04000005) = false ∧
    wf (.regWr 0 0x04000204) = false ∧ wf (.regWr 0 0x04000006) = false := by decide

/-! ## Decoding: the words of spec/95_test_vectors.md, one for every operation -/

theorem test_decode_irqInit : decode ⟨0x00000001, 0, 0, 0, 0⟩ = .ok .irqInit := rfl
theorem test_decode_irqSeth : decode ⟨0x00001C02, 0x08000200, 0, 0, 0⟩ = .ok (.irqSeth 12 true 0x08000200) := rfl
theorem test_decode_irqEn : decode ⟨0x00000103, 0, 0, 0, 0⟩ = .ok (.irqEn 1) := rfl
theorem test_decode_irqDis : decode ⟨0x00000104, 0, 0, 0, 0⟩ = .ok (.irqDis 1) := rfl
theorem test_decode_irqVcnt : decode ⟨0x00E30005, 0, 0, 0, 0⟩ = .ok (.irqVcnt 227) := rfl
theorem test_decode_keyUpd : decode ⟨0x00000010, 0, 0, 0, 0⟩ = .ok .keyUpd := rfl
theorem test_decode_keyPrs : decode ⟨0x00000011, 0, 0, 0, 0⟩ = .ok .keyPrs := rfl
theorem test_decode_keyHld : decode ⟨0x00000012, 0, 0, 0, 0⟩ = .ok .keyHld := rfl
theorem test_decode_keyRel : decode ⟨0x00000013, 0, 0, 0, 0⟩ = .ok .keyRel := rfl
theorem test_decode_keyIrqall : decode ⟨0x00030014, 0, 0, 0, 0⟩ = .ok (.keyIrqall 3) := rfl
theorem test_decode_keyIrqany : decode ⟨0x03000015, 0, 0, 0, 0⟩ = .ok (.keyIrqany 0x0300) := rfl
theorem test_decode_keyIrqoff : decode ⟨0x00000016, 0, 0, 0, 0⟩ = .ok .keyIrqoff := rfl
theorem test_decode_dmaCopy : decode ⟨0x00001320, 0x08000000, 0x02000300, 0x00000008, 0⟩ =
    .ok (.dmaCopy 3 true 0x08000000 0x02000300 8) := rfl
theorem test_decode_dmaFill : decode ⟨0x00000121, 0x1234BEEF, 0x02000010, 0x00000006, 0⟩ =
    .ok (.dmaFill 1 false 0x1234BEEF 0x02000010 6) := rfl
theorem test_decode_dmaXfer : decode ⟨0x42400222, 0x02000000, 0x02000100, 0x00000003, 0⟩ =
    .ok (.dmaXfer 2 0x4240 0x02000000 0x02000100 3) := rfl
theorem test_decode_dmaStop : decode ⟨0x00000323, 0, 0, 0, 0⟩ = .ok (.dmaStop 3) := rfl
theorem test_decode_sramWr : decode ⟨0x00000030, 0x0E000000, 0x02000000, 0x00010001, 0⟩ =
    .ok (.sramWr 0x0E000000 0x02000000 0x10001) := rfl
theorem test_decode_sramRd : decode ⟨0x00000031, 0x02000100, 0x0E000000, 0x00000004, 0⟩ =
    .ok (.sramRd 0x02000100 0x0E000000 4) := rfl
theorem test_decode_regRd : decode ⟨0x00000038, 0x04000202, 0, 0, 0⟩ = .ok (.regRd 0x04000202) := rfl
theorem test_decode_regWr : decode ⟨0xE4380039, 0x04000004, 0, 0, 0⟩ = .ok (.regWr 0xE438 0x04000004) := rfl
theorem test_decode_sysWaitvbl : decode ⟨0x0000003E, 0, 0, 0, 0⟩ = .ok .sysWaitvbl := rfl
theorem test_decode_sysFatal : decode ⟨0x0000003F, 0, 0, 0, 0⟩ = .ok .sysFatal := rfl
theorem test_decode_evtDispatch : decode ⟨0x00000C80, 0, 0, 0, 0⟩ = .ok (.evtDispatch 12) := rfl
theorem test_decode_evtHdone : decode ⟨0x00000A81, 0, 0, 0, 0⟩ = .ok (.evtHdone 10) := rfl
theorem test_decode_evtLine : decode ⟨0x00000082, 0, 0, 0, 0⟩ = .ok .evtLine := rfl
theorem test_decode_evtHbl : decode ⟨0x00000083, 0, 0, 0, 0⟩ = .ok .evtHbl := rfl
theorem test_decode_evtKeys : decode ⟨0xAAAA0084, 0, 0, 0, 0⟩ = .ok (.evtKeys 0xAAAA) := rfl

/-- 95 2.1: an unassigned OP. -/
theorem test_decode_unassigned : decode ⟨0x00000000, 0, 0, 0, 0⟩ = .error .unassignedOp ∧
    decode ⟨0x00000017, 0, 0, 0, 0⟩ = .error .unassignedOp ∧ decode ⟨0x000000FF, 0, 0, 0, 0⟩ = .error .unassignedOp :=
  ⟨rfl, rfl, rfl⟩

/-- 95 2.1: each field an operation does not use, nonzero. -/
theorem test_decode_reserved : decode ⟨0x00010003, 0, 0, 0, 0⟩ = .error .reservedField ∧
    decode ⟨0x00001003, 0, 0, 0, 0⟩ = .error .reservedField ∧ decode ⟨0x00000110, 0, 0, 0, 0⟩ = .error .reservedField ∧
    decode ⟨0x00010001, 1, 2, 3, 4⟩ = .error .reservedField :=
  ⟨rfl, rfl, rfl, rfl⟩

/-- 95 2.1: unused operand words are ignored. -/
theorem test_decode_ignores_operands : decode ⟨0x00000001, 1, 2, 3, 4⟩ = .ok .irqInit := rfl

/-- A row of the operation map (30_encoding.md R103) as the first frame after reset: it is taken and runs to its end. -/
theorem test_step_runs_after_reset : ∀ w ∈ [0x01, 0x02, 0x03, 0x04, 0x05, 0x10, 0x11, 0x12, 0x13, 0x14, 0x15, 0x16, 0x20,
      0x21, 0x22, 0x23, 0x38, 0x39, 0x3E, 0x3F, 0x80, 0x81, 0x82, 0x83, 0x84],
    ask (step (State.reset.withFetchWord 160 w)) (fun _ => true) = some true := by
  decide

/-- SRAM.WR and SRAM.RD with every operand 0: the target is below the region (43_storage.md R220). -/
theorem test_step_runs_storage : ask (step (State.reset.withFetchWord 160 0x30)) (fun t => t.out) = some [.resp .sramStart 0] ∧
    ask (step (State.reset.withFetchWord 160 0x31)) (fun t => t.out) = some [.resp .sramStart 0] := ⟨rfl, rfl⟩

/-! ## Acceptance -/

/-- 95 2.1: an operation presented on the wrong port. -/
theorem test_wrong_port : ask (acceptFrame .app ⟨0x00000080, 0, 0, 0, 0⟩ calm) (fun t => t.out) = some [.resp .illegal 0] ∧
    ask (acceptFrame .sub ⟨0x00000001, 0, 0, 0, 0⟩ calm) (fun t => (t.out, t.ime)) = some ([.resp .illegal 0], false) := by
  decide

/-- 95 2.1, the order of the decode steps with `halted = 1`. -/
theorem test_halted_order : let s := { calm with halted := true }
    ask (acceptFrame .app ⟨0x00000006, 0, 0, 0, 0⟩ s) (fun t => t.out) = some [.resp .illegal 0] ∧
    ask (acceptFrame .sub ⟨0x00000012, 0, 0, 0, 0⟩ s) (fun t => t.out) = some [.resp .illegal 0] ∧
    ask (acceptFrame .app ⟨0x00000012, 0, 0, 0, 0⟩ s) (fun t => t.out) = some [.resp .halted 0] ∧
    ask (acceptFrame .sub ⟨0x00000082, 0, 0, 0, 0⟩ s) (fun t => t.vcount) = some 1 := by decide

/-- 45 R264: a held APP frame stays pending and the SUB frame behind it is taken. -/
theorem test_hold : let app : Input := .frame .app ⟨0x00000012, 0, 0, 0, 0⟩
    ask (step { calm with waiting := true, pending := [app, .frame .sub ⟨0x00000082, 0, 0, 0, 0⟩] })
      (fun t => (t.pending, t.vcount)) = some ([app], 1) := by decide

/-- 70 R341: with nothing to accept a waiting block stays as it is; a halted one has ended. -/
theorem test_idle : ask (step { calm with waiting := true }) (fun t => t.waiting) = some true ∧
    faultOf (step { calm with halted := true }) = some .fatalHalt := by decide

/-- 20_memory.md R78: a store of the processor between frames lands in plain memory, not in the SRAM region. -/
theorem test_cpuStore : ask (step { calm with pending := [.cpuStore 0x02000000 7] }) (fun t => bytesAt t 0x02000000 1) = some [7] ∧
    ask (step { calm with pending := [.cpuStore 0x0E000000 7] }) (fun t => t.mem) = some [] := by decide

/-! ## Interrupt controller (95 2.2, property 1) -/

theorem test_irqInit : ask (exec .irqInit { calm with ie := 3, iflag := 3, inService := 1, dispstat := ⟨true, true, false, 0⟩ })
    (fun t => (t.ime, t.ie, t.iflag, t.inService, t.dispstat)) = some (true, 0, 0, 1, ⟨true, true, false, 0⟩) := by decide

theorem test_irqInit_vec : ask (exec .irqInit { calm with vec := calm.vec.set (srcVblank calm.conf) (some 0x08000100) })
    (fun t => t.vec[(srcVblank calm.conf)]) = some none := by decide

/-- Address 0 is a handler, not absent. -/
theorem test_irqSeth : ask (exec (.irqSeth 0 true 0) calm) (fun t => t.vec[(srcVblank calm.conf)]) = some (some 0) ∧
    ask (exec (.irqSeth 12 false 5) { calm with vec := calm.vec.set (srcKeypad calm.conf) (some 1) }) (fun t => t.vec[(srcKeypad calm.conf)]) =
      some none := by decide

theorem test_irqSeth_14 : ask (exec (.irqSeth 14 true 1) calm) (fun t => t.out) = some [.resp .source 0] := by decide

theorem test_irqEn_hblank : ask (exec (.irqEn 1) calm) (fun t => (t.ie, t.dispstat)) =
    some (0x0002, ⟨false, true, false, 0⟩) := by decide

/-- P2 frame 3: a source that is not display-linked leaves DISPSTAT. -/
theorem test_irqEn_keypad : ask (exec (.irqEn 12) calm) (fun t => (t.ie, t.dispstat)) =
    some (0x1000, ⟨false, false, false, 0⟩) := by decide

theorem test_irqDis : ask (exec (.irqDis 1) { calm with ie := 3, iflag := 2, dispstat := ⟨true, true, false, 0⟩ })
    (fun t => (t.ie, t.iflag, t.dispstat)) = some (0x0001, 2, ⟨true, false, false, 0⟩) := by decide

/-- 90_conflicts.md C1: the handler survives the disable. -/
theorem test_irqDis_keeps_vec : ask (exec (.irqDis 1) { calm with vec := calm.vec.set (srcHblank calm.conf) (some 0x08000110) })
    (fun t => t.vec[(srcHblank calm.conf)]) = some (some 0x08000110) := by decide

theorem test_irqVcnt : let s := { calm with dispstat := ⟨true, false, true, 0⟩ }
    ask (exec (.irqVcnt 227) s) (fun t => t.dispstat) = some ⟨true, false, true, 0xE3⟩ ∧
    ask (exec (.irqVcnt 228) s) (fun t => t.dispstat) = some ⟨true, false, true, 0⟩ ∧
    ask (exec (.irqVcnt 0xFFFF) s) (fun t => t.dispstat) = some ⟨true, false, true, 0x63⟩ := by decide

/-- 95 2.2, nesting: two handlers, the second event of the same source is lost. -/
theorem test_evtDispatch : let s := { calm with
      ime := true, ie := 0x1001, dispstat := ⟨true, false, false, 0⟩
      vec := (calm.vec.set (srcVblank calm.conf) (some 0x08000100)).set (srcKeypad calm.conf) (some 0x08000200) }
    ask (exec (.evtDispatch 0) s) (fun t => (t.out, t.iflag, t.inService)) =
      some ([.invoke (srcVblank calm.conf) 0x08000100, .resp .ok 1], 1, 1) ∧
    ask (exec (.evtDispatch 0) { s with inService := 1 }) (fun t => (t.out, t.inService)) = some ([.resp .ok 0], 1) ∧
    ask (exec (.evtDispatch 12) { s with inService := 1, iflag := 1 }) (fun t => (t.out, t.iflag, t.inService)) =
      some ([.invoke (srcKeypad calm.conf) 0x08000200, .resp .ok 1], 0x1001, 0x1001) := by decide

/-- Property 1, row 0 0 0: nothing latched while the line is off, latched on the source that has no display enable. -/
theorem test_evtDispatch_off : ask (exec (.evtDispatch 0) calm) (fun t => (t.out, t.iflag)) = some ([.resp .ok 0], 0) ∧
    ask (exec (.evtDispatch 12) calm) (fun t => (t.out, t.iflag)) = some ([.resp .ok 0], 0x1000) := by decide

theorem test_evtHdone : ask (exec (.evtHdone 0) { calm with inService := 0x1001 }) (fun t => (t.out, t.inService)) =
      some ([.resp .ok 0], 0x1000) ∧
    ask (exec (.evtHdone 0) { calm with inService := 0x1000 }) (fun t => t.out) = some [.resp .protocol 0] := by decide

/-- P1 frame 6. -/
theorem test_evtHdone_wakes : ask (exec (.evtHdone 0) { calm with inService := 1, waiting := true })
    (fun t => (t.out, t.inService, t.waiting)) = some ([.wake, .resp .ok 0], 0, false) := by decide

/-! ## Keypad (95 properties 2 to 4, 2.3, P2) -/

theorem test_keyUpd : ask (exec .keyUpd { calm with keyinput := 0x5555, keys := ⟨0x5555, 0, 0x5555, 0⟩ }) (fun t => t.keys) =
    some ⟨0xAAAA, 0x5555, 0xAAAA, 0x5555⟩ := by decide

/-- Property 4: the unwired bits show as held. -/
theorem test_keyUpd_unwired : ask (exec .keyUpd { calm with keyinput := 0x03FE }) (fun t => t.keys.held) = some 0xFC01 := by
  decide

theorem test_keyAccessors : let s := { calm with keys := ⟨2, 1, 2, 1⟩ }
    ask (exec .keyPrs s) (fun t => t.out) = some [.resp .ok 2] ∧ ask (exec .keyHld s) (fun t => t.out) = some [.resp .ok 2] ∧
    ask (exec .keyRel s) (fun t => t.out) = some [.resp .ok 1] := by decide

/-- 95 2.3: an empty selection under the AND condition is high at once. -/
theorem test_keyIrqall : let s := { calm with ime := true, ie := 0x1000 }
    ask (exec (.keyIrqall 0xFFFF) s) (fun t => (t.keycnt, t.iflag)) = some (0xC3FF, 0) ∧
    ask (exec (.keyIrqall 0) s) (fun t => (t.keycnt, t.iflag, t.kpLinePrev, t.out)) =
      some (0xC000, 0x1000, true, [.resp .ok 0]) := by decide

theorem test_keyIrqany : ask (exec (.keyIrqany 0xFFFF) calm) (fun t => t.keycnt) = some 0x43FF ∧
    ask (exec (.keyIrqany 0x0400) calm) (fun t => (t.keycnt, t.kpLinePrev)) = some (0x4000, false) := by decide

theorem test_keyIrqoff : ask (exec .keyIrqoff { calm with keycnt := 0xC002, keyinput := 0xFFFD, kpLinePrev := true })
    (fun t => (t.keycnt, t.kpLinePrev)) = some (0, false) := by decide

/-- P2 frames 6 and 11: a rising line invokes the handler, a line that stays high does not. -/
theorem test_evtKeys : let s := { calm with
      ime := true, ie := 0x1000, keycnt := 0x4003
      vec := calm.vec.set (srcKeypad calm.conf) (some 0x08000200) }
    ask (exec (.evtKeys 0xFFFE) s) (fun t => (t.out, t.iflag, t.inService, t.kpLinePrev, t.keys)) =
      some ([.invoke (srcKeypad calm.conf) 0x08000200, .resp .ok 0], 0x1000, 0x1000, true, ⟨0, 0, 0, 0⟩) ∧
    ask (exec (.evtKeys 0xFFFC) { s with keyinput := 0xFFFE, kpLinePrev := true }) (fun t => t.out) =
      some [.resp .ok 0] := by decide

/-- The truth table of 95 2.3. -/
theorem test_keypadLine : let line := fun (c k : Half) => keypadLine { calm with keycnt := c, keyinput := k }
    line 0xC003 0xFFFE = false ∧ line 0xC003 0xFFFC = true ∧ line 0x4003 0xFFFE = true ∧
    line 0x4003 0xFFFF = false ∧ line 0x8003 0xFFFC = false ∧ line 0x0003 0xFFFC = false ∧
    line 0xC000 0xFFFF = true ∧ line 0x4000 0x0000 = false ∧ line 0xC3FF 0xFC00 = true ∧
    line 0xC3FF 0x0000 = true ∧ line 0x4200 0xFDFF = true ∧ line 0x4003 0x03FF = false := by decide

/-! ## DMA (95 2.4, properties 6 and 7) -/

/-- Truncated addresses, the length rounded down to units; a forward overlap smears the first unit. -/
theorem test_dmaCopy : ask (exec (.dmaCopy 0 false 0x02000001 0x02000103 7) (calmWith 0x02000000 [1, 2, 3, 4, 5, 6, 7, 8]))
      (fun t => (bytesAt t 0x02000100 9, t.dma[(0 : Channel)])) =
      some ([0, 0, 1, 2, 3, 4, 5, 6, 0], ⟨0x0000, 3, 0x02000102, 0x02000006, 0x02000108⟩) ∧
    ask (exec (.dmaCopy 0 false 0x02000000 0x02000002 8) (calmWith 0x02000000 [1, 2, 3, 4, 5, 6, 7, 8]))
      (fun t => bytesAt t 0x02000000 10) = some [1, 2, 1, 2, 1, 2, 1, 2, 1, 2] := by decide

/-- Properties 6 and 7 (the channel check first, channel 3 may read mass storage); a unit written to IF acknowledges. -/
theorem test_dmaCopy_checks : let s := calmWith 0x08000000 [0x11, 0x22, 0x33, 0x44]
    ask (exec (.dmaCopy 2 true 0x08000000 0x02000300 4) s) (fun t => (t.out, bytesAt t 0x02000300 4)) =
      some ([.resp .capability 0], [0, 0, 0, 0]) ∧
    ask (exec (.dmaCopy 4 true 0x08000000 0x02000300 4) s) (fun t => t.out) = some [.resp .channel 0] ∧
    ask (exec (.dmaCopy 3 true 0x08000000 0x02000300 4) s) (fun t => (t.out, bytesAt t 0x02000300 4)) =
      some ([.resp .ok 0], [0x11, 0x22, 0x33, 0x44]) ∧
    ask (exec (.dmaCopy 0 true 0x02000000 0x04000200 4)
      { calmWith 0x02000000 [0x34, 0x12, 0x0F, 0] with ie := 0xFF, iflag := 0xFFFF }) (fun t => (t.ie, t.iflag)) =
      some (0x1234, 0xFFF0) := by decide

theorem test_dmaFill : ask (exec (.dmaFill 1 false 0x1234BEEF 0x02000010 6) calm)
    (fun t => (bytesAt t 0x02000010 7, t.dma[(1 : Channel)])) =
    some ([0xEF, 0xBE, 0xEF, 0xBE, 0xEF, 0xBE, 0], ⟨0x0100, 3, 0x02000010, 0, 0x02000016⟩) := by decide

/-- The value only looks like a mass-storage address. -/
theorem test_dmaFill_word : ask (exec (.dmaFill 1 true 0x08001234 0x02000021 9) calm)
    (fun t => (bytesAt t 0x02000020 9, t.dma[(1 : Channel)].ctrl)) =
    some ([0x34, 0x12, 0, 8, 0x34, 0x12, 0, 8, 0], 0x0500) := by decide

/-- Immediate timing with IRQ: one burst and its end event at once. -/
theorem test_dmaXfer : ask (exec (.dmaXfer 2 0x4000 0x02000000 0x02000100 3)
      { calmWith 0x02000000 [0x10, 0x11, 0x12, 0x13, 0x14, 0x15, 0x16] with
        ime := true, ie := 0x0400, vec := calm.vec.set (srcDmaEnd calm.conf 2) (some 0x080001A0) })
    (fun t => (bytesAt t 0x02000100 7, t.dma[(2 : Channel)], t.iflag, t.out)) =
    some ([0x10, 0x11, 0x12, 0x13, 0x14, 0x15, 0], ⟨0x4000, 3, 0x02000100, 0x02000006, 0x02000106⟩, 0x0400,
      [.invoke (srcDmaEnd calm.conf 2) 0x080001A0, .resp .ok 0]) := by decide

/-- A deferred timing arms; a reserved control word is refused after the channel and the capability check. -/
theorem test_dmaXfer_corners :
    ask (exec (.dmaXfer 2 0x1000 0x07FFFFFE 0x02000100 2) calm) (fun t => t.dma[(2 : Channel)]) =
      some ⟨0x9000, 2, 0x02000100, 0x07FFFFFE, 0x02000100⟩ ∧
    refusalOf (exec (.dmaXfer 0 0x3000 0 0 0) calm) = some .reservedControlWord ∧
    ask (exec (.dmaXfer 4 0x3000 0 0 0) calm) (fun t => t.out) = some [.resp .channel 0] ∧
    ask (exec (.dmaXfer 0 0x3000 0x08000000 0 0) calm) (fun t => t.out) = some [.resp .capability 0] := by decide

theorem test_dmaStop : ask (exec (.dmaStop 3) { calm with dma := calm.dma.set (3 : Channel) ⟨0x9260, 2, 1, 2, 3⟩ })
    (fun t => t.dma[(3 : Channel)]) = some ⟨0x1260, 2, 1, 2, 3⟩ ∧
    ask (exec (.dmaStop 5) calm) (fun t => t.out) = some [.resp .channel 0] := by decide

/-! ## Storage (95 2.5, properties 8 and 9) -/

theorem test_sramWr : ask (exec (.sramWr 0x0E00FFFC 0x02000000 4) (calmWith 0x02000000 [0xDE, 0xAD, 0xBE, 0xEF]))
    (fun t => (bytesAt t 0x0E00FFFC 4, t.out)) = some ([0xDE, 0xAD, 0xBE, 0xEF], [.resp .ok 0]) ∧
    refusalOf (exec (.sramWr 0x0E000000 0x04000200 2) calm) = some .registerByteAccess := by decide

theorem test_sramWr_bounds : ask (exec (.sramWr 0x0E000000 0x02000000 0x10001) calm) (fun t => t.out) = some [.resp .sramSize 0] ∧
    ask (exec (.sramWr 0x0DFFFFFF 0x02000000 0) calm) (fun t => t.out) = some [.resp .sramStart 0] ∧
    ask (exec (.sramWr 0x0E010000 0x02000000 0) calm) (fun t => t.out) = some [.resp .ok 0] ∧
    ask (exec (.sramWr 0x0E010001 0x02000000 0) calm) (fun t => t.out) = some [.resp .sramEnd 0] ∧
    ask (exec (.sramWr 0xFFFFFFFF 0x02000000 0x10000) calm) (fun t => t.out) = some [.resp .sramEnd 0] := by decide

/-- The source lies inside the region: one byte after another. -/
theorem test_sramRd : ask (exec (.sramRd 0x0E000001 0x0E000000 3) (calmWith 0x0E000000 [0xDE, 0xAD, 0xBE, 0xEF]))
    (fun t => bytesAt t 0x0E000000 4) = some [0xDE, 0xDE, 0xDE, 0xDE] ∧
    refusalOf (exec (.sramRd 0x04000201 0x0E000000 1) calm) = some .registerByteAccess := by decide

theorem test_sramRd_bounds : ask (exec (.sramRd 0x02000100 0x0DFFFFFF 0x10001) calm) (fun t => t.out) = some [.resp .sramSize 0] ∧
    ask (exec (.sramRd 0x02000100 0x0DFFFFFF 4) calm) (fun t => t.out) = some [.resp .sramStart 0] ∧
    ask (exec (.sramRd 0x02000100 0x0E00FFFD 4) calm) (fun t => t.out) = some [.resp .sramEnd 0] := by decide

/-! ## Register port (95 2.6) -/

theorem test_regRd : ask (exec (.regRd 0x04000202) { calm with iflag := 0x1001 }) (fun t => (t.out, t.iflag)) =
      some ([.resp .ok 0x1001], 0x1001) ∧
    ask (exec (.regRd 0x04000006) { calm with vcount := 159 }) (fun t => t.out) = some [.resp .ok 0x009F] ∧
    ask (exec (.regRd 0x04000005) calm) (fun t => t.out) = some [.resp .access 0] := by decide

theorem test_regWr : ask (exec (.regWr 4 0x04000202) { calm with iflag := 0x1005 }) (fun t => t.iflag) = some 0x1001 ∧
    ask (exec (.regWr 0xFFFF 0x04000208) calm) (fun t => t.ime) = some true ∧
    ask (exec (.regWr 0xFFFF 0x04000132) calm) (fun t => t.keycnt) = some 0xC3FF ∧
    ask (exec (.regWr 0xE438 0x04000004) calm) (fun t => t.dispstat) = some ⟨true, true, true, 0xE4⟩ ∧
    ask (exec (.regWr 0xFFFF 0x04000200) calm) (fun t => t.ie) = some 0xFFFF := by decide

theorem test_regWr_readOnly : ask (exec (.regWr 0x8000 0x040000BA) calm) (fun t => t.out) = some [.resp .access 0] ∧
    ask (exec (.regWr 1 0x04000204) calm) (fun t => t.out) = some [.resp .access 0] := by decide

/-! ## Display events, frame wait, fatal halt (95 2.7, P1, P5) -/

/-- VBlank before VCount; the wrap to 0. -/
theorem test_evtLine : ask (exec .evtLine { calm with
      vcount := 159, ime := true, ie := 5, dispstat := ⟨true, false, true, 0xA0⟩
      vec := (calm.vec.set (srcVblank calm.conf) (some 0x08000100)).set (srcVcount calm.conf) (some 0x08000120) })
    (fun t => (t.vcount, t.out, t.iflag, t.inService)) =
      some (160, [.invoke (srcVblank calm.conf) 0x08000100, .invoke (srcVcount calm.conf) 0x08000120, .resp .ok 0], 5, 5) ∧
    ask (exec .evtLine { calm with
      vcount := 227, ime := true, ie := 4, dispstat := ⟨false, false, true, 0⟩
      vec := calm.vec.set (srcVcount calm.conf) (some 0x08000120) }) (fun t => (t.vcount, t.out, t.iflag)) =
      some (0, [.invoke (srcVcount calm.conf) 0x08000120, .resp .ok 0], 4) := by decide

/-- The deferred transfer of 95 2.4: the destination is reloaded and the channel stays armed. -/
theorem test_evtLine_burst : ask (exec .evtLine { calmWith 0x02000000 [1, 2, 3, 4, 5, 6, 7, 8] with
      vcount := 159
      dma := calm.dma.set (3 : Channel) ⟨0x9260, 2, 0x02000100, 0x02000000, 0x02000100⟩ })
    (fun t => (bytesAt t 0x02000100 5, t.dma[(3 : Channel)])) =
      some ([1, 2, 3, 4, 0], ⟨0x9260, 2, 0x02000100, 0x02000004, 0x02000100⟩) := by decide

/-- On a visible line the HBlank capture stores the scanline, in VBlank it does not. -/
theorem test_evtHbl : let s := { calm with dma := calm.dma.set (0 : Channel) ⟨0xA300, 1, 0x02000000, 0x04000006, 0x02000000⟩ }
    ask (exec .evtHbl { s with vcount := 158 }) (fun t => (bytesAt t 0x02000000 2, t.dma[(0 : Channel)])) =
      some ([0x9E, 0], ⟨0xA300, 1, 0x02000000, 0x04000006, 0x02000002⟩) ∧
    ask (exec .evtHbl { s with vcount := 160 }) (fun t => (t.mem, t.dma[(0 : Channel)].wdst)) = some ([], 0x02000000) := by
  decide

/-- R261: HBlank is raised with the data in place, the end of the transfer after it. -/
theorem test_evtHbl_events : ask (exec .evtHbl { calmWith 0x02000000 [0x10, 0x11] with
      dma := calm.dma.set (0 : Channel) ⟨0xE000, 1, 0x02000100, 0x02000000, 0x02000100⟩
      ime := true, ie := 0x0102, dispstat := ⟨false, true, false, 0⟩
      vec := (calm.vec.set (srcHblank calm.conf) (some 5)).set (srcDmaEnd calm.conf 0) (some 6) })
    (fun t => (bytesAt t 0x02000100 2, t.dma[(0 : Channel)].ctrl, t.iflag, t.out)) =
    some ([0x10, 0x11], 0x6000, 0x0102, [.invoke (srcHblank calm.conf) 5, .invoke (srcDmaEnd calm.conf 0) 6, .resp .ok 0]) := by
  decide

/-- A wait, and the VBlank event that ends it when no handler is installed. -/
theorem test_sysWaitvbl : ask (exec .sysWaitvbl calm) (fun t => (t.waiting, t.out)) = some (true, []) ∧
    ask (exec .evtLine { calm with waiting := true, vcount := 159, ime := true, ie := 1, dispstat := ⟨true, false, false, 0⟩ })
      (fun t => (t.out, t.waiting, t.iflag)) = some ([.wake, .resp .ok 0], false, 1) := by decide

/-- P5 frame 7. -/
theorem test_sysFatal : let s := { calm with
      ie := 3, iflag := 2, inService := 4, dispstat := ⟨true, true, true, 9⟩
      dma := calm.dma.set (0 : Channel) ⟨0xA300, 1, 2, 3, 4⟩, vec := calm.vec.set (srcHblank calm.conf) (some 1) }
    ask (exec .sysFatal s) (fun t => (t.ime, t.ie, t.iflag, t.inService)) = some (true, 1, 2, 4) ∧
    ask (exec .sysFatal s) (fun t => (t.dispstat, t.dma[(0 : Channel)], t.vec[(srcHblank calm.conf)])) =
      some (⟨true, false, false, 9⟩, ⟨0x2300, 1, 2, 3, 4⟩, none) ∧
    ask (exec .sysFatal s) (fun t => (t.halted, t.waiting, t.out)) = some (true, false, []) := by decide

/-- 60_exceptions.md R290, 30_encoding.md R109: a result code on the port. -/
theorem test_responseWords : responseWords .protocol 0 = (0xFFFFFFF6, 0) ∧ responseWords .ok 0xBEEF = (0, 0xBEEF) := by decide

/-! ## Witnesses: for every obligation with hypotheses, a state and operands that meet all of them together -/

/-- IRQ.INIT and KEY.UPD as frames of APP, EVT.LINE as a frame of SUB. -/
def initFrame : Frame := ⟨1, 0, 0, 0, 0⟩
def updFrame : Frame := ⟨0x10, 0, 0, 0, 0⟩
def lineFrame : Frame := ⟨0x82, 0, 0, 0, 0⟩

theorem witness_DecodeOfEncode : decode ⟨0x00000010, 1, 2, 3, 4⟩ = .ok .keyUpd := rfl

theorem witness_DecoderAgreesWithMatchMask : decode ⟨0x00000104, 0, 0, 0, 0⟩ = .ok (.irqDis 1) ∧
    decode ⟨0x00000006, 0, 0, 0, 0⟩ = .error .unassignedOp ∧ (⟨"IRQ.DIS", .app, 0x00000004, 0xFFFFF0FF⟩ : OpRow) ∈ opTable ∧
    (⟨"IRQ.DIS", .app, 0x00000004, 0xFFFFF0FF⟩ : OpRow).selects 0x00000104 :=
  ⟨rfl, rfl, by decide, by unfold OpRow.selects; decide⟩

theorem witness_StepRunsDecodedFrame : let s := { calm with pending := [.frame .app updFrame] }
    takeInput (appHeld s) s.pending = some (.frame .app updFrame, []) ∧ decode updFrame = .ok .keyUpd ∧
    classOf .keyUpd = .app ∧ s.halted = false := ⟨rfl, rfl, rfl, rfl⟩

/-- A SUB frame of a halted block meets the hypotheses too. -/
theorem witness_StepRunsDecodedFrame_sub : let s := { calm with halted := true, pending := [.frame .sub lineFrame] }
    takeInput (appHeld s) s.pending = some (.frame .sub lineFrame, []) ∧ decode lineFrame = .ok .evtLine ∧
    classOf .evtLine = .sub ∧ (Initiator.sub = .app → s.halted = false) := ⟨rfl, rfl, rfl, nofun⟩

theorem witness_StepRejectsInOrder_illegal : let s := { calm with pending := [.frame .app ⟨6, 0, 0, 0, 0⟩] }
    KeypadSettled s ∧ takeInput (appHeld s) s.pending = some (.frame .app ⟨6, 0, 0, 0, 0⟩, []) ∧
    decode ⟨6, 0, 0, 0, 0⟩ = .error .unassignedOp := ⟨rfl, rfl, rfl⟩

theorem witness_StepRejectsInOrder_class : let s := { calm with pending := [.frame .sub initFrame] }
    KeypadSettled s ∧ takeInput (appHeld s) s.pending = some (.frame .sub initFrame, []) ∧
    decode initFrame = .ok .irqInit ∧ classOf .irqInit ≠ .sub := ⟨rfl, rfl, rfl, by decide⟩

theorem witness_StepRejectsInOrder_halted : let s := { calm with halted := true, pending := [.frame .app initFrame] }
    KeypadSettled s ∧ takeInput (appHeld s) s.pending = some (.frame .app initFrame, []) ∧
    decode initFrame = .ok .irqInit ∧ classOf .irqInit = .app ∧ s.halted = true := ⟨rfl, rfl, rfl, rfl, rfl⟩

theorem witness_AppPortHeldWhileWaiting :
    let xs : List Input := [.frame .app initFrame]
    let s : State := { calm with waiting := true, pending := xs ++ Input.frame .sub lineFrame :: [] }
    (∀ x ∈ xs, ∃ f, x = Input.frame .app f) ∧ s.waiting = true ∧ s.inService = 0#16 ∧
    s.pending = xs ++ Input.frame .sub lineFrame :: [] := by
  refine ⟨fun x hx => ⟨initFrame, ?_⟩, rfl, rfl, rfl⟩
  simpa using hx

theorem witness_AppPortHeldWhileWaiting_stays : let s := { calm with waiting := true, pending := [.frame .app initFrame] }
    s.waiting = true ∧ s.inService = 0 ∧ s.halted = false ∧ s.pending = [.frame .app initFrame] := ⟨rfl, rfl, rfl, rfl⟩

/-- A handler in service: the APP port is open while the caller waits. -/
theorem witness_AppPortHeldWhileWaiting_open :
    let s := { calm with waiting := true, inService := 1, pending := [.frame .app initFrame] }
    s.inService ≠ 0 ∧ s.pending = .frame .app initFrame :: [] := ⟨by decide, rfl⟩

/-- A state with one frame pending steps to a next state. -/
theorem witness_OutOnlyGrows : ∃ t, step { calm with pending := [.frame .app updFrame] } = .next t := ⟨_, rfl⟩

theorem witness_OneResponsePerFrame : (∃ t, exec .irqInit calm = .next t) ∧ (∃ t, exec .sysWaitvbl calm = .next t) ∧
    (∃ t, exec .sysFatal calm = .next t) := ⟨⟨_, rfl⟩, ⟨_, rfl⟩, ⟨_, rfl⟩⟩

theorem witness_RejectionChangesNothing : KeypadSettled calm ∧
    ∃ t, exec (.irqEn 14) calm = .next t ∧ t.out = calm.out ++ [] ++ [.resp .source 0] ∧ ResultCode.source ≠ .ok :=
  ⟨rfl, _, rfl, rfl, by decide⟩

theorem witness_RefusedExactlyWhereTheSpecRefuses : capViolation calm.conf 0 0 = false ∧ (0x3000#16 &&& 0x3000 = 0x3000) ∧
    boundsCheck calm.conf 0x0E000000 2 = none ∧ onRegister calm.conf (0x04000200 + BitVec.ofNat 32 0) = true := by decide

theorem witness_WellFormedSucceeds : wf (.dmaCopy 3 true 0x08000000 0x02000000 16) = true ∧
    wf (.evtHdone 13) = true ∧ ({ calm with inService := 0x2000 } : State).inService.getLsbD 13 = true := by
  decide

theorem witness_HaltedEnteredByFatalOnly :
    (∃ t, step { calm with halted := true, pending := [.frame .sub lineFrame] } = .next t) ∧
    (∃ t, exec .sysFatal calm = .next t ∧ t.halted = true) := ⟨⟨_, rfl⟩, _, rfl, rfl⟩

theorem witness_WaitEndsByWakeOrFatal : let s := { calm with waiting := true, inService := 1 }
    (∃ t, exec (.evtHdone 0) s = .next t ∧ s.waiting = true ∧ t.waiting = false) ∧
    (∃ t, exec .sysFatal s = .next t ∧ t.waiting = false) := ⟨⟨_, rfl, rfl, rfl⟩, _, rfl, rfl⟩

theorem witness_StepKeepsMemoryCanonical : let s := { calm with mem := [(0x02000000, 1)], pending := [.frame .app updFrame] }
    s.mem.wf = true ∧ ∃ t, step s = .next t := ⟨by decide, _, rfl⟩

theorem calm_registersLegal (xs : List Input) : RegistersLegal { calm with pending := xs } := by
  refine ⟨show calm.vcount.toNat < calm.conf.linesTotal by decide, show calm.keycnt &&& ~~~keycntMask = 0 by decide, fun k _ => ?_, fun src _ => ?_⟩ <;>
  simp [calm, State.reset, State.startUp]

theorem witness_StepKeepsRegistersLegal : let s := { calm with pending := [.frame .app updFrame] }
    RegistersLegal s ∧ ∃ t, step s = .next t := ⟨calm_registersLegal _, _, rfl⟩

/-- An armed channel: the control word, the addresses and the count of P3 frame 9. -/
def armedState : State := { calm with
  dma := calm.dma.set (0 : Channel) ⟨0xA300, 1, 0x02000000, 0x04000006, 0x02000000⟩
  pending := [.frame .sub ⟨0x83, 0, 0, 0, 0⟩] }

theorem armed_channelsLegal : ChannelsLegal armedState := by
  intro ch
  fin_cases ch
  · exact ⟨by decide, by decide, fun _ => ⟨by decide, by decide, by decide, by decide, by decide⟩⟩
  · exact ⟨by decide, by decide, fun h => absurd h (by decide)⟩
  · exact ⟨by decide, by decide, fun h => absurd h (by decide)⟩
  · exact ⟨by decide, by decide, fun h => absurd h (by decide)⟩

theorem witness_StepKeepsChannelsLegal : ChannelsLegal armedState ∧ ∃ t, step armedState = .next t :=
  ⟨armed_channelsLegal, _, rfl⟩

theorem witness_StepKeepsSnapshotDerived :
    let s := { calm with keys := ⟨0xAAAA, 0x5555, 0xAAAA, 0x5555⟩, pending := [.frame .app updFrame] }
    SnapshotDerived s.keys ∧ ∃ t, step s = .next t :=
  ⟨⟨by decide, by decide⟩, _, rfl⟩

theorem witness_StepLeavesKeypadSettled : let s := { calm with
      keycnt := 0x4001, keyinput := 0xFFFE, kpLinePrev := true
      pending := [.frame .sub ⟨0xFFFF0084, 0, 0, 0, 0⟩] }
    KeypadSettled s ∧ ∃ t, step s = .next t := ⟨rfl, _, rfl⟩

theorem witness_StepKeepsHaltedQuiet : let s := { calm with halted := true, pending := [.frame .sub lineFrame] }
    HaltedQuiet s ∧ s.halted = true ∧ ∃ t, step s = .next t := by
  refine ⟨fun _ => ⟨fun src => ?_, rfl, fun ch => ?_⟩, rfl, _, rfl⟩
  · simp [calm, State.reset, State.startUp]
  · simp [calm, State.reset, State.startUp, DmaChannel.cleared, ctrlEn]

theorem witness_StartUpMeetsInvariants : Memory.wf [(0, 1), (0xFFFFFFFF, 2)] = true := by decide

theorem witness_SingleWriters : (∃ t, exec (.regWr 0xFFFF 0x04000200) calm = .next t) ∧
    Instr.regWr 0xFFFF 0x04000200 ≠ .irqInit ∧ (∀ idx f a, Instr.regWr 0xFFFF 0x04000200 ≠ .irqSeth idx f a) ∧
    Instr.regWr 0xFFFF 0x04000200 ≠ .sysFatal ∧ Instr.regWr 0xFFFF 0x04000200 ≠ .evtLine ∧
    (∀ imm, Instr.regWr 0xFFFF 0x04000200 ≠ .evtKeys imm) ∧ Instr.regWr 0xFFFF 0x04000200 ≠ .keyUpd :=
  ⟨⟨_, rfl⟩, by decide, nofun, by decide, by decide, nofun, by decide⟩

/-- The first and the last address of mass storage, with a fill that aims at it. -/
theorem witness_MassStorageNeverWritten : ChannelsLegal armedState ∧
    (∃ t, exec (.dmaFill 1 false 1 0x08000000 2) armedState = .next t) ∧ inRom calm.conf 0x08000000 = true ∧
    inRom calm.conf 0x0DFFFFFF = true := ⟨armed_channelsLegal, ⟨_, rfl⟩, by decide, by decide⟩

theorem witness_OtherOperationsLeaveMemoryAndChannels : (∃ t, exec .sysFatal calm = .next t) ∧
    (∃ t, exec (.sramWr 0x0E000000 0x02000000 1) calm = .next t) ∧
    (∀ idx f a b c, Instr.sramWr 0x0E000000 0x02000000 1 ≠ .dmaCopy idx f a b c) ∧
    (∀ a b c, Instr.sysFatal ≠ .sramWr a b c) ∧ (∀ idx, Instr.sramWr 0x0E000000 0x02000000 1 ≠ .dmaStop idx) :=
  ⟨⟨_, rfl⟩, ⟨_, rfl⟩, nofun, nofun, nofun⟩

theorem witness_PendingFlagsNeverDecide : ∃ t, exec (.evtDispatch 12) calm = .next t := ⟨_, rfl⟩

/-- The witness of every statement whose only hypothesis is a settled state: IrqInitClearsController,
IrqVcntStoresModulo228, KeyUpdSamplesLines, KeyAccessorsAnswerSnapshot, DmaStopDisarms, RegRdAnswers, RegWrWrites,
SysWaitvblSuspends, SysFatalHalts; and with the line high. -/
theorem witness_settled : KeypadSettled calm ∧
    KeypadSettled { calm with keycnt := 0xC000, kpLinePrev := true } := ⟨rfl, rfl⟩

/-- The last valid source and the first invalid index. -/
theorem witness_IrqSethWritesOneSlot : KeypadSettled calm ∧ (13#4).toNat < calm.conf.nSources ∧
    calm.conf.nSources ≤ (14#4).toNat ∧ calm.conf.nSources ≤ (15#4).toNat := ⟨rfl, by decide, by decide, by decide⟩

/-- The same on a platform of 16 sources, where every index is valid. -/
theorem witness_IrqEnDisWritePairedBits : KeypadSettled calm ∧ (0#4).toNat < calm.conf.nSources ∧
    (13#4).toNat < calm.conf.nSources ∧ calm.conf.nSources ≤ (14#4).toNat ∧ (15#4).toNat < other.conf.nSources :=
  ⟨rfl, by decide, by decide, by decide, by decide⟩

/-- VBlank with everything on and a handler, with the line off, and with no handler while a caller waits. -/
theorem witness_DispatchDiscipline : let s := { calm with
      ime := true, ie := 1, dispstat := ⟨true, false, false, 0⟩, waiting := true
      vec := calm.vec.set (srcVblank calm.conf) (some 0x08000100) }
    s.inService.getLsbD 0 = false ∧ s.vec[(srcVblank calm.conf)] = some 0x08000100 ∧ s.ime = true ∧ s.ie.getLsbD 0 = true ∧
    s.dispstat.vblEn = true ∧ calm.dispstat.vblEn = false ∧ calm.vec[(srcVblank calm.conf)] = none ∧
    s.waiting = true := by decide

theorem witness_InterruptEntryAndNoReentry : (dispatch (srcKeypad calm.conf) { calm with
      ime := true, ie := 0x1000, vec := calm.vec.set (srcKeypad calm.conf) (some 0x08000200) }).2 = true ∧
    ({ calm with inService := 0x1000 } : State).inService.getLsbD 12 = true := by decide

theorem witness_EvtDispatchAnswers : KeypadSettled calm ∧ calm.conf.nSources ≤ (14#4).toNat ∧
    (srcVblank calm.conf).val = (0#4).toNat ∧ (srcVblank calm.conf).val < calm.conf.nSources ∧
    takes (srcVblank calm.conf) calm = false ∧ (let s := { calm with
      ime := true, ie := 0x2001, dispstat := ⟨true, false, false, 0⟩, waiting := true
      vec := calm.vec.set (13 : Source) (some 7) }
    takes (srcVblank calm.conf) s = true ∧ s.vec[(srcVblank calm.conf)] = none ∧ s.waiting = true ∧
    takes (13 : Source) s = true ∧
    s.vec[(13 : Source)] = some 7 ∧ takes (13 : Source) { s with vec := calm.vec } = true) :=
  ⟨rfl, by decide, rfl, by decide, by decide, by decide, by decide, by decide, by decide, by decide, by decide⟩

theorem witness_EvtHdoneReturns : KeypadSettled calm ∧ calm.conf.nSources ≤ (14#4).toNat ∧ (13#4).toNat < calm.conf.nSources ∧
    calm.inService.getLsbD 13 = false ∧
    ({ calm with inService := 0x2001, waiting := true } : State).inService.getLsbD 13 = true ∧
    ({ calm with inService := 0x2001, waiting := true } : State).inService.getLsbD 0 = true :=
  ⟨rfl, by decide, by decide, by decide, by decide, by decide⟩

/-- A rising line, and a line that was high already. -/
theorem witness_KeypadConditionAndEvent :
    (keypadLine { calm with keycnt := 0xC000 ||| (0#16 &&& calm.conf.keySelMask) } = true ∧ calm.kpLinePrev = false) ∧
    keypadLine { calm with keycnt := 0 } = false ∧ keypadLine { calm with keyinput := 0xFFFE } = false ∧
    ({ calm with kpLinePrev := true } : State).kpLinePrev = true ∧ (0x04000132#32).toNat = calm.conf.addrKeycnt := by decide

theorem witness_DmaChannelChecked : KeypadSettled calm ∧ 4 ≤ (4#4).toNat ∧ 4 ≤ (15#4).toNat :=
  ⟨rfl, by decide, by decide⟩

theorem witness_DmaCapabilityChecked : KeypadSettled calm ∧ (2#4).toNat < 4 ∧ (2#4).toNat ≠ calm.conf.dmaRomChannel ∧
    (calm.conf.romBase ≤ (0x08000000#32).toNat ∧ (0x08000000#32).toNat < calm.conf.romBase + calm.conf.romSize) ∧
    (calm.conf.romBase ≤ (0x0DFFFFFF#32).toNat ∧ (0x0DFFFFFF#32).toNat < calm.conf.romBase + calm.conf.romSize) ∧
    (3#4).toNat ≠ other.conf.dmaRomChannel :=
  ⟨rfl, by decide, by decide, by decide, by decide, by decide⟩

/-- One 32-bit unit from mass storage by channel 3, and from plain memory by channel 2. -/
theorem witness_DmaCopyCopiesBytes : KeypadSettled (calmWith 0x08000000 [1, 2, 3, 4]) ∧
    (calmWith 0x08000000 [1, 2, 3, 4]).mem.wf = true ∧
    (∀ (ch : Channel) (a : Word), (ch = 3 ∧ a = 0x08000000) ∨ (ch = 2 ∧ a = 0x02000000) → capViolation calm.conf ch a = false ∧
      (∀ j, j < 4 * ((4#32).toNat / 4) → onRegister calm.conf ((a &&& 0xFFFFFFFC#32) + BitVec.ofNat 32 j) = false ∧
        inSram calm.conf ((a &&& 0xFFFFFFFC#32) + BitVec.ofNat 32 j) = false ∧
        (ch.val = calm.conf.dmaRomChannel ∨ inRom calm.conf ((a &&& 0xFFFFFFFC#32) + BitVec.ofNat 32 j) = false)) ∧
      (∀ j, j < 4 * ((4#32).toNat / 4) → onRegister calm.conf ((0x02000301 &&& 0xFFFFFFFC#32) + BitVec.ofNat 32 j) = false ∧
        inSram calm.conf ((0x02000301 &&& 0xFFFFFFFC#32) + BitVec.ofNat 32 j) = false ∧
        inRom calm.conf ((0x02000301 &&& 0xFFFFFFFC#32) + BitVec.ofNat 32 j) = false) ∧
      (∀ j k, j < 4 * ((4#32).toNat / 4) → k < 4 * ((4#32).toNat / 4) →
        (a &&& 0xFFFFFFFC#32) + BitVec.ofNat 32 j ≠ (0x02000301 &&& 0xFFFFFFFC#32) + BitVec.ofNat 32 k)) := by
  refine ⟨settled_of_off rfl rfl, by decide, ?_⟩
  rintro ch a (⟨rfl, rfl⟩ | ⟨rfl, rfl⟩)
  · exact ⟨by decide, by decide, by decide, both_below (by decide)⟩
  · exact ⟨by decide, by decide, by decide, both_below (by decide)⟩

theorem witness_DmaFillFillsBytes : KeypadSettled calm ∧ calm.mem.wf = true ∧
    (∀ j, j < 2 * ((7#32).toNat / 2) → onRegister calm.conf ((0x02000011 &&& 0xFFFFFFFE#32) + BitVec.ofNat 32 j) = false ∧
      inSram calm.conf ((0x02000011 &&& 0xFFFFFFFE#32) + BitVec.ofNat 32 j) = false ∧
      inRom calm.conf ((0x02000011 &&& 0xFFFFFFFE#32) + BitVec.ofNat 32 j) = false) := ⟨rfl, by decide, by decide⟩

theorem witness_DmaXferArmsDeferred : KeypadSettled calm ∧ capViolation calm.conf 0 0x04000006 = false ∧
    reservedCw 0x2300 = false ∧ ctrlTm 0x2300 ≠ 0 ∧ reservedCw 0x1260 = false ∧ ctrlTm 0x1260 ≠ 0 :=
  ⟨rfl, by decide, by decide, by decide, by decide, by decide⟩

/-- One operation of each of the three kinds, on a settled state, with no register byte in reach: a copy by channel 3 out
of mass storage, a fill, and a repeating XFER with an end event, reload, and both addresses in plain memory. -/
theorem witness_ImmediateBurstFrame : KeypadSettled calm ∧ capViolation calm.conf 3 0x08000000 = false ∧
    capViolation calm.conf 0 0x02000000 = false ∧
    reservedCw 0x4260 = false ∧ ctrlTm 0x4260 = 0 ∧ ctrlIrq (xferWord 0x4260) = true ∧
    (∀ d : DmaChannel, (d = ⟨copyWord true, unitCount true 8, 0x02000300, 0x08000000, 0x02000300⟩ ∨
        d = ⟨fillWord false, unitCount false 7, 0x02000300, 0, 0x02000300⟩ ∨
        d = ⟨xferWord 0x4260, 2, 0x02000300, 0x02000000, 0x02000300⟩) →
      ∀ x, d.covers x → onRegister calm.conf x = false) := by
  refine ⟨rfl, by decide, by decide, by decide, by decide, by decide, ?_⟩
  rintro d (rfl | rfl | rfl) x ⟨j, hj, rfl⟩
  · have h : j < 8 := hj
    interval_cases j <;> decide
  · have h : j < 6 := hj
    interval_cases j <;> decide
  · have h : j < 4 := hj
    interval_cases j <;> decide

/-- A repeating deferred channel with reload, one without, and one that is not repeating. -/
theorem witness_BurstLeavesChannel : ((0x9260#16).getLsbD 9 = true ∧ 0x9260#16 &&& 0x3000 ≠ 0 ∧ 0x9260#16 &&& 0x0060 = 0x0060) ∧
    ((0xA300#16).getLsbD 9 = true ∧ 0xA300#16 &&& 0x3000 ≠ 0 ∧ 0xA300#16 &&& 0x0060 ≠ 0x0060) ∧
    (0xD000#16).getLsbD 9 = false := by decide

/-- The data of a copy: two 16-bit units out of mass storage by channel 3 into plain memory, the source incrementing
(SM = 0) or fixed (SM = 2), the destination incrementing (DM = 0) or fixed (DM = 2), up to the region's last bytes. -/
theorem witness_BurstLeavesChannel_copy : (calmWith 0x08000000 [1, 2, 3, 4]).mem.wf = true ∧
    ∀ sstep dstep : Word, sstep = 2 ∨ sstep = 0 → dstep = 2 ∨ dstep = 0 →
      (∀ i, i < 2 → ∀ j, j < 2 →
        onRegister calm.conf (0x08000000 + BitVec.ofNat 32 i * sstep + BitVec.ofNat 32 j) = false ∧
        inSram calm.conf (0x08000000 + BitVec.ofNat 32 i * sstep + BitVec.ofNat 32 j) = false ∧
        (3 : Channel).val = calm.conf.dmaRomChannel) ∧
      (∀ i, i < 2 → ∀ j, j < 2 →
        onRegister calm.conf (0x07FFFFFC + BitVec.ofNat 32 i * dstep + BitVec.ofNat 32 j) = false ∧
        inSram calm.conf (0x07FFFFFC + BitVec.ofNat 32 i * dstep + BitVec.ofNat 32 j) = false ∧
        inRom calm.conf (0x07FFFFFC + BitVec.ofNat 32 i * dstep + BitVec.ofNat 32 j) = false) ∧
      (∀ i, i < 2 → ∀ j, j < 2 → ∀ k, k < 2 → ∀ l, l < 2 →
        (0x08000000 + BitVec.ofNat 32 i * sstep + BitVec.ofNat 32 j : Word) ≠
          0x07FFFFFC + BitVec.ofNat 32 k * dstep + BitVec.ofNat 32 l) := by
  refine ⟨by decide, ?_⟩
  rintro s d (rfl | rfl) (rfl | rfl) <;> exact ⟨by decide, by decide, by decide⟩

/-- One channel armed for HBlank alone; two armed for VBlank, one of them repeating with reload and an end event due. -/
theorem witness_TriggerRunsArmedChannels : armedState.dma[(0 : Channel)].armedFor 2 ∧
    (∀ o : Channel, o ≠ 0 → ¬ armedState.dma[o].armedFor 2) ∧ (let s := { calm with
      dma := (calm.dma.set (3 : Channel) ⟨0xD260, 2, 1, 2, 3⟩).set (1 : Channel) ⟨0x9000, 1, 4, 5, 6⟩ }
    s.dma[(3 : Channel)].armedFor 1 ∧ s.dma[(1 : Channel)].armedFor 1 ∧ ¬ s.dma[(0 : Channel)].armedFor 1 ∧
    (0xD260#16).getLsbD 9 = true ∧ 0xD260#16 &&& 0x3000 ≠ 0 ∧ 0xD260#16 &&& 0x0060 = 0x0060 ∧
    (0x9000#16).getLsbD 9 = false) := by
  simp only [DmaChannel.armedFor]
  decide

/-- A line other than LINES_VISIBLE, line LINES_VISIBLE, an unarmed channel, and a byte no channel covers. -/
theorem witness_EvtLineStepsCounter :
    ((calm.vcount.toNat + 1) % calm.conf.linesTotal ≠ calm.conf.linesVisible) ∧
    ((({ calm with vcount := 159 } : State).vcount.toNat + 1) % calm.conf.linesTotal = calm.conf.linesVisible) ∧
    (∀ ch : Channel, ¬ calm.dma[ch].armedFor 1) := by
  simp only [DmaChannel.armedFor]
  decide

/-- The cases of a new line with no channel armed: 1 against target 9, 160 against 9, 9 against 9, 160 against 160. -/
theorem witness_EvtLineRaisesEvents :
    let s := fun (v g : Byte) => { calm with vcount := v, dispstat := ⟨true, true, true, g⟩ }
    (∀ v g, KeypadSettled (s v g)) ∧ (∀ v g, ∀ ch : Channel, ¬ (s v g).dma[ch].armedFor 1) ∧
    (1#8).toNat = ((s 0 9).vcount.toNat + 1) % calm.conf.linesTotal ∧ (1#8).toNat ≠ calm.conf.linesVisible ∧
    (160#8).toNat = ((s 159 9).vcount.toNat + 1) % calm.conf.linesTotal ∧ (160#8).toNat = calm.conf.linesVisible ∧
    (9#8).toNat = ((s 8 9).vcount.toNat + 1) % calm.conf.linesTotal := by
  refine ⟨fun _ _ => settled_of_off rfl rfl, fun _ _ => ?_, by decide, by decide, by decide, by decide, by decide⟩
  simp only [DmaChannel.armedFor]
  decide

/-- The record of channel 3 in the deferred transfer of 95_test_vectors.md 2.4: two 16-bit units, repeating, reloaded. -/
def deferred : DmaChannel := ⟨0x9260, 2, 0x02000100, 0x02000000, 0x02000100⟩

/-- The case of a new line with that channel armed for VBlank: it alone is armed, its areas are plain and share no address. -/
theorem witness_EvtLineRaisesEvents_armed :
    let s := { calmWith 0x02000000 [1, 2, 3, 4] with vcount := 159, dma := calm.dma.set (3 : Channel) deferred }
    KeypadSettled s ∧ s.mem.wf = true ∧ (160#8).toNat = (s.vcount.toNat + 1) % s.conf.linesTotal ∧
    (160#8).toNat = s.conf.linesVisible ∧ 160#8 ≠ s.dispstat.vcTgt ∧ s.dma[(3 : Channel)] = deferred ∧
    s.dma[(3 : Channel)].armedFor 1 ∧ (∀ o : Channel, o ≠ 3 → ¬ s.dma[o].armedFor 1) ∧
    deferred.ctrl &&& 0x0180 = 0 ∧ deferred.ctrl &&& 0x0060 ≠ 0x0040 ∧ deferred.ctrl.getLsbD 10 = false := by
  refine ⟨settled_of_off rfl rfl, by decide, by decide, by decide, by decide, by decide, ?_, ?_, by decide, by decide, by decide⟩
  · simp only [DmaChannel.armedFor]; decide
  · simp only [DmaChannel.armedFor]; decide

theorem witness_EvtLineRaisesEvents_areas : let d := deferred
    (∀ j, j < 2 * d.cnt.toNat → onRegister calm.conf (d.wsrc + BitVec.ofNat 32 j) = false ∧
      inSram calm.conf (d.wsrc + BitVec.ofNat 32 j) = false ∧
      ((3 : Channel).val = calm.conf.dmaRomChannel ∨ inRom calm.conf (d.wsrc + BitVec.ofNat 32 j) = false)) ∧
    (∀ j, j < 2 * d.cnt.toNat → onRegister calm.conf (d.wdst + BitVec.ofNat 32 j) = false ∧
      inSram calm.conf (d.wdst + BitVec.ofNat 32 j) = false ∧ inRom calm.conf (d.wdst + BitVec.ofNat 32 j) = false) ∧
    (∀ j k, j < 2 * d.cnt.toNat → k < 2 * d.cnt.toNat → d.wsrc + BitVec.ofNat 32 j ≠ d.wdst + BitVec.ofNat 32 k) ∧
    (∀ x, d.covers x → onRegister calm.conf x = false) := by
  refine ⟨by decide, by decide, both_below (by decide), ?_⟩
  rintro x ⟨j, hj, rfl⟩
  have hj' : j < 4 := hj
  interval_cases j <;> decide

/-- One channel armed for HBlank on the last visible line, its two bytes off the registers, and a byte it does not cover. -/
theorem witness_EvtHblFrame : KeypadSettled { armedState with vcount := 159 } ∧
    ({ armedState with vcount := 159 } : State).vcount.toNat < armedState.conf.linesVisible ∧
    armedState.dma[(0 : Channel)].armedFor 2 ∧ ¬ armedState.dma[(1 : Channel)].armedFor 2 ∧
    (∀ ch : Channel, armedState.dma[ch].armedFor 2 → ∀ x, armedState.dma[ch].covers x →
      x ≠ 0x02000002 ∧ onRegister armedState.conf x = false) := by
  refine ⟨rfl, by decide, by simp only [DmaChannel.armedFor]; decide, by simp only [DmaChannel.armedFor]; decide, ?_⟩
  rintro ch h x ⟨j, hj, rfl⟩
  fin_cases ch
  · have hj2 : j < 2 := hj
    interval_cases j <;> decide
  · exact absurd h.1 (by decide)
  · exact absurd h.1 (by decide)
  · exact absurd h.1 (by decide)

/-- The first and the last line of VBlank with a channel armed for HBlank, and a visible line with none. -/
theorem witness_HblankGatedInVblank : KeypadSettled { armedState with vcount := 160 } ∧
    calm.conf.linesVisible ≤ ({ armedState with vcount := 160 } : State).vcount.toNat ∧
    calm.conf.linesVisible ≤ ({ armedState with vcount := 227 } : State).vcount.toNat ∧
    (∀ ch : Channel, ¬ calm.dma[ch].armedFor 2) := by
  refine ⟨rfl, by decide, by decide, ?_⟩
  simp only [DmaChannel.armedFor]
  decide

theorem witness_HblankCaptureStoresScanline : let s := { armedState with vcount := 159 }
    KeypadSettled s ∧ s.mem.wf = true ∧ s.vcount.toNat < s.conf.linesVisible ∧
    s.dma[(0 : Channel)] = ⟨0xA300, 1, s.dma[(0 : Channel)].dad, 0x04000006, 0x02000000⟩ ∧
    (0x04000006#32).toNat = s.conf.addrVcount ∧
    (∀ other : Channel, other ≠ 0 → ¬ s.dma[other].armedFor 2) ∧
    (∀ j, j < 2 → onRegister calm.conf (0x02000000 + BitVec.ofNat 32 j) = false ∧
    inSram calm.conf (0x02000000 + BitVec.ofNat 32 j) = false ∧
      inRom calm.conf (0x02000000 + BitVec.ofNat 32 j) = false) := by
  refine ⟨rfl, rfl, by decide, rfl, by decide, ?_, by decide⟩
  simp only [DmaChannel.armedFor]
  decide

/-- Each comparison of the bounds at its boundary, alone. -/
theorem witness_StorageBoundsChecked : KeypadSettled calm ∧ calm.conf.sramSize < (0x10001#32).toNat ∧
    ((0x10000#32).toNat ≤ calm.conf.sramSize ∧ (0x0DFFFFFF#32).toNat < calm.conf.sramBase) ∧
    ((1#32).toNat ≤ calm.conf.sramSize ∧ calm.conf.sramBase ≤ (0x0E010000#32).toNat ∧
    calm.conf.sramBase + calm.conf.sramSize < (0x0E010000#32).toNat + (1#32).toNat) ∧
    ((0#32).toNat ≤ calm.conf.sramSize ∧ calm.conf.sramBase ≤ (0x0E010000#32).toNat ∧
    (0x0E010000#32).toNat + (0#32).toNat ≤ calm.conf.sramBase + calm.conf.sramSize) :=
  ⟨rfl, by decide, by decide, by decide, by decide⟩

/-- A write into the last bytes of the region, and a read from them. -/
theorem witness_StorageCopiesBytes : KeypadSettled calm ∧ calm.mem.wf = true ∧
    (∀ a b : Word, (a = 0x0E00FFFC ∧ b = 0x02000000) ∨ (a = 0x02000000 ∧ b = 0x0E00FFFC) →
      (∀ k, k < (4#32).toNat → onRegister calm.conf (a + BitVec.ofNat 32 k) = false ∧
      onRegister calm.conf (b + BitVec.ofNat 32 k) = false) ∧
      (∀ j k, j < (4#32).toNat → k < (4#32).toNat → b + BitVec.ofNat 32 j ≠ a + BitVec.ofNat 32 k)) ∧
    (4#32).toNat ≤ calm.conf.sramSize ∧ calm.conf.sramBase ≤ (0x0E00FFFC#32).toNat ∧
    (0x0E00FFFC#32).toNat + (4#32).toNat ≤ calm.conf.sramBase + calm.conf.sramSize := by
  refine ⟨rfl, by decide, ?_, by decide, by decide, by decide⟩
  rintro a b (⟨rfl, rfl⟩ | ⟨rfl, rfl⟩) <;> exact ⟨by decide, both_below (by decide)⟩

theorem witness_StorageRoundTrip : KeypadSettled calm ∧ calm.mem.wf = true ∧ boundsCheck calm.conf 0x0E000000 4 = none ∧
    (∀ k, k < (4#32).toNat → onRegister calm.conf (0x02000000 + BitVec.ofNat 32 k) = false ∧
      onRegister calm.conf (0x02000100 + BitVec.ofNat 32 k) = false ∧
      inRom calm.conf (0x02000100 + BitVec.ofNat 32 k) = false) ∧
    (∀ j k, j < (4#32).toNat → k < (4#32).toNat →
      (0x02000000#32) + BitVec.ofNat 32 j ≠ 0x0E000000 + BitVec.ofNat 32 k ∧
      (0x0E000000#32) + BitVec.ofNat 32 j ≠ 0x02000100 + BitVec.ofNat 32 k ∧
      (0x02000000#32) + BitVec.ofNat 32 j ≠ 0x02000100 + BitVec.ofNat 32 k) :=
  ⟨rfl, by decide, by decide, by decide, both_below (by decide)⟩

/-- Each register's address, and for the last clauses an odd address inside a register and one between two. -/
theorem witness_RegRdAnswers_RegWrWrites : [0x04000004#32, 0x04000006, 0x040000BA, 0x040000C6, 0x040000D2, 0x040000DE, 0x04000130,
      0x04000132, 0x04000200, 0x04000202, 0x04000208].map BitVec.toNat = calm.conf.registerAddresses ∧
    (0x04000005#32).toNat ∉ calm.conf.registerAddresses ∧ (0x04000204#32).toNat ∉ calm.conf.registerAddresses := by decide

/-- A register, a 32-bit unit on a register (IE, then IF above it), and a plain unit. -/
theorem witness_UnitsRouteToRegisters : regAt calm.conf 0x04000200 = some .ie ∧ inSram calm.conf 0x04000200 = false ∧
    capViolation calm.conf 0 0x04000200 = false ∧ calm.mem.wf = true ∧ regAt calm.conf 0x02000000 = none ∧
    inRom calm.conf 0x02000000 = false ∧ regAt calm.conf (0x02000000 + 2) = none ∧
    inRom calm.conf (0x02000000 + 2) = false := by decide

end Sys2Proof.Machine
end

section
/-! SUPPORT and PROOFS. The scope family: what every operation appends to OUT, that a rejection changes nothing else, that
well-formed operands are carried out, and the new scanline with its frame. -/

namespace Sys2Proof.Machine

/-! ## What an operation appends to OUT -/

theorem grows_setChannel (t : State) (ch : Channel) (d : DmaChannel) : Grows t (t.setChannel ch d) :=
  Grows.of_same rfl rfl

theorem grows_burst (ch : Channel) (fill : Option Word) (t : State) : Grows t (burst ch fill t).1 :=
  Grows.of_same (burst_out ch fill t) (burst_waiting ch fill t)

theorem grows_xferEnd (p : Platform) (ch : Channel) (r : State × Bool) : Grows r.1 (xferEnd p ch r) := by
  unfold xferEnd
  split
  · exact grows_dispatch _ _
  · exact Grows.refl _

/-- The body of an operation appends no response. -/
theorem Effect.grows {i : Instr} {s u : State} {d : Half} (h : Effect s i d u) : Grows s u := by
  cases h
  case keyPrs => exact Grows.refl s
  case keyHld => exact Grows.refl s
  case keyRel => exact Grows.refl s
  case dmaCopy => exact (grows_setChannel s _ _).trans (grows_burst _ _ _)
  case dmaFill => exact (grows_setChannel s _ _).trans (grows_burst _ _ _)
  case dmaXferNow =>
    exact ((grows_setChannel s _ _).trans (grows_burst _ _ _)).trans (grows_xferEnd _ _ _)
  case sramWr hu => rw [copyBytes_eq _ hu]; exact Grows.of_same rfl rfl
  case sramRd hu => rw [copyBytes_eq _ hu]; exact Grows.of_same rfl rfl
  case regRd => exact Grows.of_same (regRead_out _ _) (regRead_waiting _ _)
  case regWr => exact Grows.of_same (regWrite_out _ _ _) (regWrite_waiting _ _ _)
  case evtDispatch => exact grows_dispatch _ _
  case evtHdone => exact grows_leaveHandler _ _
  case evtLine => exact grows_startLine s
  case evtHbl => exact grows_startHblank s
  all_goals exact Grows.of_same rfl rfl

/-- After a body that appends no response, the response is the only one, and last. -/
theorem Grows.respond_out {s u : State} (h : Grows s u) (c : ResultCode) (d : Half) :
    ∃ rs : List Record, (respond c d u).out = s.out ++ rs ++ [.resp c d] ∧ ∀ r ∈ rs, r.isResp = false := by
  obtain ⟨rs, ho, hn, -⟩ := h.trans (grows_keypadEpilogue u)
  exact ⟨rs, by simp only [respond, emit_out, ho], hn⟩

/-- The end of a silent operation, whose body left OUT as it was, appends no response. -/
theorem keypadEpilogue_out {s u : State} (h : u.out = s.out) :
    ∃ rs : List Record, (keypadEpilogue u).out = s.out ++ rs ∧ ∀ r ∈ rs, r.isResp = false := by
  obtain ⟨rs, ho, hn, -⟩ := grows_keypadEpilogue u
  exact ⟨rs, by rw [ho, h], hn⟩

/-- Settles O8, by the cases of a next state of `exec`. -/
theorem oneResponsePerFrame : Obligations.OneResponsePerFrame := by
  intro i s t h
  rcases exec_cases h with ⟨h1, h2, c, -, rfl⟩ | ⟨h1, h2, d, u, hu, rfl⟩ | ⟨rfl, rfl⟩ | ⟨rfl, rfl⟩
  · obtain ⟨rs, ho⟩ := (Grows.refl s).respond_out c 0
    exact ⟨fun _ _ => ⟨rs, c, 0, ho⟩, fun hs => absurd hs (not_or.2 ⟨h1, h2⟩)⟩
  · obtain ⟨rs, ho⟩ := hu.grows.respond_out .ok d
    exact ⟨fun _ _ => ⟨rs, .ok, d, ho⟩, fun hs => absurd hs (not_or.2 ⟨h1, h2⟩)⟩
  · exact ⟨fun h1 => absurd rfl h1, fun _ => keypadEpilogue_out rfl⟩
  · exact ⟨fun _ h2 => absurd rfl h2, fun _ => keypadEpilogue_out rfl⟩

/-- Settles O9: a next state with a code other than OK is that of a rejection, whose epilogue does nothing on a settled
state. -/
theorem rejectionChangesNothing : Obligations.RejectionChangesNothing := by
  intro i s t rs code d hs h ho h1 h2 hc
  rcases exec_cases h with ⟨-, -, c, -, rfl⟩ | ⟨-, -, e, u, -, rfl⟩ | ⟨rfl, -⟩ | ⟨rfl, -⟩
  · rw [respond_settled hs] at ho ⊢
    obtain ⟨-, hr⟩ := List.append_inj' ho rfl
    cases hr
    rfl
  · obtain ⟨-, hr⟩ := List.append_inj' ho rfl
    cases hr
    exact absurd rfl hc
  · exact absurd rfl h1
  · exact absurd rfl h2

/-! ## Well-formed operands are carried out -/

theorem bitOf_sourceOf {c : Platform} {idx : BitVec 4} {src : Source} (h : sourceOf c idx = some src) (w : Half) :
    bitOf w src = w.getLsbD idx.toNat := by
  unfold sourceOf at h
  split at h
  · cases h; rfl
  · cases h

/-- A copy's range touches no register exactly when none of its bytes is on one. -/
theorem touchesRegister_eq_false {c : Platform} {n : Nat} {a : Word} :
    touchesRegister c a n = false ↔ ∀ k, k < n → onRegister c (a + BitVec.ofNat 32 k) = false := by
  induction n generalizing a with
  | zero => simp [touchesRegister]
  | succ n ih =>
    rw [touchesRegister, Bool.or_eq_false_iff, ih]
    simp only [ofNat_add_one]
    refine ⟨fun ⟨h0, hs⟩ k hk => ?_, fun h => ⟨by simpa using h 0 (by omega), fun k hk => h (k + 1) (by omega)⟩⟩
    cases k with
    | zero => simpa using h0
    | succ k => exact hs k (by omega)

/-- A copy that touches no register on either side completes. -/
theorem copyBytes_of_untouched {n : Nat} {dst src : Word} {t : State} (hs : touchesRegister t.conf src n = false)
    (hd : touchesRegister t.conf dst n = false) : ∃ u, copyBytes n dst src t = some u :=
  Option.isSome_iff_exists.1 ((copyBytes_isSome_iff n dst src t).2 fun k hk =>
    ⟨touchesRegister_eq_false.1 hs k hk, touchesRegister_eq_false.1 hd k hk⟩)

/-- A channel that passes the capability check. -/
theorem channelOf_of_any {idx : BitVec 4} {p : Channel → Bool} (h : (channelOf idx).any (fun ch => !p ch) = true) :
    ∃ ch, channelOf idx = some ch ∧ p ch = false := by
  simpa [Option.any_eq_true] using h

/-- The operands of a well-formed operation have an effect. -/
theorem effect_of_wellFormed {i : Instr} {s : State} (h : i.wellFormed s.conf = true)
    (hd : ∀ idx, i = .evtHdone idx → s.inService.getLsbD idx.toNat = true) (h1 : i ≠ .sysWaitvbl) (h2 : i ≠ .sysFatal) :
    ∃ d u, Effect s i d u := by
  cases i <;> simp only [Instr.wellFormed, Bool.and_eq_true, Bool.not_eq_true', Option.isNone_iff_eq_none,
    Option.isSome_iff_exists] at h
  case sysWaitvbl => exact absurd rfl h1
  case sysFatal => exact absurd rfl h2
  case irqInit => exact ⟨_, _, .irqInit⟩
  case irqSeth => obtain ⟨src, hs⟩ := h; exact ⟨_, _, .irqSeth hs⟩
  case irqEn => obtain ⟨src, hs⟩ := h; exact ⟨_, _, .irqEn hs⟩
  case irqDis => obtain ⟨src, hs⟩ := h; exact ⟨_, _, .irqDis hs⟩
  case irqVcnt => exact ⟨_, _, .irqVcnt⟩
  case keyUpd => exact ⟨_, _, .keyUpd⟩
  case keyPrs => exact ⟨_, _, .keyPrs⟩
  case keyHld => exact ⟨_, _, .keyHld⟩
  case keyRel => exact ⟨_, _, .keyRel⟩
  case keyIrqall => exact ⟨_, _, .keyIrqall⟩
  case keyIrqany => exact ⟨_, _, .keyIrqany⟩
  case keyIrqoff => exact ⟨_, _, .keyIrqoff⟩
  case dmaCopy => obtain ⟨ch, hch, hcap⟩ := channelOf_of_any h; exact ⟨_, _, .dmaCopy hch hcap⟩
  case dmaFill => obtain ⟨ch, hch⟩ := h; exact ⟨_, _, .dmaFill hch⟩
  case dmaXfer idx cw a b c =>
    obtain ⟨hv, hr⟩ := h
    obtain ⟨ch, hch, hcap⟩ := channelOf_of_any hv
    by_cases htm : ctrlTm cw = 0
    · exact ⟨_, _, .dmaXferNow hch hcap hr htm⟩
    · exact ⟨_, _, .dmaXferArm hch hcap hr htm⟩
  case dmaStop => obtain ⟨ch, hch⟩ := h; exact ⟨_, _, .dmaStop hch⟩
  case sramWr =>
    obtain ⟨⟨hb, hsrc⟩, hdst⟩ := h
    obtain ⟨u, hu⟩ := copyBytes_of_untouched hsrc hdst
    exact ⟨_, u, .sramWr hb hu⟩
  case sramRd =>
    obtain ⟨⟨hb, hsrc⟩, hdst⟩ := h
    obtain ⟨u, hu⟩ := copyBytes_of_untouched hsrc hdst
    exact ⟨_, u, .sramRd hb hu⟩
  case regRd => obtain ⟨r, hr⟩ := h; exact ⟨_, _, .regRd hr⟩
  case regWr =>
    obtain ⟨r, hr, hw⟩ := (Option.any_eq_true _ _).1 h
    exact ⟨_, _, .regWr hr (by simpa using hw)⟩
  case evtDispatch => obtain ⟨src, hs⟩ := h; exact ⟨_, _, .evtDispatch hs⟩
  case evtHdone idx =>
    obtain ⟨src, hs⟩ := h
    exact ⟨_, _, .evtHdone hs ((bitOf_sourceOf hs _).trans (hd idx rfl))⟩
  case evtLine => exact ⟨_, _, .evtLine⟩
  case evtHbl => exact ⟨_, _, .evtHbl⟩
  case evtKeys => exact ⟨_, _, .evtKeys⟩

/-- An effect is what the operation does: the converse of the inversion `exec_cases`. -/
theorem Effect.exec_eq {i : Instr} {s u : State} {d : Half} (h : Effect s i d u) :
    exec i s = .next (respond .ok d u) := by
  cases h
  case irqSeth h => simp only [exec, execIrqSeth, h, finish]
  case irqEn h => simp only [exec, execIrqEn, h, finish]
  case irqDis h => simp only [exec, execIrqDis, h, finish]
  case dmaCopy h hc => simp only [exec, execDmaCopy, h, hc, Bool.false_eq_true, if_false, finish, copyRecord]
  case dmaFill h => simp only [exec, execDmaFill, h, finish, fillRecord]
  case dmaXferNow h hc hr hm =>
    simp only [exec, execDmaXfer, h, hc, hr, hm, Bool.false_eq_true, if_false, if_true, finish, xferRecord]
    rfl
  case dmaXferArm h hc hr hm =>
    simp only [exec, execDmaXfer, h, hc, hr, hm, Bool.false_eq_true, if_false, finish, xferRecord]
  case dmaStop h => simp only [exec, execDmaStop, h, finish]
  case sramWr hb hu => simp only [exec, execSramWr, storageBody, hb, hu, finish]
  case sramRd hb hu => simp only [exec, execSramRd, storageBody, hb, hu, finish]
  case regRd h => simp only [exec, execRegRd, h, finish]
  case regWr h hw => simp only [exec, execRegWr, h, hw, Bool.false_eq_true, if_false, finish]
  case evtDispatch h => simp only [exec, execEvtDispatch, h, finish]
  case evtHdone h hi => simp only [exec, execEvtHdone, h, hi, if_true, finish]
  all_goals rfl

/-- Settles O11: well-formed operands have an effect, and the operation does it. -/
theorem wellFormedSucceeds : Obligations.WellFormedSucceeds := by
  intro i s h hd
  by_cases h1 : i = .sysWaitvbl
  · subst h1
    exact ⟨_, rfl, fun hn => absurd rfl hn⟩
  by_cases h2 : i = .sysFatal
  · subst h2
    exact ⟨_, rfl, fun _ hn => absurd rfl hn⟩
  obtain ⟨d, u, hu⟩ := effect_of_wellFormed h hd h1 h2
  obtain ⟨rs, ho, -⟩ := hu.grows.respond_out .ok d
  exact ⟨_, hu.exec_eq, fun _ _ => ⟨rs, d, ho⟩⟩

/-! ## The new scanline -/

theorem vblankStart_on {t : State} (h : t.vcount.toNat = t.conf.linesVisible) :
    vblankStart t = ((dispatch (srcVblank t.conf) (triggerDma 1 t).1).1, (triggerDma 1 t).2) := if_pos h

theorem vblankStart_off {t : State} (h : t.vcount.toNat ≠ t.conf.linesVisible) : vblankStart t = (t, []) := if_neg h

@[simp] theorem vblankStart_vcount (t : State) : (vblankStart t).1.vcount = t.vcount := by
  unfold vblankStart; split <;> simp

/-- What no event, no burst and no register write of the block reaches: VEC, the snapshot, KEYINPUT, `halted` and the
pending inputs are as they were. -/
structure SameBeyondEvents (t u : State) : Prop where
  vec : u.vec = t.vec
  keys : u.keys = t.keys
  keyinput : u.keyinput = t.keyinput
  halted : u.halted = t.halted
  pending : u.pending = t.pending

theorem SameBeyondEvents.trans {a b c : State} (h : SameBeyondEvents a b) (g : SameBeyondEvents b c) :
    SameBeyondEvents a c :=
  ⟨g.vec.trans h.vec, g.keys.trans h.keys, g.keyinput.trans h.keyinput, g.halted.trans h.halted,
    g.pending.trans h.pending⟩

theorem sameBeyondEvents_dispatch (s : Source) (t : State) : SameBeyondEvents t (dispatch s t).1 :=
  ⟨by simp, by simp, by simp, by simp, by simp⟩

theorem sameBeyondEvents_regWrite (r : Reg) (d : Half) (t : State) : SameBeyondEvents t (regWrite r d t) :=
  ⟨by simp, by simp, by simp, by simp, by simp⟩

/-- Bursts keep it. -/
theorem keptByUnits_sameBeyondEvents (s : State) : KeptByUnits (SameBeyondEvents s) where
  reg _ _ _ h := h.trans (sameBeyondEvents_regWrite _ _ _)
  poke _ _ _ h := h.trans ⟨rfl, rfl, rfl, rfl, rfl⟩
  draw _ h := h.trans ⟨rfl, rfl, rfl, rfl, rfl⟩
  chan _ _ _ h := h.trans ⟨rfl, rfl, rfl, rfl, rfl⟩

theorem sameBeyondEvents_startLine (t : State) : SameBeyondEvents t (startLine t) :=
  startLine_keeps (keptByUnits_sameBeyondEvents t) (fun s x _ h => h.trans (sameBeyondEvents_dispatch s x))
    ⟨rfl, rfl, rfl, rfl, rfl⟩

/-- What the dispatch of sources does not reach: `Mem`, the channels, IME, IE, DISPSTAT and KEYCNT are as they were. -/
structure SameStored (t u : State) : Prop where
  mem : u.mem = t.mem
  dma : u.dma = t.dma
  ime : u.ime = t.ime
  ie : u.ie = t.ie
  dispstat : u.dispstat = t.dispstat
  keycnt : u.keycnt = t.keycnt

theorem SameStored.trans {a b c : State} (h : SameStored a b) (g : SameStored b c) : SameStored a c :=
  ⟨g.mem.trans h.mem, g.dma.trans h.dma, g.ime.trans h.ime, g.ie.trans h.ie, g.dispstat.trans h.dispstat,
    g.keycnt.trans h.keycnt⟩

theorem sameStored_dispatch (s : Source) (t : State) : SameStored t (dispatch s t).1 :=
  ⟨by simp, by simp, by simp, by simp, by simp, by simp⟩

theorem sameStored_dispatchAll (l : List Source) (t : State) : SameStored t (dispatchAll l t) :=
  ⟨by simp, by simp, by simp, by simp, by simp, by simp⟩

theorem sameStored_vcountMatch (t : State) : SameStored t (vcountMatch t) :=
  vcountMatch_keeps (P := SameStored t) (fun s x _ h => h.trans (sameStored_dispatch s x)) ⟨rfl, rfl, rfl, rfl, rfl, rfl⟩

/-- Past the start of VBlank a new line stores nothing. -/
theorem sameStored_startLine (t : State) :
    SameStored (vblankStart (t.setVcount (nextLine t.conf t.vcount))).1 (startLine t) :=
  (sameStored_vcountMatch _).trans (sameStored_dispatchAll _ _)

/-- A line other than LINES_VISIBLE stores nothing at all. -/
theorem sameStored_startLine_off {t : State} (h : (t.vcount.toNat + 1) % t.conf.linesTotal ≠ t.conf.linesVisible) :
    SameStored t (startLine t) := by
  have hl := sameStored_startLine t
  rw [vblankStart_off (by simpa [nextLine_toNat] using h)] at hl
  exact SameStored.trans (b := t.setVcount (nextLine t.conf t.vcount)) ⟨rfl, rfl, rfl, rfl, rfl, rfl⟩ hl

/-- The start of VBlank leaves the record of a channel that is not armed for it. -/
theorem vblankStart_channel_idle {t : State} {ch : Channel} (h : ¬ t.dma[ch].armedFor 1) :
    (vblankStart t).1.dma[ch] = t.dma[ch] := by
  unfold vblankStart
  split
  · simp only [dispatch_dma]
    exact triggerChannels_other 1 channels t (.inl h)
  · rfl

/-- The start of VBlank stores only to the bytes the channels armed for it cover. -/
theorem readByte_vblankStart_ne {t : State} {x : Word}
    (h : ∀ ch : Channel, t.dma[ch].armedFor 1 → ¬ t.dma[ch].covers x) :
    readByte (vblankStart t).1 x = readByte t x := by
  unfold vblankStart
  split
  · rw [readByte_congr (dispatch_mem _ _)]
    exact readByte_triggerChannels_ne 1 channels channels_nodup t (fun ch _ => h ch)
  · rfl

/-- The order of a new line's events (60_exceptions.md R293), told with the counter's value `g` and the configuration of
the state the line began in. -/
theorem startLine_eq {s : State} {g : Byte} (hg : g = nextLine s.conf s.vcount) {r : State × List Source}
    (hr : r = if g.toNat = s.conf.linesVisible then
        ((dispatch (srcVblank s.conf) (triggerDma 1 (s.setVcount g)).1).1, (triggerDma 1 (s.setVcount g)).2)
      else (s.setVcount g, [])) :
    startLine s = dispatchAll r.2 (if g = r.1.dispstat.vcTgt then (dispatch (srcVcount s.conf) r.1).1 else r.1) := by
  have hv : r = vblankStart (s.setVcount g) := hr
  have hm : vcountMatch r.1 = if g = r.1.dispstat.vcTgt then (dispatch (srcVcount s.conf) r.1).1 else r.1 := by
    unfold vcountMatch
    rw [hv, vblankStart_vcount, vblankStart_conf, State.setVcount_vcount, State.setVcount_conf]
  rw [← hm, hv, hg]
  rfl

/-- Settles O48: the response to a new line, its counter, its order and its frame. -/
theorem evtLineStepsCounter : Obligations.EvtLineStepsCounter := by
  intro s
  have hg : (respond .ok 0 (startLine s)).vcount = nextLine s.conf s.vcount := by
    rw [respond_vcount, startLine_vcount]
  obtain ⟨hvec, hkeys, hkeyinput, hhalted, hpending⟩ := sameBeyondEvents_startLine s
  refine ⟨respond .ok 0 (startLine s), rfl, by rw [hg, nextLine_toNat], congrArg _ (startLine_eq hg rfl),
    by rw [respond_vec, hvec], by rw [respond_keys, hkeys], by rw [respond_keyinput, hkeyinput],
    by rw [respond_halted, hhalted], by rw [respond_pending, hpending], fun hoff => ?_, fun ch hch => ?_, fun x hx => ?_⟩
  · obtain ⟨hmem, hdma, hime, hie, hdispstat, hkeycnt⟩ := sameStored_startLine_off hoff
    simp only [respond_mem, respond_dma, respond_ime, respond_ie, respond_dispstat, respond_keycnt, hmem, hdma, hime, hie,
      hdispstat, hkeycnt, and_self]
  · rw [respond_dma, (sameStored_startLine s).dma]
    exact vblankStart_channel_idle hch
  · rw [readByte_congr (respond_mem _ _ _), readByte_congr (sameStored_startLine s).mem]
    exact readByte_vblankStart_ne hx

end Sys2Proof.Machine
end

section
/-! SUPPORT and PROOFS. The state family: the invariants every step keeps (channels, registers, snapshot, edge memory, OUT,
`halted`), who may write what, that the pending flags decide nothing, and start-up. -/

namespace Sys2Proof.Machine

/-! ## The fields of the control words the operations program -/

/-- The reserved bits of a control word are 0 (10_state.md R28). -/
def ReservedClear (c : Half) : Prop := ctrlLow c = 0 ∧ ctrlRes11 c = false

theorem reservedClear_copyWord (f : Bool) : ReservedClear (copyWord f) := by
  unfold ReservedClear; cases f <;> decide

theorem reservedClear_fillWord (f : Bool) : ReservedClear (fillWord f) := by
  unfold ReservedClear; cases f <;> decide

theorem ctrlTm_copyWord (f : Bool) : ctrlTm (copyWord f) = 0 := by cases f <;> decide

theorem ctrlTm_fillWord (f : Bool) : ctrlTm (fillWord f) = 0 := by cases f <;> decide

@[simp] theorem ctrlEn_disarmWord (c : Half) : ctrlEn (disarmWord c) = false := by simp [ctrlEn, disarmWord]

@[simp] theorem ctrlLow_disarmWord (c : Half) : ctrlLow (disarmWord c) = ctrlLow c := by
  rw [ctrlLow, disarmWord, BitVec.extractLsb'_and]
  exact BitVec.and_allOnes

@[simp] theorem ctrlRes11_disarmWord (c : Half) : ctrlRes11 (disarmWord c) = ctrlRes11 c := by
  simp [ctrlRes11, disarmWord]

theorem ReservedClear.disarmWord {c : Half} (h : ReservedClear c) : ReservedClear (disarmWord c) :=
  ⟨(ctrlLow_disarmWord c).trans h.1, (ctrlRes11_disarmWord c).trans h.2⟩

@[simp] theorem ctrlLow_xferWord (cw : Half) : ctrlLow (xferWord cw) = 0 := by
  simp [ctrlLow, xferWord, BitVec.extractLsb'_and, BitVec.extractLsb'_or]

@[simp] theorem ctrlRes11_xferWord (cw : Half) : ctrlRes11 (xferWord cw) = false := by simp [ctrlRes11, xferWord]

@[simp] theorem ctrlU32_xferWord (cw : Half) : ctrlU32 (xferWord cw) = ctrlU32 cw := by simp [ctrlU32, xferWord]

/-- The mask that keeps a two-bit field keeps all of it. -/
theorem and_three (x : BitVec 2) : x &&& 3#2 = x := BitVec.and_allOnes

@[simp] theorem ctrlDm_xferWord (cw : Half) : ctrlDm (xferWord cw) = ctrlDm cw := by
  simp [ctrlDm, xferWord, BitVec.extractLsb'_and, BitVec.extractLsb'_or, and_three]

@[simp] theorem ctrlSm_xferWord (cw : Half) : ctrlSm (xferWord cw) = ctrlSm cw := by
  simp [ctrlSm, xferWord, BitVec.extractLsb'_and, BitVec.extractLsb'_or, and_three]

@[simp] theorem ctrlTm_xferWord (cw : Half) : ctrlTm (xferWord cw) = ctrlTm cw := by
  simp [ctrlTm, xferWord, BitVec.extractLsb'_and, BitVec.extractLsb'_or, and_three]

theorem reservedClear_xferWord (cw : Half) : ReservedClear (xferWord cw) :=
  ⟨ctrlLow_xferWord cw, ctrlRes11_xferWord cw⟩

/-- A control word DMA.XFER accepts stays free of reserved codes when it is programmed. -/
theorem reservedCw_xferWord {cw : Half} (h : reservedCw cw = false) : reservedCw (xferWord cw) = false := by
  simp only [reservedCw, Bool.or_eq_false_iff] at h ⊢
  obtain ⟨⟨⟨⟨-, hdm⟩, hsm⟩, hsm'⟩, htm⟩ := h
  simp only [ctrlLow_xferWord, ctrlRes11_xferWord, ctrlDm_xferWord, ctrlSm_xferWord, ctrlTm_xferWord, hdm, hsm, hsm',
    htm, bne_self_eq_false, and_self]

/-- A timing that is neither immediate nor special is VBlank or HBlank. -/
theorem ctrlTm_deferred {cw : Half} (h : reservedCw cw = false) (hm : ctrlTm cw ≠ 0) :
    ctrlTm cw = 1 ∨ ctrlTm cw = 2 := by
  simp only [reservedCw, Bool.or_eq_false_iff, beq_eq_false_iff_ne] at h
  obtain ⟨-, htm⟩ := h
  generalize ctrlTm cw = tm at *
  revert tm; decide

/-! ## Aligned addresses -/

@[simp] theorem truncAddr_truncAddr (u : Bool) (a : Word) : truncAddr u (truncAddr u a) = truncAddr u a := by
  simp only [truncAddr, BitVec.and_assoc, BitVec.and_self]

theorem and_not_eq_self_iff {w : Nat} (a m : BitVec w) : a &&& ~~~m = a ↔ a &&& m = 0 := by
  constructor <;> intro h
  · rw [← h, BitVec.and_assoc]
    simp
  · ext k hk
    have hb := congrArg (·[k]) h
    simp only [BitVec.getElem_and, BitVec.getElem_not] at hb ⊢
    revert hb; cases a[k] <;> simp

/-- An address is its own truncation exactly when it is a multiple of the unit size. -/
theorem truncAddr_eq_self_iff (u : Bool) (a : Word) : truncAddr u a = a ↔ a.toNat % (unitBytes u).toNat = 0 := by
  rw [truncAddr, and_not_eq_self_iff, ← BitVec.toNat_inj, BitVec.toNat_and]
  cases u
  · simp [unitBytes, Nat.and_one_is_mod]
  · exact (Nat.and_two_pow_sub_one_eq_mod a.toNat 2).congr_left

/-- An aligned address moved by whole units, or not at all, is aligned. -/
theorem truncAddr_add_mul {u : Bool} {a : Word} (h : truncAddr u a = a) (n : Word) {step : Word}
    (hs : step = 0 ∨ step = unitBytes u) : truncAddr u (a + n * step) = a + n * step := by
  rcases hs with rfl | rfl
  · simpa using h
  · rw [truncAddr_eq_self_iff] at h ⊢
    rw [BitVec.toNat_add, BitVec.toNat_mul]
    cases u <;> simp [unitBytes] at h ⊢ <;> omega

theorem srcStep_cases (c : Half) : srcStep c = 0 ∨ srcStep c = unitBytes (ctrlU32 c) := by
  unfold srcStep; split <;> simp

theorem dstStep_cases (c : Half) : dstStep c = 0 ∨ dstStep c = unitBytes (ctrlU32 c) := by
  unfold dstStep; split <;> simp

/-! ## Legal channels -/

theorem ChannelLegal.reservedClear {d : DmaChannel} (h : ChannelLegal d) : ReservedClear d.ctrl := ⟨h.1, h.2.1⟩

/-- A disarmed channel need only have its reserved bits 0. -/
theorem channelLegal_disarmed {d : DmaChannel} (h : ReservedClear d.ctrl) :
    ChannelLegal { d with ctrl := disarmWord d.ctrl } :=
  ⟨h.disarmWord.1, h.disarmWord.2, fun he => by simp [ctrlEn_disarmWord] at he⟩

/-- The end of an immediate burst disarms the channel. -/
theorem channelLegal_endBurst_immediate {c : Half} {d : DmaChannel} (h : ReservedClear d.ctrl) (hm : ctrlTm c = 0) :
    ChannelLegal (d.endBurst c) := by
  rw [DmaChannel.endBurst, if_neg (fun hr => hr.2 hm)]
  exact channelLegal_disarmed h

/-- The end of any burst leaves a legal record legal: a reload gives the working destination an aligned address. -/
theorem ChannelLegal.endBurst {d : DmaChannel} (h : ChannelLegal d) (c : Half) : ChannelLegal (d.endBurst c) := by
  unfold DmaChannel.endBurst
  split
  · split
    · obtain ⟨hlow, hres, harmed⟩ := h
      refine ⟨hlow, hres, fun he => ?_⟩
      obtain ⟨htm, hcw, hsrc, -, hdad⟩ := harmed he
      exact ⟨htm, hcw, hsrc, hdad, hdad⟩
    · exact h
  · exact channelLegal_disarmed h.reservedClear

/-- The working addresses of a legal channel stay aligned over the units of a burst. -/
theorem ChannelLegal.moved {d : DmaChannel} (h : ChannelLegal d) (n : Word) :
    ChannelLegal { d with wsrc := d.wsrc + n * srcStep d.ctrl, wdst := d.wdst + n * dstStep d.ctrl } := by
  obtain ⟨hlow, hres, harmed⟩ := h
  refine ⟨hlow, hres, fun he => ?_⟩
  obtain ⟨htm, hcw, hsrc, hdst, hdad⟩ := harmed he
  exact ⟨htm, hcw, truncAddr_add_mul hsrc n (srcStep_cases _), truncAddr_add_mul hdst n (dstStep_cases _), hdad⟩

/-- The record a deferred DMA.XFER arms. -/
theorem channelLegal_xferRecord {cw : Half} (h : reservedCw cw = false) (hm : ctrlTm cw ≠ 0) (a b c : Word) :
    ChannelLegal (xferRecord cw a b c) := by
  refine ⟨ctrlLow_xferWord cw, ctrlRes11_xferWord cw, fun _ => ?_⟩
  simp only [xferRecord, ctrlTm_xferWord, ctrlU32_xferWord, truncAddr_truncAddr, and_true]
  exact ⟨ctrlTm_deferred h hm, reservedCw_xferWord h⟩

theorem ChannelsLegal.of_dma_eq {t u : State} (h : ChannelsLegal t) (hd : u.dma = t.dma) : ChannelsLegal u := by
  intro ch
  rw [hd]
  exact h ch

theorem ChannelsLegal.setChannel {t : State} (h : ChannelsLegal t) {ch : Channel} {d : DmaChannel}
    (hd : ChannelLegal d) : ChannelsLegal (t.setChannel ch d) := by
  intro o
  by_cases ho : o = ch
  · subst ho; rw [setChannel_same]; exact hd
  · rw [setChannel_other _ _ ho]; exact h o

/-- A burst of an immediate record programmed into a channel leaves every channel legal. -/
theorem ChannelsLegal.burst_immediate {t : State} (h : ChannelsLegal t) {ch : Channel} {d : DmaChannel}
    (hr : ReservedClear d.ctrl) (hm : ctrlTm d.ctrl = 0) (fill : Option Word) :
    ChannelsLegal (burst ch fill (t.setChannel ch d)).1 := by
  intro o
  by_cases ho : o = ch
  · subst ho
    rw [burst_channel, setChannel_same]
    exact channelLegal_endBurst_immediate hr hm
  · rw [burst_other ho, setChannel_other _ _ ho]
    exact h o

theorem mem_channels (ch : Channel) : ch ∈ channels := by
  revert ch; decide

/-- A channel armed for an edge has its own burst's record afterwards, every other one its old record. -/
theorem ChannelsLegal.triggerDma {t : State} (h : ChannelsLegal t) (tm : BitVec 2) :
    ChannelsLegal (triggerDma tm t).1 := by
  intro o
  unfold Machine.triggerDma
  by_cases ha : t.dma[o].armedFor tm
  · rw [triggerChannels_armed tm channels channels_nodup t (mem_channels o) ha, burst_channel]
    exact ((h o).moved t.dma[o].cnt).endBurst _
  · rw [triggerChannels_other tm channels t (.inl ha)]
    exact h o

theorem ChannelsLegal.startLine {t : State} (h : ChannelsLegal t) : ChannelsLegal (startLine t) := by
  refine ChannelsLegal.of_dma_eq ?_ (sameStored_startLine t).dma
  unfold vblankStart
  split
  · have hs : ChannelsLegal (t.setVcount (nextLine t.conf t.vcount)) := h.of_dma_eq rfl
    exact (hs.triggerDma 1).of_dma_eq (dispatch_dma _ _)
  · exact h.of_dma_eq rfl

theorem ChannelsLegal.startHblank {t : State} (h : ChannelsLegal t) : ChannelsLegal (startHblank t) := by
  have hb : ChannelsLegal (hblankBursts t).1 := by
    unfold hblankBursts
    split
    · exact h
    · exact h.triggerDma 2
  exact hb.of_dma_eq (by simp [Machine.startHblank])

@[simp] theorem xferEnd_dma (p : Platform) (ch : Channel) (r : State × Bool) : (xferEnd p ch r).dma = r.1.dma := by
  unfold xferEnd; split <;> simp

theorem Effect.channelsLegal {i : Instr} {s u : State} {d : Half} (e : Effect s i d u) (h : ChannelsLegal s) :
    ChannelsLegal u := by
  cases e
  case keyPrs => exact h
  case keyHld => exact h
  case keyRel => exact h
  case dmaCopy => exact h.burst_immediate (d := copyRecord _ _ _ _) (reservedClear_copyWord _) (ctrlTm_copyWord _) _
  case dmaFill => exact h.burst_immediate (d := fillRecord _ _ _ _) (reservedClear_fillWord _) (ctrlTm_fillWord _) _
  case dmaXferNow hr hm =>
    exact (h.burst_immediate (d := xferRecord _ _ _ _) (reservedClear_xferWord _) ((ctrlTm_xferWord _).trans hm)
      _).of_dma_eq (xferEnd_dma _ _ _)
  case dmaXferArm hr hm => exact h.setChannel (channelLegal_xferRecord hr hm _ _ _)
  case dmaStop => exact h.setChannel (channelLegal_disarmed (h _).reservedClear)
  case sramWr hu => rw [copyBytes_eq _ hu]; exact h.of_dma_eq rfl
  case sramRd hu => rw [copyBytes_eq _ hu]; exact h.of_dma_eq rfl
  case regRd => exact h.of_dma_eq (regRead_dma _ _)
  case regWr => exact h.of_dma_eq (regWrite_dma _ _ _)
  case evtDispatch => exact h.of_dma_eq (dispatch_dma _ _)
  case evtHdone => exact h.of_dma_eq (leaveHandler_dma _ _)
  case evtLine => exact h.startLine
  case evtHbl => exact h.startHblank
  all_goals exact h.of_dma_eq rfl

theorem ChannelsLegal.fatalState {t : State} (h : ChannelsLegal t) : ChannelsLegal (fatalState t) := by
  intro ch
  have hd : (Machine.fatalState t).dma[ch] = { t.dma[ch] with ctrl := disarmWord t.dma[ch].ctrl } := by
    simp [Machine.fatalState, disarmAll]
  rw [hd]
  exact channelLegal_disarmed (h ch).reservedClear

/-- Settles O16: every record an operation or an edge leaves is a disarmed one, or a deferred one with aligned addresses. -/
theorem stepKeepsChannelsLegal : Obligations.StepKeepsChannelsLegal := by
  intro s t h hst
  refine step_keeps (P := ChannelsLegal) (fun s l hs => hs.of_dma_eq rfl) (fun a v s hs => hs.of_dma_eq (by simp))
    (fun c s hs => hs.of_dma_eq (by simp)) (fun i s t hs hex => ?_) h hst
  exact exec_keeps (P := ChannelsLegal) (fun x hx => hx.of_dma_eq (by simp)) (fun r x hx => hx.of_dma_eq rfl) hs
    (fun _ _ _ e => e.channelsLegal hs) (hs.of_dma_eq rfl) hs.fatalState hex

/-! ## What an operation leaves to its own writers -/

/-- What only named operations change: to what no event reaches (`SameBeyondEvents`) the scanline and the configuration
are added. -/
structure SameOwned (t u : State) : Prop extends SameBeyondEvents t u where
  vcount : u.vcount = t.vcount
  conf : u.conf = t.conf

theorem SameOwned.refl (t : State) : SameOwned t t := ⟨⟨rfl, rfl, rfl, rfl, rfl⟩, rfl, rfl⟩

theorem SameOwned.trans {a b c : State} (h : SameOwned a b) (g : SameOwned b c) : SameOwned a c :=
  ⟨h.toSameBeyondEvents.trans g.toSameBeyondEvents, g.vcount.trans h.vcount, g.conf.trans h.conf⟩

theorem sameOwned_dispatch (s : Source) (t : State) : SameOwned t (dispatch s t).1 :=
  ⟨sameBeyondEvents_dispatch s t, by simp, by simp⟩

theorem sameOwned_regWrite (r : Reg) (d : Half) (t : State) : SameOwned t (regWrite r d t) :=
  ⟨sameBeyondEvents_regWrite r d t, by simp, by simp⟩

/-- Bursts keep it. -/
theorem keptByUnits_sameOwned (s : State) : KeptByUnits (SameOwned s) where
  reg _ _ _ h := h.trans (sameOwned_regWrite _ _ _)
  poke _ _ _ h := h.trans ⟨⟨rfl, rfl, rfl, rfl, rfl⟩, rfl, rfl⟩
  draw _ h := h.trans ⟨⟨rfl, rfl, rfl, rfl, rfl⟩, rfl, rfl⟩
  chan _ _ _ h := h.trans ⟨⟨rfl, rfl, rfl, rfl, rfl⟩, rfl, rfl⟩

theorem sameOwned_burst (s : State) (ch : Channel) (d : DmaChannel) (fill : Option Word) :
    SameOwned s (burst ch fill (s.setChannel ch d)).1 :=
  (keptByUnits_sameOwned s).burst ch fill ((keptByUnits_sameOwned s).chan ch d s (.refl s))

theorem sameOwned_xferEnd (p : Platform) (ch : Channel) (r : State × Bool) : SameOwned r.1 (xferEnd p ch r) := by
  unfold xferEnd
  split
  · exact sameOwned_dispatch _ _
  · exact .refl _

theorem sameOwned_startHblank (t : State) : SameOwned t (startHblank t) :=
  startHblank_keeps (keptByUnits_sameOwned t) (fun s x _ h => h.trans (sameOwned_dispatch s x)) (.refl t)

theorem sameOwned_keypadEpilogue (t : State) : SameOwned t (keypadEpilogue t) :=
  ⟨⟨by simp, by simp, by simp, by simp, by simp⟩, by simp, by simp⟩

theorem sameOwned_respond (c : ResultCode) (d : Half) (t : State) : SameOwned t (respond c d t) :=
  ⟨⟨by simp, by simp, by simp, by simp, by simp⟩, by simp, by simp⟩

/-- Each of VEC, VCOUNT, KEYINPUT, the snapshot and `halted` is as it was unless `i` is one of its writers; the
configuration has none. -/
structure OwnWriters (i : Instr) (s t : State) : Prop where
  vec : i ≠ .irqInit → (∀ idx f a, i ≠ .irqSeth idx f a) → i ≠ .sysFatal → t.vec = s.vec
  vcount : i ≠ .evtLine → t.vcount = s.vcount
  keyinput : (∀ imm, i ≠ .evtKeys imm) → t.keyinput = s.keyinput
  keys : i ≠ .keyUpd → t.keys = s.keys
  halted : i ≠ .sysFatal → t.halted = s.halted
  conf : t.conf = s.conf

theorem SameOwned.ownWriters {s t : State} (h : SameOwned s t) (i : Instr) : OwnWriters i s t :=
  ⟨fun _ _ _ => h.vec, fun _ => h.vcount, fun _ => h.keyinput, fun _ => h.keys, fun _ => h.halted, h.conf⟩

theorem OwnWriters.trans {i : Instr} {s t u : State} (h : OwnWriters i s t) (g : SameOwned t u) : OwnWriters i s u :=
  ⟨fun h1 h2 h3 => g.vec.trans (h.vec h1 h2 h3), fun h1 => g.vcount.trans (h.vcount h1),
    fun h1 => g.keyinput.trans (h.keyinput h1), fun h1 => g.keys.trans (h.keys h1),
    fun h1 => g.halted.trans (h.halted h1), g.conf.trans h.conf⟩

/-- The five operations that write one of these members write no other; the rest write none. -/
theorem Effect.ownWriters {i : Instr} {s u : State} {d : Half} (h : Effect s i d u) : OwnWriters i s u := by
  cases h
  case irqInit => exact ⟨fun hn => absurd rfl hn, fun _ => rfl, fun _ => rfl, fun _ => rfl, fun _ => rfl, rfl⟩
  case irqSeth => exact ⟨fun _ hn => absurd rfl (hn _ _ _), fun _ => rfl, fun _ => rfl, fun _ => rfl, fun _ => rfl, rfl⟩
  case keyUpd => exact ⟨fun _ _ _ => rfl, fun _ => rfl, fun _ => rfl, fun hn => absurd rfl hn, fun _ => rfl, rfl⟩
  case evtKeys => exact ⟨fun _ _ _ => rfl, fun _ => rfl, fun hn => absurd rfl (hn _), fun _ => rfl, fun _ => rfl, rfl⟩
  case evtLine =>
    obtain ⟨hvec, hkeys, hkeyinput, hhalted, -⟩ := sameBeyondEvents_startLine s
    exact ⟨fun _ _ _ => hvec, fun hn => absurd rfl hn, fun _ => hkeyinput, fun _ => hkeys, fun _ => hhalted,
      startLine_conf s⟩
  all_goals refine SameOwned.ownWriters ?_ _
  case keyPrs => exact .refl s
  case keyHld => exact .refl s
  case keyRel => exact .refl s
  case dmaCopy => exact sameOwned_burst s _ _ _
  case dmaFill => exact sameOwned_burst s _ _ _
  case dmaXferNow => exact (sameOwned_burst s _ _ _).trans (sameOwned_xferEnd _ _ _)
  case sramWr hu => rw [copyBytes_eq _ hu]; exact ⟨⟨rfl, rfl, rfl, rfl, rfl⟩, rfl, rfl⟩
  case sramRd hu => rw [copyBytes_eq _ hu]; exact ⟨⟨rfl, rfl, rfl, rfl, rfl⟩, rfl, rfl⟩
  case regRd => exact ⟨⟨by simp, by simp, by simp, by simp, by simp⟩, by simp, by simp⟩
  case regWr => exact sameOwned_regWrite _ _ _
  case evtDispatch => exact sameOwned_dispatch _ _
  case evtHdone => exact ⟨⟨by simp, by simp, by simp, by simp, by simp⟩, by simp, by simp⟩
  case evtHbl => exact sameOwned_startHblank s
  all_goals exact ⟨⟨rfl, rfl, rfl, rfl, rfl⟩, rfl, rfl⟩

theorem ownWriters_fatalState (s : State) : OwnWriters .sysFatal s (fatalState s) :=
  ⟨fun _ _ hn => absurd rfl hn, fun _ => rfl, fun _ => rfl, fun _ => rfl, fun hn => absurd rfl hn, rfl⟩

theorem ownWriters_exec {i : Instr} {s t : State} (h : exec i s = .next t) : OwnWriters i s t := by
  rcases exec_cases h with ⟨-, -, c, -, rfl⟩ | ⟨-, -, d, u, hu, rfl⟩ | ⟨rfl, rfl⟩ | ⟨rfl, rfl⟩
  · exact (sameOwned_respond c 0 s).ownWriters i
  · exact hu.ownWriters.trans (sameOwned_respond .ok d u)
  · have hw : SameOwned s (s.setWaiting true) := ⟨⟨rfl, rfl, rfl, rfl, rfl⟩, rfl, rfl⟩
    exact (hw.trans (sameOwned_keypadEpilogue _)).ownWriters _
  · exact (ownWriters_fatalState s).trans (sameOwned_keypadEpilogue _)

/-- Settles O22: the writers of `exec`, without `halted`. -/
theorem singleWriters : Obligations.SingleWriters := by
  intro i s t h
  obtain ⟨hvec, hvcount, hkeyinput, hkeys, -, hconf⟩ := ownWriters_exec h
  exact ⟨hvec, hvcount, hkeyinput, hkeys, hconf⟩

/-! ## The halted state -/

/-- SYS.FATAL leads to a halted state, from any state. -/
theorem exec_sysFatal_halted {s t : State} (h : exec .sysFatal s = .next t) : t.halted = true := by
  cases h
  exact keypadEpilogue_halted _

theorem exec_keeps_halted {i : Instr} {s t : State} (hs : s.halted = true) (h : exec i s = .next t) :
    t.halted = true := by
  by_cases hi : i = .sysFatal
  · subst hi; exact exec_sysFatal_halted h
  · exact ((ownWriters_exec h).halted hi).trans hs

/-- Settles O12: `halted` is as it was after every operation but SYS.FATAL, which sets it. -/
theorem haltedEnteredByFatalOnly : Obligations.HaltedEnteredByFatalOnly := by
  refine ⟨fun s t hst hs => ?_, fun i s t h ht => ?_⟩
  · exact step_keeps (P := fun x => x.halted = true) (fun _ _ h => h) (fun _ _ _ h => by simpa using h)
      (fun _ _ h => by simpa using h) (fun _ _ _ h hex => exec_keeps_halted h hex) hs hst
  · by_cases hi : i = .sysFatal
    · exact .inr hi
    · exact .inl (((ownWriters_exec h).halted hi).symm.trans ht)

/-! ## OUT

`t.out <+: u.out`: the OUT of `u` begins with the OUT of `t`. -/

theorem out_le_respond (c : ResultCode) (d : Half) (t : State) : t.out <+: (respond c d t).out := by
  obtain ⟨rs, ho, -⟩ := respond_out c d t
  exact ⟨rs ++ [.resp c d], by rw [ho, List.append_assoc]⟩

theorem Grows.out_le {t u : State} (h : Grows t u) : t.out <+: u.out := by
  obtain ⟨rs, ho, -, -⟩ := h
  exact ⟨rs, ho.symm⟩

theorem out_le_exec {i : Instr} {s t : State} (h : exec i s = .next t) : s.out <+: t.out := by
  rcases exec_cases h with ⟨-, -, c, -, rfl⟩ | ⟨-, -, d, u, hu, rfl⟩ | ⟨-, rfl⟩ | ⟨-, rfl⟩
  · exact out_le_respond c 0 s
  · exact hu.grows.out_le.trans (out_le_respond .ok d u)
  · exact (grows_keypadEpilogue (s.setWaiting true)).out_le
  · exact (grows_keypadEpilogue (fatalState s)).out_le

/-- Settles O7: an exec and a rejection append to OUT, and nothing else writes it. -/
theorem outOnlyGrows : Obligations.OutOnlyGrows := by
  intro s t hst
  have hp : s.out <+: t.out := step_keeps (P := fun x => s.out <+: x.out) (fun _ _ h => h)
    (fun _ _ _ h => by simpa using h) (fun c x h => h.trans (out_le_respond c 0 x))
    (fun _ _ _ h hex => h.trans (out_le_exec hex)) ⟨[], List.append_nil _⟩ hst
  obtain ⟨rs, ho⟩ := hp
  exact ⟨rs, ho.symm⟩

/-! ## The keypad snapshot and the edge memory -/

theorem Snapshot.sample_derived (k : Snapshot) (lines : Half) : SnapshotDerived (k.sample lines) := ⟨rfl, rfl⟩

theorem exec_keeps_snapshotDerived {i : Instr} {s t : State} (hs : SnapshotDerived s.keys) (h : exec i s = .next t) :
    SnapshotDerived t.keys := by
  by_cases hi : i = .keyUpd
  · subst hi
    cases h
    rw [respond_keys]
    exact s.keys.sample_derived s.keyinput
  · rw [(ownWriters_exec h).keys hi]
    exact hs

/-- Settles O17: KEY.UPD alone writes the snapshot, and it computes both masks. -/
theorem stepKeepsSnapshotDerived : Obligations.StepKeepsSnapshotDerived := by
  intro s t hs hst
  exact step_keeps (P := fun x => SnapshotDerived x.keys) (fun _ _ h => h) (fun _ _ _ h => by simpa using h)
    (fun _ _ h => by simpa using h) (fun _ _ _ h hex => exec_keeps_snapshotDerived h hex) hs hst

theorem respond_leaves_settled (c : ResultCode) (d : Half) (t : State) : KeypadSettled (respond c d t) :=
  (keypadEpilogue_leaves_settled t).of_eq rfl rfl rfl

/-- Every operation ends with the epilogue, which remembers the line. -/
theorem exec_leaves_settled {i : Instr} {s t : State} (h : exec i s = .next t) : KeypadSettled t := by
  rcases exec_cases h with ⟨-, -, c, -, rfl⟩ | ⟨-, -, d, u, -, rfl⟩ | ⟨-, rfl⟩ | ⟨-, rfl⟩
  · exact respond_leaves_settled c 0 s
  · exact respond_leaves_settled .ok d u
  · exact keypadEpilogue_leaves_settled _
  · exact keypadEpilogue_leaves_settled _

/-- Settles O18: a frame leaves the state settled, and a processor's store changes nothing the line is read from. -/
theorem stepLeavesKeypadSettled : Obligations.StepLeavesKeypadSettled := by
  intro s t hs hst
  exact step_keeps (P := KeypadSettled) (fun _ _ h => h.of_eq rfl rfl rfl)
    (fun _ _ _ h => h.of_eq (by simp) (by simp) (by simp)) (fun c x _ => respond_leaves_settled c 0 x)
    (fun _ _ _ _ hex => exec_leaves_settled hex) hs hst

/-! ## The pending flags -/

theorem lineOn_setIflag (r : Source) (w : Half) (t : State) : lineOn r (t.setIflag w) = lineOn r t := rfl

theorem takes_setIflag (r : Source) (w : Half) (t : State) : takes r (t.setIflag w) = takes r t := rfl

theorem latch_setIflag (r : Source) (w : Half) (t : State) : ∃ v, latch r (t.setIflag w) = (latch r t).setIflag v := by
  cases hl : lineOn r t with
  | false => exact ⟨w, by rw [latch_off hl, latch_off ((lineOn_setIflag r w t).trans hl)]⟩
  | true => exact ⟨setBit w r, by rw [latch_on hl, latch_on ((lineOn_setIflag r w t).trans hl)]; rfl⟩

theorem wakeIfWaiting_setIflag (r : Source) (w : Half) (t : State) :
    wakeIfWaiting r (t.setIflag w) = (wakeIfWaiting r t).setIflag w := by
  by_cases hw : r = srcVblank t.conf ∧ t.waiting = true
  · rw [wakeIfWaiting, wakeIfWaiting, if_pos hw, if_pos (by simpa using hw)]
    rfl
  · rw [wakeIfWaiting, wakeIfWaiting, if_neg hw, if_neg (by simpa using hw)]

/-- With another IF `Dispatch` decides and does the same, but for the IF it leaves. -/
theorem dispatch_setIflag (r : Source) (w : Half) (t : State) :
    ∃ v, dispatch r (t.setIflag w) = ((dispatch r t).1.setIflag v, (dispatch r t).2) := by
  obtain ⟨v, hv⟩ := latch_setIflag r w t
  refine ⟨v, ?_⟩
  rcases dispatch_cases r t with ⟨ht, he⟩ | ⟨ht, a, ha, he⟩ | ⟨ht, ha, he⟩ <;> rw [he]
  · rw [dispatch_lost ((takes_setIflag r w t).trans ht), hv]
  · rw [dispatch_invoked ((takes_setIflag r w t).trans ht) ha, hv]
    rfl
  · rw [dispatch_absent ((takes_setIflag r w t).trans ht) ha, hv, wakeIfWaiting_setIflag]

theorem keypadEpilogue_setIflag (w : Half) (t : State) :
    ∃ v, keypadEpilogue (t.setIflag w) = (keypadEpilogue t).setIflag v := by
  obtain ⟨v, hv⟩ := dispatch_setIflag (srcKeypad t.conf) w t
  by_cases hn : keypadLine t = false ∨ t.kpLinePrev = true
  · exact ⟨w, by rw [keypadEpilogue_no_edge hn, keypadEpilogue_no_edge (t := t.setIflag w) hn]; rfl⟩
  · rw [not_or, Bool.not_eq_false, Bool.not_eq_true] at hn
    obtain ⟨hl, hp⟩ := hn
    refine ⟨v, ?_⟩
    rw [keypadEpilogue_edge hl hp, keypadEpilogue_edge (t := t.setIflag w) hl hp, State.setIflag_conf, hv]
    rfl

theorem respond_setIflag (c : ResultCode) (d w : Half) (t : State) :
    ∃ v, respond c d (t.setIflag w) = (respond c d t).setIflag v := by
  obtain ⟨v, hv⟩ := keypadEpilogue_setIflag w t
  exact ⟨v, by rw [respond, hv]; rfl⟩

/-- With another IF EVT.DISPATCH leads to the same state, but for IF. -/
theorem exec_evtDispatch_setIflag {idx : BitVec 4} {s t : State} (w : Half) (h : exec (.evtDispatch idx) s = .next t) :
    ∃ v, exec (.evtDispatch idx) (s.setIflag w) = .next (t.setIflag v) := by
  simp only [exec, execEvtDispatch, State.setIflag_conf] at h ⊢
  cases hs : sourceOf s.conf idx with
  | none =>
    obtain ⟨v, hv⟩ := respond_setIflag .source 0 w s
    rw [hs] at h
    cases h
    exact ⟨v, congrArg _ hv⟩
  | some src =>
    obtain ⟨v, hv⟩ := dispatch_setIflag src w s
    obtain ⟨v', hv'⟩ := respond_setIflag .ok (if (dispatch src s).2 then 1 else 0) v (dispatch src s).1
    rw [hs] at h
    cases h
    exact ⟨v', by simp only [hv, finish, hv']⟩

/-- Settles O25: the two next states differ in IF alone. -/
theorem pendingFlagsNeverDecide : Obligations.PendingFlagsNeverDecide := by
  intro idx s t w h
  obtain ⟨v, hv⟩ := exec_evtDispatch_setIflag w h
  exact ⟨_, hv, rfl⟩

/-! ## Registers in their ranges -/

theorem RegistersLegal.sources {t : State} (h : RegistersLegal t) : SourcesLegal t := h.2.2.1

/-- What the ranges need beside IF and in_service is read from VCOUNT, KEYCNT, VEC and the configuration. -/
theorem RegistersLegal.of_eq {t u : State} (h : RegistersLegal t) (hs : SourcesLegal u) (hv : u.vcount = t.vcount)
    (hk : u.keycnt = t.keycnt) (hvec : u.vec = t.vec) (hc : u.conf = t.conf) : RegistersLegal u := by
  obtain ⟨hline, hkeycnt, -, hslots⟩ := h
  refine ⟨by rw [hv, hc]; exact hline, by rw [hk]; exact hkeycnt, hs, fun src hsrc => ?_⟩
  rw [hvec]
  exact hslots src (hc ▸ hsrc)

theorem RegistersLegal.setKeycnt {t : State} (h : RegistersLegal t) {k : Half} (hk : k &&& ~~~keycntMask = 0) :
    RegistersLegal (t.setKeycnt k) := by
  obtain ⟨hline, -, hsrc, hslots⟩ := h
  exact ⟨hline, hk, hsrc, hslots⟩

theorem RegistersLegal.setVcount {t : State} (h : RegistersLegal t) {v : Byte} (hv : v.toNat < t.conf.linesTotal) :
    RegistersLegal (t.setVcount v) := by
  obtain ⟨-, hkeycnt, hsrc, hslots⟩ := h
  exact ⟨hv, hkeycnt, hsrc, hslots⟩

/-- A handler installed below N_SOURCES leaves the slots at and above it absent. -/
theorem RegistersLegal.setSlot {t : State} (h : RegistersLegal t) {src : Source} (hsrc : src.val < t.conf.nSources)
    (v : Option Word) : RegistersLegal (t.setVec (t.vec.set src v)) := by
  obtain ⟨hline, hkeycnt, hsources, hslots⟩ := h
  refine ⟨hline, hkeycnt, hsources, fun o ho => ?_⟩
  have hne : src.val ≠ o.val := Nat.ne_of_lt (Nat.lt_of_lt_of_le hsrc ho)
  simpa [hne] using hslots o ho

theorem registersLegal_dispatch {s : Source} {t : State} (hs : s.val < t.conf.nSources) (h : RegistersLegal t) :
    RegistersLegal (dispatch s t).1 :=
  h.of_eq (sourcesLegal_dispatch hs h.sources) (by simp) (by simp) (by simp) (by simp)

theorem registersLegal_keypadEpilogue {t : State} (h : RegistersLegal t) : RegistersLegal (keypadEpilogue t) :=
  h.of_eq (sourcesLegal_keypadEpilogue h.sources) (by simp) (by simp) (by simp) (by simp)

theorem registersLegal_emit (r : Record) {t : State} (h : RegistersLegal t) : RegistersLegal (emit r t) := h

theorem keycntMask_masked (d : Half) : (d &&& keycntMask) &&& ~~~keycntMask = 0 := by
  rw [BitVec.and_assoc]; simp

theorem registersLegal_regWrite (r : Reg) (d : Half) {t : State} (h : RegistersLegal t) :
    RegistersLegal (regWrite r d t) := by
  cases r
  case keycnt => exact h.setKeycnt (keycntMask_masked d)
  all_goals exact h.of_eq (regWrite_sourcesLegal _ d h.sources) rfl rfl rfl rfl

/-- Bursts keep the ranges. -/
theorem keptByUnits_registersLegal : KeptByUnits RegistersLegal where
  reg r d _ h := registersLegal_regWrite r d h
  poke _ _ _ h := h
  draw _ h := h
  chan _ _ _ h := h

/-- KEY_SEL_MASK lies in bits 9:0 (00_scope.md R4, 10_state.md R27). -/
theorem keySelMask_high (c : Platform) : c.keySelMask &&& 0xFC00 = 0 := by
  obtain ⟨-, -, -, -, -, -, -, -, -, -, -, -, -, -, -, -, -, h⟩ := c.ok
  exact h

/-- The word KEY.IRQALL and KEY.IRQANY store keeps bits 13:10 zero. -/
theorem keycnt_select (c : Platform) (imm : Half) {w : Half} (hw : w &&& ~~~keycntMask = 0) :
    (w ||| (imm &&& c.keySelMask)) &&& ~~~keycntMask = 0 := by
  have hm : c.keySelMask &&& ~~~keycntMask = 0 := by
    calc c.keySelMask &&& ~~~keycntMask = c.keySelMask &&& (0xFC00 &&& ~~~keycntMask) := by rfl
      _ = 0 := by rw [← BitVec.and_assoc, keySelMask_high]; exact BitVec.zero_and
  rw [BitVec.and_or_distrib_right, hw, BitVec.and_assoc, hm]
  simp

theorem registersLegal_startLine {t : State} (h : RegistersLegal t) : RegistersLegal (startLine t) := by
  refine startLine_keeps keptByUnits_registersLegal (fun _ _ => registersLegal_dispatch) (h.setVcount ?_)
  rw [nextLine_toNat]
  exact Nat.mod_lt _ (lines_pos t.conf)

theorem registersLegal_startHblank {t : State} (h : RegistersLegal t) : RegistersLegal (startHblank t) :=
  startHblank_keeps keptByUnits_registersLegal (fun _ _ => registersLegal_dispatch) h

theorem registersLegal_burst {t : State} (h : RegistersLegal t) (ch : Channel) (d : DmaChannel) (fill : Option Word) :
    RegistersLegal (burst ch fill (t.setChannel ch d)).1 :=
  keptByUnits_registersLegal.burst ch fill (keptByUnits_registersLegal.chan ch d t h)

theorem registersLegal_xferEnd {p : Platform} (ch : Channel) {r : State × Bool} (hp : r.1.conf = p)
    (h : RegistersLegal r.1) : RegistersLegal (xferEnd p ch r) := by
  subst hp
  unfold xferEnd
  split
  · exact registersLegal_dispatch (srcDmaEnd_lt _ _) h
  · exact h

theorem Effect.registersLegal {i : Instr} {s u : State} {d : Half} (e : Effect s i d u) (h : RegistersLegal s) :
    RegistersLegal u := by
  cases e
  case irqInit =>
    obtain ⟨hline, hkeycnt, hsources, -⟩ := h
    exact ⟨hline, hkeycnt, fun k hk => ⟨BitVec.getLsbD_zero, (hsources k hk).2⟩, fun src _ => by simp⟩
  case irqSeth hs => exact h.setSlot (sourceOf_lt hs) _
  case keyIrqall => exact h.setKeycnt (keycnt_select _ _ (by decide))
  case keyIrqany => exact h.setKeycnt (keycnt_select _ _ (by decide))
  case keyIrqoff => exact h.setKeycnt (by decide)
  case dmaCopy => exact registersLegal_burst h _ _ _
  case dmaFill => exact registersLegal_burst h _ _ _
  case dmaXferNow => exact registersLegal_xferEnd _ (burst_conf _ _ _) (registersLegal_burst h _ _ _)
  case sramWr hu => rw [copyBytes_eq _ hu]; exact h
  case sramRd hu => rw [copyBytes_eq _ hu]; exact h
  case regRd => exact keptByUnits_registersLegal.regRead _ h
  case regWr => exact registersLegal_regWrite _ _ h
  case evtDispatch hs => exact registersLegal_dispatch (sourceOf_lt hs) h
  case evtHdone =>
    exact h.of_eq (sourcesLegal_leaveHandler _ h.sources) (by simp) (by simp) (by simp) (by simp)
  case evtLine => exact registersLegal_startLine h
  case evtHbl => exact registersLegal_startHblank h
  all_goals exact h

theorem RegistersLegal.fatalState {t : State} (h : RegistersLegal t) : RegistersLegal (fatalState t) := by
  obtain ⟨hline, hkeycnt, hsources, -⟩ := h
  exact ⟨hline, hkeycnt, hsources, fun src _ => by simp [Machine.fatalState]⟩

/-- Settles O15: the counter is reduced modulo LINES_TOTAL, KEYCNT is written through its masks, and every source that sets
a bit or takes a slot is below N_SOURCES. -/
theorem stepKeepsRegistersLegal : Obligations.StepKeepsRegistersLegal := by
  intro s t hs hst
  refine step_keeps (P := RegistersLegal) (fun _ _ h => h) (fun a v x h => ?_)
    (fun c x h => registersLegal_emit _ (registersLegal_keypadEpilogue h)) (fun i x y h hex => ?_) hs hst
  · exact h.of_eq (h.sources.congr (by simp) (by simp) (by simp)) (by simp) (by simp) (by simp) (by simp)
  · exact exec_keeps (P := RegistersLegal) (fun _ => registersLegal_keypadEpilogue) (fun r _ => registersLegal_emit r) h
      (fun _ _ _ e => e.registersLegal h) h h.fatalState hex

/-! ## Start-up -/

/-- Settles O21: start-up writes the reset values as literals. -/
theorem restartGivesResetValues : Obligations.RestartGivesResetValues := by
  intro s
  refine ⟨rfl, rfl, rfl, rfl, rfl, rfl, fun ch => ?_, fun src => ?_, rfl, rfl, rfl, rfl, rfl, rfl, rfl, rfl⟩
  · simp [State.restart, State.startUp, DmaChannel.cleared]
  · simp [State.restart, State.startUp]

theorem registersLegal_startUp (c : Platform) (m : Memory) (n : Nat) : RegistersLegal (State.startUp c m n) :=
  ⟨lines_pos c, BitVec.zero_and, fun _ _ => ⟨BitVec.getLsbD_zero, BitVec.getLsbD_zero⟩, fun _ _ => by simp [State.startUp]⟩

theorem snapshotDerived_zero : SnapshotDerived ⟨0, 0, 0, 0⟩ := by
  unfold SnapshotDerived; decide

theorem channelLegal_cleared : ChannelLegal .cleared := by
  unfold ChannelLegal; decide

theorem channelsLegal_startUp (c : Platform) (m : Memory) (n : Nat) : ChannelsLegal (State.startUp c m n) := by
  intro ch
  simpa [State.startUp] using channelLegal_cleared

/-- KEYCNT is 0 after start-up, so the line is low whatever the raw lines are. -/
theorem keypadSettled_startUp (c : Platform) (m : Memory) (n : Nat) : KeypadSettled (State.startUp c m n) := by
  simp [KeypadSettled, keypadLine, State.startUp]

/-- Settles O20: one fact per invariant. -/
theorem startUpMeetsInvariants : Obligations.StartUpMeetsInvariants := by
  refine ⟨fun c m n hm => ?_, rfl⟩
  have hsnap : SnapshotDerived (State.startUp c m n).keys := snapshotDerived_zero
  have hquiet : HaltedQuiet (State.startUp c m n) := fun hh => by cases hh
  exact ⟨hm, registersLegal_startUp c m n, channelsLegal_startUp c m n, hsnap, keypadSettled_startUp c m n, hquiet⟩

end Sys2Proof.Machine
end

section
/-! SUPPORT and PROOFS. The memory family: where an operation is refused, that mass storage is never written, what a fill
and a one-unit capture leave, the storage copies, and the routing of units to registers. -/

namespace Sys2Proof.Machine

/-! ## Where an operation is refused -/

/-- The channel check accepts exactly the indices of the four channels. -/
theorem channelOf_eq_some_iff {idx : BitVec 4} {ch : Channel} :
    channelOf idx = some ch ↔ idx = BitVec.ofNat 4 ch.val := by
  have hch : ch.val < 2 ^ 4 := by omega
  rw [← BitVec.toNat_inj, BitVec.toNat_ofNat, Nat.mod_eq_of_lt hch]
  unfold channelOf
  split
  · simp [Fin.ext_iff]
  · simp only [reduceCtorEq, false_iff]
    omega

theorem channelOf_ofNat (ch : Channel) : channelOf (BitVec.ofNat 4 ch.val) = some ch :=
  channelOf_eq_some_iff.2 rfl

/-- A field of a word has a value exactly when the masked word holds that value in place. -/
theorem extractLsb'_eq_iff_and {w n : Nat} (c : BitVec w) (k : Nat) (v : BitVec n) (h : k + n ≤ w) :
    c.extractLsb' k n = v ↔ c &&& (BitVec.allOnes n).setWidth w <<< k = v.setWidth w <<< k := by
  constructor
  · rintro rfl
    ext i hi
    by_cases hk : i < k
    · simp [hk]
    · by_cases hn : i - k < n
      · simp [hk, hn, hi, show k + (i - k) = i by omega]
      · simp [hk, hn]
  · intro he
    ext i hi
    have hb := congrArg (·.getLsbD (k + i)) he
    simpa [hi, show k + i < w by omega] using hb

/-- `reserved_cw` in terms of the masked word (42_dma.md R192). -/
theorem reservedCw_iff (cw : Half) : reservedCw cw = true ↔
    cw &&& 0x001F ≠ 0 ∨ cw &&& 0x0800 ≠ 0 ∨ cw &&& 0x0060 = 0x0020 ∨ cw &&& 0x0180 = 0x0080 ∨
      cw &&& 0x0180 = 0x0180 ∨ cw &&& 0x3000 = 0x3000 := by
  have hlow : ctrlLow cw = 0 ↔ cw &&& 0x001F = 0 := extractLsb'_eq_iff_and cw 0 (0 : BitVec 5) (by decide)
  have hdm : ctrlDm cw = 1 ↔ cw &&& 0x0060 = 0x0020 := extractLsb'_eq_iff_and cw 5 (1 : BitVec 2) (by decide)
  have hsm (v : BitVec 2) : ctrlSm cw = v ↔ cw &&& 0x0180 = v.setWidth 16 <<< 7 :=
    extractLsb'_eq_iff_and cw 7 v (by decide)
  have htm : ctrlTm cw = 3 ↔ cw &&& 0x3000 = 0x3000 := extractLsb'_eq_iff_and cw 12 (3 : BitVec 2) (by decide)
  have hres : ctrlRes11 cw = false ↔ cw &&& 0x0800 = 0 := by
    rw [show (0x0800 : Half) = BitVec.twoPow 16 11 from rfl, BitVec.and_twoPow, ctrlRes11]
    cases cw.getLsbD 11 <;> decide
  simp only [reservedCw, Bool.or_eq_true, bne_iff_ne, beq_iff_eq, or_assoc, ne_eq, hlow, hdm, hsm, htm,
    ← Bool.not_eq_false (ctrlRes11 cw), hres]
  rfl

theorem exec_dmaXfer_refused_iff {idx : BitVec 4} {cw : Half} {a b c : Word} {s : State} {r : Refusal} :
    exec (.dmaXfer idx cw a b c) s = .refused r ↔ r = .reservedControlWord ∧ ∃ ch, channelOf idx = some ch ∧
      capViolation s.conf ch a = false ∧ reservedCw cw = true := by
  constructor
  · intro h
    rw [exec, execDmaXfer, finish_refused_iff] at h
    split at h
    · cases h
    · next ch hch =>
      split at h
      · cases h
      · next hcap =>
        split at h
        · next hcw => cases h; exact ⟨rfl, ch, hch, Bool.eq_false_iff.2 hcap, hcw⟩
        · dsimp only at h
          split at h <;> cases h
  · rintro ⟨rfl, ch, hch, hcap, hcw⟩
    simp only [exec, execDmaXfer, hch, hcap, hcw, Bool.false_eq_true, if_false, if_true, finish]

/-- A copy is refused exactly when a byte of either side is on a register. -/
theorem copyBytes_eq_none_iff {n : Nat} {d p : Word} {t : State} : copyBytes n d p t = none ↔
    ∃ k, k < n ∧
      (onRegister t.conf (p + BitVec.ofNat 32 k) = true ∨ onRegister t.conf (d + BitVec.ofNat 32 k) = true) := by
  rw [← Option.isNone_iff_eq_none, ← Option.not_isSome, Bool.not_eq_true', ← Bool.not_eq_true,
    copyBytes_isSome_iff]
  simp only [not_forall, not_and_or, Bool.not_eq_false, exists_prop]

theorem storageBody_refuse_iff {g d p n : Word} {t : State} {r : Refusal} :
    storageBody g d p n t = .refuse r ↔ r = .registerByteAccess ∧ boundsCheck t.conf g n = none ∧
      ∃ k, k < n.toNat ∧
        (onRegister t.conf (p + BitVec.ofNat 32 k) = true ∨ onRegister t.conf (d + BitVec.ofNat 32 k) = true) := by
  rw [← copyBytes_eq_none_iff, storageBody]
  cases boundsCheck t.conf g n with
  | some code => simp
  | none => cases copyBytes n.toNat d p t <;> simp [eq_comm]

/-- Only DMA.XFER and the two storage operations are ever refused. -/
theorem refused_kind {i : Instr} {s : State} {r : Refusal} (h : exec i s = .refused r) :
    (∃ idx cw a b c, i = .dmaXfer idx cw a b c) ∨ (∃ a b c, i = .sramWr a b c) ∨ ∃ a b c, i = .sramRd a b c := by
  cases i
  case dmaXfer => exact .inl ⟨_, _, _, _, _, rfl⟩
  case sramWr => exact .inr (.inl ⟨_, _, _, rfl⟩)
  case sramRd => exact .inr (.inr ⟨_, _, _, rfl⟩)
  case irqSeth | irqEn | irqDis | dmaFill | dmaStop | regRd | evtDispatch =>
    replace h := finish_refused_iff.1 h
    split at h <;> cases h
  case dmaCopy | regWr | evtHdone =>
    replace h := finish_refused_iff.1 h
    split at h
    · cases h
    · split at h <;> cases h
  all_goals cases h

/-- Settles O10: an operation that is refused is DMA.XFER or a storage operation, and each of them says where. -/
theorem refusedExactlyWhereTheSpecRefuses : Obligations.RefusedExactlyWhereTheSpecRefuses := by
  intro i s
  refine ⟨fun f => ?_, fun r => ⟨fun h => ?_, ?_⟩⟩
  · obtain ⟨b, hb⟩ := exec_eq_finish i s
    rw [hb]
    exact finish_ne_fault s b f
  · rcases refused_kind h with ⟨idx, cw, a, b, c, rfl⟩ | ⟨a, b, c, rfl⟩ | ⟨a, b, c, rfl⟩
    · obtain ⟨hr, ch, hch, hcap, hcw⟩ := exec_dmaXfer_refused_iff.1 h
      exact .inl ⟨hr, ch, cw, a, b, c, by rw [channelOf_eq_some_iff.1 hch], hcap, (reservedCw_iff cw).1 hcw⟩
    · obtain ⟨hr, hb, hk⟩ := storageBody_refuse_iff.1 (finish_refused_iff.1 h)
      exact .inr ⟨hr, a, b, c, a, .inl ⟨rfl, rfl⟩, hb, hk⟩
    · obtain ⟨hr, hb, hk⟩ := storageBody_refuse_iff.1 (finish_refused_iff.1 h)
      exact .inr ⟨hr, a, b, c, b, .inr ⟨rfl, rfl⟩, hb, hk⟩
  · rintro (⟨hr, ch, cw, a, b, c, rfl, hcap, hcw⟩ | ⟨hr, a, b, c, g, ⟨rfl, rfl⟩ | ⟨rfl, rfl⟩, hb, hk⟩)
    · exact exec_dmaXfer_refused_iff.2 ⟨hr, ch, channelOf_ofNat ch, hcap, (reservedCw_iff cw).2 hcw⟩
    · exact finish_refused_iff.2 (storageBody_refuse_iff.2 ⟨hr, hb, hk⟩)
    · exact finish_refused_iff.2 (storageBody_refuse_iff.2 ⟨hr, hb, hk⟩)

/-! ## The storage copies -/

/-- In bounds on the storage side no code is answered (43_storage.md R220). -/
theorem boundsCheck_none {p : Platform} {g n : Word} (hsize : n.toNat ≤ p.sramSize) (hstart : p.sramBase ≤ g.toNat)
    (hend : g.toNat + n.toNat ≤ p.sramBase + p.sramSize) : boundsCheck p g n = none := by
  rw [boundsCheck, if_neg (by omega), if_neg (by omega), if_neg (by omega)]

/-- Settles O54: the copy completes, its laws give the bytes, and it changes `Mem` alone. -/
theorem storageCopiesBytes : Obligations.StorageCopiesBytes := by
  intro s a b c g i hs hw hi hsize hstart hend hreg hdis
  have hbounds := boundsCheck_none hsize hstart hend
  obtain ⟨u, hu⟩ := Option.isSome_iff_exists.1
    ((copyBytes_isSome_iff c.toNat a b s).2 fun k hk => ⟨(hreg k hk).2, (hreg k hk).1⟩)
  have hmem : u = s.setMem u.mem := copyBytes_eq _ hu
  have heff : Effect s i 0 u := by
    rcases hi with ⟨rfl, rfl⟩ | ⟨rfl, rfl⟩
    · exact .sramWr hbounds hu
    · exact .sramRd hbounds hu
  have hset : KeypadSettled u := by rw [hmem]; exact hs.of_eq rfl rfl rfl
  refine ⟨u.mem, ?_, copyBytes_read _ (by omega) hw hu hdis, fun x hx => copyBytes_read_ne _ hu hx⟩
  rw [heff.exec_eq, respond_settled hset]
  exact congrArg (fun x => Host.Outcome.next (emit (.resp .ok 0) x)) hmem

/-! ## Units on registers and on plain memory -/

theorem memRead16_register {t : State} {a : Word} {r : Reg} (h : regAt t.conf a = some r) :
    memRead16 a t = regRead r t := by
  rw [memRead16, h]

theorem memRead16_plain {t : State} {a : Word} (h : regAt t.conf a = none) :
    memRead16 a t = (readByte t (a + 1) ++ readByte t a, t) := by
  rw [memRead16, h]

theorem memWrite16_register {t : State} {a : Word} {r : Reg} (h : regAt t.conf a = some r) (v : Half) :
    memWrite16 a v t = regWrite r v t := by
  rw [memWrite16, h]

theorem memWrite16_plain {t : State} {a : Word} (h : regAt t.conf a = none) (hrom : inRom t.conf a = false) (v : Half) :
    memWrite16 a v t = pokeHalf a v t := by
  rw [memWrite16, h]
  simp only [hrom, Bool.false_eq_true, if_false]

/-- A word written where neither half is a register or in mass storage is its four bytes in `Mem`. -/
theorem memWrite32_plain {t : State} {a : Word} (h : regAt t.conf a = none) (hrom : inRom t.conf a = false)
    (h2 : regAt t.conf (a + 2) = none) (hrom2 : inRom t.conf (a + 2) = false) (v : Word) :
    memWrite32 a v t = pokeWord a v t := by
  rw [memWrite32, memWrite16_plain h hrom, memWrite16_plain (by rwa [pokeHalf_conf]) (by rwa [pokeHalf_conf]),
    pokeWord]

theorem memRead32_plain {t : State} {a : Word} (h : regAt t.conf a = none) (h2 : regAt t.conf (a + 2) = none) :
    memRead32 a t =
      ((readByte t (a + 2 + 1) ++ readByte t (a + 2)) ++ (readByte t (a + 1) ++ readByte t a), t) := by
  simp only [memRead32, memRead16_plain h, memRead16_plain h2]

/-- A 16-bit unit read at a register address is a register read, on every channel (42_dma.md R183). -/
theorem dmaRead_register {t : State} {a : Word} {r : Reg} (h : regAt t.conf a = some r) (ch : Channel) :
    dmaRead ch a false t = ((regRead r t).1.setWidth 32, (regRead r t).2) := by
  obtain ⟨-, hrom, hsram⟩ := regAt_place h
  simp only [dmaRead, capViolation, hrom, hsram, Bool.false_and, Bool.false_eq_true, if_false, memRead16_register h]

/-- A 16-bit unit written at a register address is a register write of the low half. -/
theorem dmaWrite_register {t : State} {a : Word} {r : Reg} (h : regAt t.conf a = some r) (v : Word) :
    dmaWrite a false v t = regWrite r (v.extractLsb' 0 16) t := by
  obtain ⟨-, -, hsram⟩ := regAt_place h
  simp only [dmaWrite, hsram, Bool.false_eq_true, if_false, memWrite16_register h]

/-- A 32-bit unit written outside the SRAM region is the memory write. -/
theorem dmaWrite_word {t : State} {a : Word} (h : inSram t.conf a = false) (v : Word) :
    dmaWrite a true v t = memWrite32 a v t := by
  simp only [dmaWrite, h, Bool.false_eq_true, if_false, if_true]

/-- A 32-bit unit read outside the SRAM region, past the capability check, is the memory read. -/
theorem dmaRead_word {t : State} {ch : Channel} {a : Word} (h : inSram t.conf a = false)
    (hc : capViolation t.conf ch a = false) : dmaRead ch a true t = memRead32 a t := by
  simp only [dmaRead, h, hc, Bool.false_eq_true, if_false, if_true]

/-- The four bytes of a word put in memory: the low half's below the high half's, which does not reach them. -/
theorem readByte_pokeWord {t : State} (hw : t.mem.wf = true) (a v : Word) {j : Nat} (hj : j < 4) :
    readByte (pokeWord a v t) (a + BitVec.ofNat 32 j) = v.extractLsb' (8 * j) 8 := by
  obtain ⟨hb0, hb1, hb2, hb3⟩ := halfBytes v
  obtain ⟨h0, h1⟩ := readByte_pokeHalf hw a (v.extractLsb' 0 16)
  obtain ⟨h2, h3⟩ := readByte_pokeHalf (pokeHalf_wf hw a (v.extractLsb' 0 16)) (a + 2) (v.extractLsb' 16 16)
  have ha3 : a + 2 + 1 = a + 3 := by rw [BitVec.add_assoc]; rfl
  have hlow (k : Nat) (hk : k < 2) : readByte (pokeWord a v t) (a + BitVec.ofNat 32 k) =
      readByte (pokeHalf a (v.extractLsb' 0 16) t) (a + BitVec.ofNat 32 k) := by
    refine readByte_pokeHalf_ne (fun he => ?_) (fun he => ?_) _ _
    · have := unit_places (k := 2) (by omega) (by decide) he
      omega
    · rw [ha3] at he
      have := unit_places (k := 3) (by omega) (by decide) he
      omega
  match j, hj with
  | 0, _ => rw [hlow 0 (by decide), BitVec.add_zero, h0, hb0]
  | 1, _ => exact (hlow 1 (by decide)).trans (h1.trans hb1)
  | 2, _ => exact h2.trans hb2
  | 3, _ => rw [ha3] at h3; exact h3.trans hb3

/-- A word's four bytes, joined again. -/
theorem join_wordBytes (v : Word) :
    (v.extractLsb' 24 8 ++ v.extractLsb' 16 8) ++ (v.extractLsb' 8 8 ++ v.extractLsb' 0 8) = v := by
  have hhi : v.extractLsb' 24 8 ++ v.extractLsb' 16 8 = v.extractLsb' 16 16 :=
    BitVec.extractLsb'_append_extractLsb'_eq_extractLsb' rfl
  have hlo : v.extractLsb' 8 8 ++ v.extractLsb' 0 8 = v.extractLsb' 0 16 :=
    BitVec.extractLsb'_append_extractLsb'_eq_extractLsb' rfl
  rw [hhi, hlo]
  exact (BitVec.extractLsb'_append_extractLsb'_eq_extractLsb' rfl).trans BitVec.extractLsb'_eq_self

/-- A half written to plain memory: its low byte at the address, its high byte after it, and it reads back. -/
theorem memWrite16_read_back {t : State} (hw : t.mem.wf = true) {a : Word} (h : regAt t.conf a = none)
    (hrom : inRom t.conf a = false) (v : Half) :
    readByte (memWrite16 a v t) a = v.extractLsb' 0 8 ∧ readByte (memWrite16 a v t) (a + 1) = v.extractLsb' 8 8 ∧
      (memRead16 a (memWrite16 a v t)).1 = v := by
  obtain ⟨h0, h1⟩ := readByte_pokeHalf hw a v
  rw [memWrite16_plain h hrom, memRead16_plain (by rwa [pokeHalf_conf]), h0, h1]
  exact ⟨rfl, rfl, (BitVec.extractLsb'_append_extractLsb'_eq_extractLsb' rfl).trans BitVec.extractLsb'_eq_self⟩

/-- A word put in memory off the registers reads back. -/
theorem memRead32_pokeWord {t : State} (hw : t.mem.wf = true) {a : Word} (h : regAt t.conf a = none)
    (h2 : regAt t.conf (a + 2) = none) (v : Word) : (memRead32 a (pokeWord a v t)).1 = v := by
  have hb (j : Nat) (hj : j < 4) := readByte_pokeWord hw a v hj
  have ha3 : a + 2 + 1 = a + 3 := by rw [BitVec.add_assoc]; rfl
  have hb0 : readByte (pokeWord a v t) a = v.extractLsb' 0 8 := by simpa using hb 0 (by decide)
  have hb1 : readByte (pokeWord a v t) (a + 1) = v.extractLsb' 8 8 := hb 1 (by decide)
  have hb2 : readByte (pokeWord a v t) (a + 2) = v.extractLsb' 16 8 := hb 2 (by decide)
  have hb3 : readByte (pokeWord a v t) (a + 2 + 1) = v.extractLsb' 24 8 := ha3 ▸ hb 3 (by decide)
  rw [memRead32_plain (by rwa [pokeWord_conf]) (by rwa [pokeWord_conf]), hb0, hb1, hb2, hb3]
  exact join_wordBytes v

/-- Settles O58: the routing of a unit is that of its halves, and the plain ones are read back byte by byte. -/
theorem unitsRouteToRegisters : Obligations.UnitsRouteToRegisters := by
  intro s ch a v
  refine ⟨fun r hr => ⟨memRead16_register hr, memWrite16_register hr _, dmaRead_register hr ch, dmaWrite_register hr v⟩,
    fun hsram => ⟨dmaWrite_word hsram v, fun hcap => ⟨_, _, _, _, rfl, rfl, dmaRead_word hsram hcap⟩⟩, rfl,
    fun hw hreg hrom => ?_⟩
  obtain ⟨h0, h1, hback⟩ := memWrite16_read_back hw hreg hrom (v.extractLsb' 0 16)
  obtain ⟨hv0, hv1, -, -⟩ := halfBytes v
  refine ⟨h0.trans hv0, h1.trans hv1, hback, fun hreg2 hrom2 => ?_⟩
  rw [memWrite32_plain hreg hrom hreg2 hrom2]
  exact ⟨fun j hj => readByte_pokeWord hw a v hj, memRead32_pokeWord hw hreg hreg2 v⟩

/-! ## Mass storage is never written (20_memory.md R71) -/

/-- A unit aligned to its size that has one byte in mass storage begins there: the range begins and ends at
multiples of 4. -/
theorem inRom_of_byte {c : Platform} {u32 : Bool} {a : Word} (ha : truncAddr u32 a = a) {j : Nat}
    (hj : j < (unitBytes u32).toNat) (h : inRom c (a + BitVec.ofNat 32 j) = true) : inRom c a = true := by
  rw [truncAddr_eq_self_iff] at ha
  rw [inRom_iff, BitVec.toNat_add, BitVec.toNat_ofNat] at h
  rw [inRom_iff]
  have := romBase_mod c
  have := romEnd_mod c
  have := a.isLt
  have hub : (unitBytes u32).toNat = 2 ∨ (unitBytes u32).toNat = 4 := by cases u32 <;> decide
  rcases hub with hub | hub
  · rw [hub] at ha hj
    omega
  · rw [hub] at ha hj
    omega

/-- So does its second half. -/
theorem inRom_high_half {c : Platform} {a : Word} (ha : truncAddr true a = a) (h : inRom c a = true) :
    inRom c (a + 2) = true := by
  have ha4 : a.toNat % 4 = 0 := (truncAddr_eq_self_iff true a).1 ha
  rw [inRom_iff] at h ⊢
  have := romBase_mod c
  have := romEnd_mod c
  have := romEnd_le c
  have h2 : (a + 2).toNat = a.toNat + 2 := by
    rw [BitVec.toNat_add, show (2 : Word).toNat = 2 from rfl]
    omega
  omega

theorem memWrite16_inRom {t : State} {a : Word} (h : inRom t.conf a = true) (v : Half) : memWrite16 a v t = t := by
  have hreg : regAt t.conf a = none := by
    cases hr : regAt t.conf a with
    | none => rfl
    | some r => simp [(regAt_place hr).2.1] at h
  rw [memWrite16, hreg]
  exact if_pos h

theorem inSram_of_inRom {c : Platform} {a : Word} (h : inRom c a = true) : inSram c a = false := by
  rw [Bool.eq_false_iff, Ne, inSram_iff]
  rw [inRom_iff] at h
  have := rom_sram_disjoint c
  omega

/-- An aligned unit written into mass storage writes nothing. -/
theorem dmaWrite_inRom {t : State} {u32 : Bool} {a : Word} (ha : truncAddr u32 a = a) (h : inRom t.conf a = true)
    (v : Word) : dmaWrite a u32 v t = t := by
  simp only [dmaWrite, inSram_of_inRom h, Bool.false_eq_true, if_false]
  cases u32 with
  | false => exact memWrite16_inRom h _
  | true =>
    rw [if_pos rfl, memWrite32, memWrite16_inRom h, memWrite16_inRom (inRom_high_half ha h)]

/-- `u` has the configuration of `t`, and every byte of mass storage reads in it as in `t`. -/
structure SameRom (t u : State) : Prop where
  conf : u.conf = t.conf
  read : ∀ x, inRom t.conf x = true → readByte u x = readByte t x

theorem SameRom.refl (t : State) : SameRom t t := ⟨rfl, fun _ _ => rfl⟩

theorem SameRom.trans {a b c : State} (h : SameRom a b) (g : SameRom b c) : SameRom a c :=
  ⟨g.conf.trans h.conf, fun x hx => (g.read x (h.conf ▸ hx)).trans (h.read x hx)⟩

theorem SameRom.of_mem {t u : State} (hc : u.conf = t.conf) (hm : u.mem = t.mem) : SameRom t u :=
  ⟨hc, fun x _ => readByte_congr hm x⟩

theorem sameRom_dmaWrite {u32 : Bool} {a : Word} (ha : truncAddr u32 a = a) (v : Word) (t : State) :
    SameRom t (dmaWrite a u32 v t) := by
  cases hrom : inRom t.conf a with
  | true => rw [dmaWrite_inRom ha hrom]; exact .refl t
  | false =>
    refine ⟨dmaWrite_conf a u32 v t, fun x hx => readByte_dmaWrite_ne (fun j hj he => ?_) v t⟩
    rw [inRom_of_byte ha hj (he ▸ hx)] at hrom
    cases hrom

/-- The control word's unit divides the working destination. -/
def DmaChannel.dstAligned (c : Half) (d : DmaChannel) : Prop := truncAddr (ctrlU32 c) d.wdst = d.wdst

theorem DmaChannel.dstAligned_advance {c : Half} {d : DmaChannel} (h : d.dstAligned c) :
    (d.advance c).dstAligned c := by
  have hnext := truncAddr_add_mul h 1 (dstStep_cases c)
  rwa [one_mul] at hnext

theorem sameRom_burstUnit {ch : Channel} {c : Half} {t : State} (h : t.dma[ch].dstAligned c) (fill : Option Word) :
    SameRom t (burstUnit ch fill c t) := by
  have hv : SameRom t (unitValue ch fill c t).2 := by
    cases fill with
    | none => exact .of_mem (by simp [unitValue]) (by simp [unitValue])
    | some v => exact .refl t
  rw [burstUnit_eq]
  exact (hv.trans (sameRom_dmaWrite h _ _)).trans (.of_mem rfl rfl)

theorem sameRom_burstUnits {ch : Channel} {c : Half} (n : Nat) {t : State} (h : t.dma[ch].dstAligned c)
    (fill : Option Word) : SameRom t (burstUnits ch fill c n t) := by
  induction n generalizing t with
  | zero => exact .refl t
  | succ n ih =>
    refine (sameRom_burstUnit h fill).trans (ih ?_)
    rw [burstUnit_dma, dma_set_same]
    exact DmaChannel.dstAligned_advance h

theorem sameRom_burst {ch : Channel} {t : State} (h : t.dma[ch].dstAligned t.dma[ch].ctrl) (fill : Option Word) :
    SameRom t (burst ch fill t).1 :=
  (sameRom_burstUnits _ h fill).trans (.of_mem rfl rfl)

/-- The burst of a record with an aligned destination, programmed just before. -/
theorem sameRom_burst_setChannel {d : DmaChannel} (h : d.dstAligned d.ctrl) (ch : Channel) (fill : Option Word)
    (s : State) :
    SameRom s (burst ch fill (s.setChannel ch d)).1 := by
  have hs : SameRom s (s.setChannel ch d) := .of_mem rfl rfl
  exact hs.trans (sameRom_burst (by rw [setChannel_same]; exact h) fill)

theorem dstAligned_copyRecord (f : Bool) (a b c : Word) :
    (copyRecord f a b c).dstAligned (copyRecord f a b c).ctrl := by
  have hf : ctrlU32 (copyWord f) = f := by cases f <;> decide
  rw [DmaChannel.dstAligned, copyRecord, hf]
  exact truncAddr_truncAddr f b

theorem dstAligned_fillRecord (f : Bool) (b c : Word) (old : DmaChannel) :
    (fillRecord f b c old).dstAligned (fillRecord f b c old).ctrl := by
  have hf : ctrlU32 (fillWord f) = f := by cases f <;> decide
  rw [DmaChannel.dstAligned, fillRecord, hf]
  exact truncAddr_truncAddr f b

theorem dstAligned_xferRecord (cw : Half) (a b c : Word) :
    (xferRecord cw a b c).dstAligned (xferRecord cw a b c).ctrl := by
  rw [DmaChannel.dstAligned, xferRecord, ctrlU32_xferWord]
  exact truncAddr_truncAddr _ b

theorem ChannelLegal.dstAligned {d : DmaChannel} (h : ChannelLegal d) (he : ctrlEn d.ctrl = true) :
    d.dstAligned d.ctrl := by
  obtain ⟨-, -, harmed⟩ := h
  obtain ⟨-, -, -, hdst, -⟩ := harmed he
  exact hdst

theorem ChannelsLegal.burst {t : State} (h : ChannelsLegal t) (ch : Channel) (fill : Option Word) :
    ChannelsLegal (burst ch fill t).1 := by
  intro o
  by_cases ho : o = ch
  · subst ho
    rw [burst_channel]
    exact ((h o).moved t.dma[o].cnt).endBurst _
  · rw [burst_other ho]
    exact h o

theorem sameRom_triggerChannels (tm : BitVec 2) (l : List Channel) {t : State} (h : ChannelsLegal t) :
    SameRom t (triggerChannels tm l t).1 := by
  induction l generalizing t with
  | nil => exact .refl t
  | cons ch rest ih =>
    by_cases ha : t.dma[ch].armedFor tm
    · rw [triggerChannels_cons_armed ha]
      exact (sameRom_burst ((h ch).dstAligned ha.1) none).trans (ih (h.burst ch none))
    · rw [triggerChannels_cons_idle ha]
      exact ih h

theorem sameRom_dispatch (src : Source) (t : State) : SameRom t (dispatch src t).1 :=
  .of_mem (dispatch_conf _ _) (dispatch_mem _ _)

theorem sameRom_startLine {t : State} (h : ChannelsLegal t) : SameRom t (startLine t) := by
  have hs : ChannelsLegal (t.setVcount (nextLine t.conf t.vcount)) := h.of_dma_eq rfl
  have hline : SameRom t (t.setVcount (nextLine t.conf t.vcount)) := .of_mem rfl rfl
  have hv : SameRom t (vblankStart (t.setVcount (nextLine t.conf t.vcount))).1 := by
    unfold vblankStart
    split
    · exact hline.trans ((sameRom_triggerChannels 1 channels hs).trans (sameRom_dispatch _ _))
    · exact hline
  exact hv.trans (.of_mem (by simp) (sameStored_startLine t).mem)

theorem sameRom_startHblank {t : State} (h : ChannelsLegal t) : SameRom t (startHblank t) := by
  have hb : SameRom t (hblankBursts t).1 := by
    unfold hblankBursts
    split
    · exact .refl t
    · exact sameRom_triggerChannels 2 channels h
  exact hb.trans (.of_mem (by simp [startHblank]) (by simp [startHblank]))

theorem sameRom_pokeByte {t : State} {a : Word} (h : inRom t.conf a = false) (v : Byte) :
    SameRom t (pokeByte a v t) := by
  refine ⟨rfl, fun x hx => readByte_pokeByte_ne ?_ v t⟩
  rintro rfl
  rw [h] at hx
  cases hx

theorem sameRom_memWrite8 {t u : State} {a : Word} {v : Byte} (h : memWrite8 a v t = some u) : SameRom t u := by
  unfold memWrite8 at h
  split at h
  · cases h
  · split at h
    · cases h; exact .refl t
    · next hrom =>
      cases h
      exact sameRom_pokeByte (Bool.eq_false_iff.2 hrom) v

theorem sameRom_copyBytes (n : Nat) {t u : State} {d p : Word} (h : copyBytes n d p t = some u) : SameRom t u := by
  induction n generalizing t d p with
  | zero => cases h; exact .refl _
  | succ n ih =>
    unfold copyBytes at h
    split at h
    · cases h
    · split at h
      · cases h
      · next ht' => exact (sameRom_memWrite8 ht').trans (ih h)

theorem sameRom_xferEnd (p : Platform) (ch : Channel) (r : State × Bool) : SameRom r.1 (xferEnd p ch r) := by
  unfold xferEnd
  split
  · exact sameRom_dispatch _ _
  · exact .refl _

theorem Effect.sameRom {i : Instr} {s u : State} {d : Half} (e : Effect s i d u) (h : ChannelsLegal s) :
    SameRom s u := by
  cases e
  case dmaCopy => exact sameRom_burst_setChannel (dstAligned_copyRecord _ _ _ _) _ _ s
  case dmaFill => exact sameRom_burst_setChannel (dstAligned_fillRecord _ _ _ _) _ _ s
  case dmaXferNow =>
    exact (sameRom_burst_setChannel (dstAligned_xferRecord _ _ _ _) _ _ s).trans (sameRom_xferEnd _ _ _)
  case sramWr hu => exact sameRom_copyBytes _ hu
  case sramRd hu => exact sameRom_copyBytes _ hu
  case regRd => exact .of_mem (regRead_conf _ _) (regRead_mem _ _)
  case regWr => exact .of_mem (regWrite_conf _ _ _) (regWrite_mem _ _ _)
  case evtDispatch => exact sameRom_dispatch _ _
  case evtHdone => exact .of_mem (leaveHandler_conf _ _) (leaveHandler_mem _ _)
  case evtLine => exact sameRom_startLine h
  case evtHbl => exact sameRom_startHblank h
  all_goals exact .of_mem rfl rfl

/-- Settles O23: a unit aligned to its size lies in mass storage as a whole or not at all, and legal channels have
aligned destinations. -/
theorem massStorageNeverWritten : Obligations.MassStorageNeverWritten := by
  intro i s t x h hex hx
  have hkept : SameRom s t := exec_keeps (P := SameRom s)
    (fun y hy => hy.trans (.of_mem (keypadEpilogue_conf y) (keypadEpilogue_mem y)))
    (fun r y hy => hy.trans (.of_mem rfl rfl)) (.refl s) (fun _ _ _ e => e.sameRom h) (.of_mem rfl rfl)
    (.of_mem rfl rfl) hex
  exact hkept.read x hx

/-! ## A burst of one value into plain memory -/

/-- Byte `j` of the `k`-th of the units that lie one after another from `a` on. -/
theorem unitAt_byte (a : Word) (u32 : Bool) (k j : Nat) :
    unitAt a (unitBytes u32) k + BitVec.ofNat 32 j = a + BitVec.ofNat 32 ((unitBytes u32).toNat * k + j) := by
  rw [unitAt, BitVec.add_assoc]
  congr 1
  apply BitVec.eq_of_toNat_eq
  simp [Nat.mul_comm]

/-- Offsets below 2^32 name different addresses. -/
theorem offset_inj {a : Word} {j k : Nat} (hj : j < 2 ^ 32) (hk : k < 2 ^ 32)
    (h : a + BitVec.ofNat 32 j = a + BitVec.ofNat 32 k) : j = k := by
  have hjk := congrArg BitVec.toNat ((BitVec.add_right_inj a).1 h)
  rwa [BitVec.toNat_ofNat, BitVec.toNat_ofNat, Nat.mod_eq_of_lt hj, Nat.mod_eq_of_lt hk] at hjk

theorem unitBytes_pos (u32 : Bool) : 0 < (unitBytes u32).toNat := by cases u32 <;> decide

/-- A place in a unit and the unit's number, as one offset below the length of `n` units. -/
theorem unit_offset_lt {w n i j : Nat} (hi : i < n) (hj : j < w) : w * i + j < w * n :=
  calc w * i + j < w * i + w := Nat.add_lt_add_left hj _
    _ = w * (i + 1) := (Nat.mul_succ w i).symm
    _ ≤ w * n := Nat.mul_le_mul_left w hi

/-- A burst replaces the record of its own channel only. -/
theorem burst_dma (ch : Channel) (fill : Option Word) (t : State) :
    (burst ch fill t).1.dma = t.dma.set ch (burst ch fill t).1.dma[ch] := by
  apply Vector.ext
  intro i hi
  by_cases hc : (⟨i, hi⟩ : Channel) = ch
  · subst hc; simp
  · have ho := burst_other hc fill t
    rw [← dma_set_other t.dma (burst ch fill t).1.dma[ch] hc] at ho
    exact ho

/-- The later of two records of one channel stays, whatever memory was set in between. -/
theorem setChannel_setMem_setChannel (t : State) (ch : Channel) (d e : DmaChannel) (m : Memory) :
    ((t.setChannel ch d).setMem m).setChannel ch e = (t.setMem m).setChannel ch e := by
  have hset : (t.dma.set ch d).set ch e = t.dma.set ch e := Vector.set_set ..
  exact congrArg (t.setMem m).setDma hset

/-- A burst that fills plain memory with a value: `Mem` and the channel's record change; the bytes from the working
destination on are the value's, unit after unit, little-endian; every other byte stays (42_dma.md R183). -/
theorem burst_fill_plain {ch : Channel} {t : State} (v : Word) (hw : t.mem.wf = true) {ub n : Nat} {dst : Word}
    (hub : (unitBytes (ctrlU32 t.dma[ch].ctrl)).toNat = ub) (hn : t.dma[ch].cnt.toNat = n) (hdst : t.dma[ch].wdst = dst)
    (hdm : ctrlDm t.dma[ch].ctrl ≠ 2) (hlen : ub * n ≤ 2 ^ 32)
    (hplain : ∀ j, j < ub * n → onRegister t.conf (dst + BitVec.ofNat 32 j) = false ∧
      inSram t.conf (dst + BitVec.ofNat 32 j) = false ∧ inRom t.conf (dst + BitVec.ofNat 32 j) = false) :
    ∃ m : Memory, (burst ch (some v) t).1 = (t.setMem m).setChannel ch (burst ch (some v) t).1.dma[ch] ∧
      (∀ k, k < ub * n → Memory.read m (dst + BitVec.ofNat 32 k).toNat = v.extractLsb' (8 * (k % ub)) 8) ∧
      (∀ x, (∀ k, k < ub * n → x ≠ dst + BitVec.ofNat 32 k) → Memory.read m x.toNat = readByte t x) := by
  have hpos : 0 < ub := hub ▸ unitBytes_pos _
  have hstep : dstStep t.dma[ch].ctrl = unitBytes (ctrlU32 t.dma[ch].ctrl) := if_neg hdm
  have hbyte (i j : Nat) : unitAt t.dma[ch].wdst (dstStep t.dma[ch].ctrl) i + BitVec.ofNat 32 j =
      dst + BitVec.ofNat 32 (ub * i + j) := by
    rw [hstep, unitAt_byte, hub, hdst]
  have hunit : ∀ i, i < n →
      PlainUnit t.conf (ctrlU32 t.dma[ch].ctrl) (unitAt t.dma[ch].wdst (dstStep t.dma[ch].ctrl) i) ∧
      NoRomUnit t.conf (ctrlU32 t.dma[ch].ctrl) (unitAt t.dma[ch].wdst (dstStep t.dma[ch].ctrl) i) := by
    intro i hi
    have hp (j : Nat) (hj : j < ub) := hplain (ub * i + j) (unit_offset_lt hi hj)
    refine ⟨fun j hj => ?_, fun j hj => ?_⟩ <;> rw [hub] at hj <;> rw [hbyte]
    · exact ⟨(hp j hj).1, (hp j hj).2.1⟩
    · exact (hp j hj).2.2
  have hapart : ∀ i k, i < k → k < n → ∀ j, j < (unitBytes (ctrlU32 t.dma[ch].ctrl)).toNat →
      OffUnit (ctrlU32 t.dma[ch].ctrl) (unitAt t.dma[ch].wdst (dstStep t.dma[ch].ctrl) k)
        (unitAt t.dma[ch].wdst (dstStep t.dma[ch].ctrl) i + BitVec.ofNat 32 j) := by
    intro i k hik hk j hj l hl he
    rw [hub] at hj hl
    rw [hbyte, hbyte] at he
    have hbefore : ub * i + j < ub * k := unit_offset_lt hik hj
    have hinside : ub * k + l < ub * n := unit_offset_lt hk hl
    have heq := offset_inj (by omega) (by omega) he
    omega
  obtain ⟨m, -, hm, hbytes, hother⟩ := burstUnits_plain ch (some v) t.dma[ch].ctrl n hw (fun h => by cases h) hunit
    (fun h => by cases h) (fun _ => hapart)
  have hstate : (burst ch (some v) t).1 = (t.setMem m).setDma (burst ch (some v) t).1.dma := by
    unfold burst
    dsimp only
    rw [hn, hm]
    rfl
  refine ⟨m, hstate.trans (congrArg _ (burst_dma ch (some v) t)), fun k hk => ?_,
    fun x hx => hother x fun i hi j hj => ?_⟩
  · have hb := hbytes (k / ub) (k % ub) (Nat.div_lt_of_lt_mul hk) (by rw [hub]; exact Nat.mod_lt k hpos)
      (fun h => absurd h hdm)
    rw [hbyte, Nat.div_add_mod] at hb
    exact hb
  · rw [hbyte]
    exact hx _ (unit_offset_lt hi (hub ▸ hj))

/-! ## DMA.FILL -/

theorem unitBytes_toNat (f : Bool) : (unitBytes f).toNat = if f then 4 else 2 := by cases f <;> rfl

theorem truncAddr_eq_and (f : Bool) (a : Word) :
    truncAddr f a = a &&& (if f then 0xFFFFFFFC#32 else 0xFFFFFFFE#32) := by
  cases f <;> rfl

theorem unitCount_toNat (f : Bool) (c : Word) : (unitCount f c).toNat = c.toNat / (unitBytes f).toNat := by
  cases f <;> simp [unitCount, unitBytes, Nat.shiftRight_eq_div_pow]

/-- A length rounded down to whole units is no longer than it was. -/
theorem unitBytes_mul_unitCount_le (f : Bool) (c : Word) : (unitBytes f).toNat * (unitCount f c).toNat ≤ c.toNat := by
  rw [unitCount_toNat]
  exact Nat.mul_div_le _ _

/-- The fields of the word DMA.FILL programs that a burst reads (42_dma.md R185). -/
theorem fillWord_fields (f : Bool) : ctrlU32 (fillWord f) = f ∧ ctrlDm (fillWord f) ≠ 2 ∧ srcStep (fillWord f) = 0 ∧
    dstStep (fillWord f) = unitBytes f ∧ ctrlRpt (fillWord f) = false := by
  cases f <;> decide

/-- The record a fill's burst leaves: disarmed, the source where it was, the destination past the last unit. -/
theorem burst_fillRecord (s : State) (ch : Channel) (f : Bool) (v b c : Word) :
    (burst ch (some v) (s.setChannel ch (fillRecord f b c s.dma[ch]))).1.dma[ch] =
      ⟨disarmWord (fillWord f), unitCount f c, truncAddr f b, s.dma[ch].wsrc,
        truncAddr f b + unitCount f c * unitBytes f⟩ := by
  obtain ⟨-, -, hsrc, hdst, hrpt⟩ := fillWord_fields f
  rw [burst_channel, setChannel_same, DmaChannel.endBurst, fillRecord]
  simp only [hsrc, hdst, hrpt, Bool.false_eq_true, false_and, if_false, mul_zero, add_zero]

/-- DMA.FILL into plain memory, in the model's terms: a fill of the truncated destination. -/
theorem exec_dmaFill_plain {s : State} {ch : Channel} {f : Bool} {a b c : Word} (hs : KeypadSettled s)
    (hw : s.mem.wf = true)
    (hplain : ∀ j, j < (unitBytes f).toNat * (unitCount f c).toNat →
      onRegister s.conf (truncAddr f b + BitVec.ofNat 32 j) = false ∧
      inSram s.conf (truncAddr f b + BitVec.ofNat 32 j) = false ∧
      inRom s.conf (truncAddr f b + BitVec.ofNat 32 j) = false) :
    ∃ m : Memory, exec (.dmaFill (BitVec.ofNat 4 ch.val) f a b c) s = .next (emit (.resp .ok 0)
        ((s.setMem m).setChannel ch ⟨disarmWord (fillWord f), unitCount f c, truncAddr f b, s.dma[ch].wsrc,
          truncAddr f b + unitCount f c * unitBytes f⟩)) ∧
      (∀ k, k < (unitBytes f).toNat * (unitCount f c).toNat →
        Memory.read m (truncAddr f b + BitVec.ofNat 32 k).toNat = a.extractLsb' (8 * (k % (unitBytes f).toNat)) 8) ∧
      (∀ x, (∀ k, k < (unitBytes f).toNat * (unitCount f c).toNat → x ≠ truncAddr f b + BitVec.ofNat 32 k) →
        Memory.read m x.toNat = readByte s x) := by
  have hrec := setChannel_same s ch (fillRecord f b c s.dma[ch])
  obtain ⟨hu32, hdm, -⟩ := fillWord_fields f
  obtain ⟨m, hm, hbytes, hother⟩ := burst_fill_plain (ch := ch)
    (t := s.setChannel ch (fillRecord f b c s.dma[ch])) a hw
    (by rw [hrec]; exact congrArg (fun u => (unitBytes u).toNat) hu32) (by rw [hrec]; rfl) (by rw [hrec]; rfl)
    (by rw [hrec]; exact hdm) ((unitBytes_mul_unitCount_le f c).trans c.isLt.le) hplain
  refine ⟨m, ?_, hbytes, hother⟩
  rw [(Effect.dmaFill (channelOf_ofNat ch)).exec_eq, hm, burst_fillRecord, setChannel_setMem_setChannel,
    respond_settled (t := (s.setMem m).setChannel ch _) (hs.of_eq rfl rfl rfl)]

/-- Settles O42: the operation in the model's terms, whose unit size, truncation and count are the statement's. -/
theorem dmaFillFillsBytes : Obligations.DmaFillFillsBytes := by
  intro s ch f a b c hs hw ub len b' hplain
  have hcount : unitCount f c = BitVec.ofNat 32 (c.toNat / ub) := by
    rw [← (unitCount f c).setWidth_eq, ← BitVec.ofNat_toNat, unitCount_toNat, unitBytes_toNat]
  have hlen : (unitBytes f).toNat * (unitCount f c).toNat = len := by
    rw [unitCount_toNat, unitBytes_toNat]
  have hend : unitCount f c * unitBytes f = BitVec.ofNat 32 len := by
    rw [← hlen, BitVec.ofNat_mul, mul_comm]
    simp
  have hctrl : disarmWord (fillWord f) = if f then 0x0500 else 0x0100 := by cases f <;> rfl
  have hb' : truncAddr f b = b' := truncAddr_eq_and f b
  obtain ⟨m, hm, hbytes, hother⟩ := exec_dmaFill_plain (ch := ch) (a := a) hs hw (by rw [hlen, hb']; exact hplain)
  rw [hend, hcount, hctrl, hb'] at hm
  rw [hlen, hb'] at hbytes hother
  rw [unitBytes_toNat] at hbytes
  exact ⟨m, hm, hbytes, hother⟩

/-! ## The per-scanline capture -/

/-- One channel armed for the edge: its burst alone runs, and its end event alone may be due. -/
theorem triggerChannels_single {tm : BitVec 2} {l : List Channel} (hl : l.Nodup) {ch : Channel} (hch : ch ∈ l)
    {t : State} (ha : t.dma[ch].armedFor tm) (ho : ∀ other : Channel, other ≠ ch → ¬ t.dma[other].armedFor tm) :
    triggerChannels tm l t =
      ((burst ch none t).1, if ctrlIrq t.dma[ch].ctrl then [srcDmaEnd t.conf ch] else []) := by
  induction l with
  | nil => cases hch
  | cons first rest ih =>
    rw [List.nodup_cons] at hl
    obtain ⟨hfirst, hrest⟩ := hl
    by_cases hc : first = ch
    · subst hc
      have hidle : triggerChannels tm rest (burst first none t).1 = ((burst first none t).1, []) := by
        refine triggerChannels_none tm rest _ fun o hmem => ?_
        have hne : o ≠ first := by rintro rfl; exact hfirst hmem
        rw [burst_other hne]
        exact ho o hne
      rw [triggerChannels_cons_armed ha, hidle]
    · rw [triggerChannels_cons_idle (ho first hc)]
      exact ih hrest (by simpa [Ne.symm hc] using hch)

/-- A burst of one unit whose read gives `v` and leaves the state is a fill with `v`. -/
theorem burst_one_unit {ch : Channel} {t : State} {v : Word} (hcnt : t.dma[ch].cnt = 1)
    (hv : dmaRead ch t.dma[ch].wsrc (ctrlU32 t.dma[ch].ctrl) t = (v, t)) : burst ch none t = burst ch (some v) t := by
  have hunit : burstUnit ch none t.dma[ch].ctrl t = burstUnit ch (some v) t.dma[ch].ctrl t := by
    rw [burstUnit_eq, burstUnit_eq, unitValue, unitValue, hv]
  unfold burst
  rw [hcnt]
  simp only [show (1 : Word).toNat = 1 from rfl, burstUnits, hunit]

theorem regAt_vcount {c : Platform} {a : Word} (h : a.toNat = c.addrVcount) : regAt c a = some .vcount :=
  regAt_of_mem (by simp [registerMap, h])

/-- The bytes of the scanline number as a unit holds it. -/
theorem scanline_bytes (v : Byte) : ((v.setWidth 16).setWidth 32).extractLsb' 0 8 = v ∧
    ((v.setWidth 16).setWidth 32).extractLsb' 8 8 = 0 := by
  constructor
  · ext i hi
    simp [BitVec.getLsbD_eq_getElem, hi, show i < 32 by omega]
  · ext i hi
    simp

/-- The control word of the capture (the example of 42_dma.md R186): armed for HBlank, repeating, 16-bit units, source
fixed, destination incrementing, no end event. -/
def captureWord : Half := 0xA300

theorem captureWord_fields : ctrlEn captureWord = true ∧ ctrlTm captureWord = 2 ∧ ctrlRpt captureWord = true ∧
    ctrlU32 captureWord = false ∧ ctrlDm captureWord = 0 ∧ srcStep captureWord = 0 ∧ dstStep captureWord = 2 ∧
    ctrlIrq captureWord = false := by
  decide

/-- A capturing channel stays armed over its burst: only its destination moves, by the one unit. -/
theorem endBurst_capture (dad src dst : Word) :
    DmaChannel.endBurst captureWord
        ⟨captureWord, 1, dad, src + 1 * srcStep captureWord, dst + 1 * dstStep captureWord⟩ =
      ⟨captureWord, 1, dad, src, dst + 2⟩ := by
  obtain ⟨-, htm, hrpt, -, hdm, hsrc, hdst, -⟩ := captureWord_fields
  rw [DmaChannel.endBurst, if_pos ⟨hrpt, by rw [htm]; decide⟩, if_neg (by rw [hdm]; decide), hsrc, hdst, mul_zero,
    add_zero, one_mul]

/-- A burst of the capture: the scanline number is stored, and the destination steps by 2. -/
theorem burst_capture {s : State} {ch : Channel} {src dst dad : Word} (hw : s.mem.wf = true)
    (hd : s.dma[ch] = ⟨captureWord, 1, dad, src, dst⟩) (hsrc : src.toNat = s.conf.addrVcount)
    (hplain : ∀ j, j < 2 → onRegister s.conf (dst + BitVec.ofNat 32 j) = false ∧
      inSram s.conf (dst + BitVec.ofNat 32 j) = false ∧ inRom s.conf (dst + BitVec.ofNat 32 j) = false) :
    ∃ m : Memory, (burst ch none s).1 = (s.setMem m).setChannel ch ⟨captureWord, 1, dad, src, dst + 2⟩ ∧
      Memory.read m dst.toNat = s.vcount ∧ Memory.read m (dst + 1).toNat = 0 ∧
      (∀ x, x ≠ dst → x ≠ dst + 1 → Memory.read m x.toNat = readByte s x) := by
  obtain ⟨-, -, -, hu32, hdm, -, -, -⟩ := captureWord_fields
  have hread : dmaRead ch s.dma[ch].wsrc (ctrlU32 s.dma[ch].ctrl) s = ((s.vcount.setWidth 16).setWidth 32, s) := by
    rw [hd, hu32]
    exact dmaRead_register (regAt_vcount hsrc) ch
  have hrec : (burst ch (some ((s.vcount.setWidth 16).setWidth 32)) s).1.dma[ch] =
      ⟨captureWord, 1, dad, src, dst + 2⟩ := by
    rw [burst_channel, hd]
    exact endBurst_capture dad src dst
  obtain ⟨m, hm, hbytes, hother⟩ := burst_fill_plain (ch := ch) ((s.vcount.setWidth 16).setWidth 32)
    hw (ub := 2) (n := 1) (dst := dst) (by rw [hd, hu32]; rfl) (by rw [hd]; rfl) (by rw [hd])
    (by rw [hd, hdm]; decide) (by decide) hplain
  obtain ⟨hlow, hhigh⟩ := scanline_bytes s.vcount
  rw [burst_one_unit (by rw [hd]) hread]
  refine ⟨m, hrec ▸ hm, ?_, ?_, fun x h0 h1 => hother x fun k hk => ?_⟩
  · simpa using (hbytes 0 (by decide)).trans hlow
  · exact (hbytes 1 (by decide)).trans hhigh
  · match k, hk with
    | 0, _ => simpa using h0
    | 1, _ => exact h1

/-- The bursts of a visible line's HBlank where one channel alone is armed for it, with no end event asked for. -/
theorem hblankBursts_single {s : State} {ch : Channel} (hline : s.vcount.toNat < s.conf.linesVisible)
    (ha : s.dma[ch].armedFor 2) (hirq : ctrlIrq s.dma[ch].ctrl = false)
    (ho : ∀ other : Channel, other ≠ ch → ¬ s.dma[other].armedFor 2) : hblankBursts s = ((burst ch none s).1, []) := by
  have hvis : inVblank s = false := by simpa [inVblank] using hline
  rw [hblankBursts, hvis, triggerDma, triggerChannels_single channels_nodup (mem_channels ch) ha ho, hirq]
  rfl

/-- Settles O52: the capturing channel's burst alone runs before HBlank is dispatched, and a register read is its unit. -/
theorem hblankCaptureStoresScanline : Obligations.HblankCaptureStoresScanline := by
  intro s ch src dst hs hw hline hd hsrc hothers hplain
  obtain ⟨hen, htm, -, -, -, -, -, hirq⟩ := captureWord_fields
  have hctrl : s.dma[ch].ctrl = captureWord := by rw [hd]; rfl
  obtain ⟨m, hm, hlow, hhigh, hframe⟩ := burst_capture hw hd hsrc hplain
  have harmed : s.dma[ch].armedFor 2 := by rw [DmaChannel.armedFor, hctrl]; exact ⟨hen, htm⟩
  have hrec : (⟨captureWord, 1, s.dma[ch].dad, src, dst + 2⟩ : DmaChannel) = { s.dma[ch] with wdst := dst + 2 } := by
    rw [hd]; rfl
  have hbody : startHblank s =
      (dispatch (srcHblank s.conf) ((s.setMem m).setChannel ch { s.dma[ch] with wdst := dst + 2 })).1 := by
    rw [startHblank, hblankBursts_single hline harmed (by rw [hctrl]; exact hirq) hothers, hm, hrec]
    rfl
  refine ⟨m, hlow, hhigh, hframe, ?_⟩
  rw [Effect.evtHbl.exec_eq, hbody, respond_settled (hs.of_eq (by simp) (by simp) (by simp))]
  rfl

end Sys2Proof.Machine
end

section
/-! SUPPORT and PROOFS. The encoding family: the decoder and the encoder are each other's inverse, the decoder is the match
and mask columns of the operation map, and what a step does with the frame it accepts (30_encoding.md R101 to R110). -/

namespace Sys2Proof

/-! ## The rows of the decoder: what each accepts, as the shape of the header -/

theorem ite_ok_iff {P : Prop} [Decidable P] {i j : Instr} {e : IllegalFrame} :
    (if P then .ok i else .error e : Except IllegalFrame Instr) = .ok j ↔ P ∧ i = j := by
  split <;> simp [*]

theorem rowPlain_ok_iff {h : Header} {i j : Instr} : rowPlain h i = .ok j ↔ h = ⟨h.op, 0, false, 0, 0⟩ ∧ i = j := by
  cases h
  simp [rowPlain, ite_ok_iff]

theorem rowIdx_ok_iff {h : Header} {i j : Instr} : rowIdx h i = .ok j ↔ h = ⟨h.op, h.idx, false, 0, 0⟩ ∧ i = j := by
  cases h
  simp [rowIdx, ite_ok_iff]

theorem rowIdxF_ok_iff {h : Header} {i j : Instr} : rowIdxF h i = .ok j ↔ h = ⟨h.op, h.idx, h.f, 0, 0⟩ ∧ i = j := by
  cases h
  simp [rowIdxF, ite_ok_iff]

theorem rowImm_ok_iff {h : Header} {i j : Instr} : rowImm h i = .ok j ↔ h = ⟨h.op, 0, false, 0, h.imm⟩ ∧ i = j := by
  cases h
  simp [rowImm, ite_ok_iff, and_assoc]

theorem rowIdxImm_ok_iff {h : Header} {i j : Instr} :
    rowIdxImm h i = .ok j ↔ h = ⟨h.op, h.idx, false, 0, h.imm⟩ ∧ i = j := by
  cases h
  simp [rowIdxImm, ite_ok_iff]

/-! ## Decoding and encoding -/

theorem headerOf_mkFrame (op : Byte) (idx : BitVec 4) (f : Bool) (imm : Half) (a b c : Word) :
    headerOf (mkFrame op idx f imm a b c).w0 = ⟨op, idx, f, 0, imm⟩ := headerOf_headerWord _

/-- A header word whose reserved field is 0 is the W0 that `mkFrame` makes of its fields. -/
theorem mkFrame_w0_eq {w : Word} {n : Nat} {idx : BitVec 4} {f : Bool} {imm : Half} (hop : (headerOf w).op.toNat = n)
    (hh : headerOf w = ⟨(headerOf w).op, idx, f, 0, imm⟩) (a b c : Word) :
    (mkFrame (BitVec.ofNat 8 n) idx f imm a b c).w0 = w := by
  subst hop
  apply headerOf_inj
  rw [headerOf_mkFrame, BitVec.ofNat_toNat, BitVec.setWidth_eq, ← hh]

/-- Once the header of an encoding is known, each line of the decoder evaluates. -/
theorem decode_encode (i : Instr) : decode (encode i) = .ok i := by
  cases i <;> simp only [encode, decode, headerOf_mkFrame] <;> rfl

/-- The row a frame decodes by fixes every field of W0 that the operation does not carry as an operand. -/
theorem encode_w0_of_decode {fr : Frame} {i : Instr} (hd : decode fr = .ok i) : (encode i).w0 = fr.w0 := by
  simp only [decode] at hd
  split at hd
  case h_28 => cases hd
  all_goals
    rename_i hop
    simp only [rowPlain_ok_iff, rowIdx_ok_iff, rowIdxF_ok_iff, rowImm_ok_iff, rowIdxImm_ok_iff] at hd
    obtain ⟨hh, rfl⟩ := hd
    exact mkFrame_w0_eq hop hh _ _ _

/-- Settles O2: the decoder undoes the encoder, and a decoded frame's W0 is its operation's own. -/
theorem decodeOfEncode : Obligations.DecodeOfEncode := ⟨decode_encode, fun _ _ hd => encode_w0_of_decode hd⟩

/-- Settles O1, by evaluating the decoder on each frame. -/
theorem workedFramesDecode : Obligations.WorkedFramesDecode :=
  ⟨rfl, rfl, rfl, rfl, rfl, rfl, rfl, rfl, rfl, rfl, rfl, rfl, rfl, rfl, rfl⟩

/-! ## The decoder and the operation map -/

open Laws.EncodeSelectsRow in
/-- The per-instruction family, gathered. -/
theorem encode_selects_row : ∀ i : Instr, Statement i
  | .irqInit => irqInit
  | .irqSeth idx f a => irqSeth idx f a
  | .irqEn idx => irqEn idx
  | .irqDis idx => irqDis idx
  | .irqVcnt imm => irqVcnt imm
  | .keyUpd => keyUpd
  | .keyPrs => keyPrs
  | .keyHld => keyHld
  | .keyRel => keyRel
  | .keyIrqall imm => keyIrqall imm
  | .keyIrqany imm => keyIrqany imm
  | .keyIrqoff => keyIrqoff
  | .dmaCopy idx f a b c => dmaCopy idx f a b c
  | .dmaFill idx f a b c => dmaFill idx f a b c
  | .dmaXfer idx imm a b c => dmaXfer idx imm a b c
  | .dmaStop idx => dmaStop idx
  | .sramWr a b c => sramWr a b c
  | .sramRd a b c => sramRd a b c
  | .regRd a => regRd a
  | .regWr imm a => regWr imm a
  | .sysWaitvbl => sysWaitvbl
  | .sysFatal => sysFatal
  | .evtDispatch idx => evtDispatch idx
  | .evtHdone idx => evtHdone idx
  | .evtLine => evtLine
  | .evtHbl => evtHbl
  | .evtKeys imm => evtKeys imm

/-- What `field &&& mask = pat` says of a field: it is `pat` where the mask covers it whole, and it stays `field` where not. -/
def coveredField {n : Nat} (mask pat field : BitVec n) : BitVec n := if mask = BitVec.allOnes n then pat else field

theorem coveredField_eq {n : Nat} {mask pat field : BitVec n} (h : field &&& mask = pat) :
    coveredField mask pat field = field := by
  unfold coveredField
  split
  · next hm => rw [← h, hm, BitVec.and_allOnes]
  · rfl

/-- The header of a W0 that selects a row, with the row's own value in every field the row's mask covers: for a row of the
map, whose mask covers a field whole or not at all, an expression that evaluates field by field. -/
theorem OpRow.headerOf_of_selects {r : OpRow} {w : Word} (h : r.selects w) :
    headerOf w = ⟨coveredField (headerOf r.mask).op (headerOf r.pattern).op (headerOf w).op,
      coveredField (headerOf r.mask).idx (headerOf r.pattern).idx (headerOf w).idx,
      if (headerOf r.mask).f then (headerOf r.pattern).f else (headerOf w).f,
      coveredField (headerOf r.mask).z (headerOf r.pattern).z (headerOf w).z,
      coveredField (headerOf r.mask).imm (headerOf r.pattern).imm (headerOf w).imm⟩ := by
  obtain ⟨hop, hidx, hf, hz, himm⟩ := (OpRow.selects_iff r w).1 h
  rw [coveredField_eq hop, coveredField_eq hidx, coveredField_eq hz, coveredField_eq himm, ← hf]
  cases (headerOf r.mask).f <;> simp

/-- A frame that selects a row is legal: with the header the row gives, the decoder evaluates to an operation. -/
theorem decode_of_selects {r : OpRow} (hr : r ∈ opTable) {fr : Frame} (h : r.selects fr.w0) :
    ∃ i, decode fr = .ok i := by
  rw [decode, r.headerOf_of_selects h]
  simp only [opTable, List.cons_append, List.nil_append, List.mem_cons, List.not_mem_nil, or_false] at hr
  rcases hr with rfl | rfl | rfl | rfl | rfl | rfl | rfl | rfl | rfl | rfl | rfl | rfl | rfl | rfl | rfl | rfl |
    rfl | rfl | rfl | rfl | rfl | rfl | rfl | rfl | rfl | rfl | rfl <;> exact ⟨_, rfl⟩

/-- Every mask of the map covers OP, so a W0 that selects a row has the row's OP. -/
theorem op_of_selects {r : OpRow} (hr : r ∈ opTable) {w : Word} (h : r.selects w) :
    (headerOf w).op = (headerOf r.pattern).op := by
  have hmask : ∀ r ∈ opTable, (headerOf r.mask).op = BitVec.allOnes 8 := by decide
  obtain ⟨hop, -⟩ := (OpRow.selects_iff r w).1 h
  rwa [hmask r hr, BitVec.and_allOnes] at hop

/-- No two rows of the map have one OP. -/
theorem opTable_op_inj : ∀ r₁ ∈ opTable, ∀ r₂ ∈ opTable,
    (headerOf r₁.pattern).op = (headerOf r₂.pattern).op → r₁ = r₂ := by decide

/-- Settles O3: a decoded frame selects the row its operation's encoding selects, a frame that selects a row decodes, and
the rows differ in OP. -/
theorem decoderAgreesWithMatchMask : Obligations.DecoderAgreesWithMatchMask := by
  refine ⟨fun fr i hd => ?_, fun fr e he r hr hsel => ?_, fun w r₁ r₂ hr₁ hr₂ h₁ h₂ => ?_⟩
  · obtain ⟨r, hr, hmnemonic, hcls, hsel⟩ := encode_selects_row i
    rw [encode_w0_of_decode hd] at hsel
    exact ⟨r, hr, hsel, hmnemonic, hcls⟩
  · obtain ⟨i, hi⟩ := decode_of_selects hr hsel
    cases he.symm.trans hi
  · exact opTable_op_inj r₁ hr₁ r₂ hr₂ ((op_of_selects hr₁ h₁).symm.trans (op_of_selects hr₂ h₂))

end Sys2Proof

namespace Sys2Proof.Machine

/-! ## The decode checks of a step (30_encoding.md R110) -/

theorem acceptFrame_illegal {fr : Frame} {e : IllegalFrame} (h : decode fr = .error e) (who : Initiator) (t : State) :
    acceptFrame who fr t = rejectFrame .illegal t := by
  rw [acceptFrame, h]

theorem acceptFrame_wrongClass {fr : Frame} {i : Instr} {who : Initiator} (h : decode fr = .ok i) (hc : classOf i ≠ who)
    (t : State) : acceptFrame who fr t = rejectFrame .illegal t := by
  simp only [acceptFrame, h, if_pos hc]

theorem acceptFrame_halted {fr : Frame} {i : Instr} {t : State} (h : decode fr = .ok i) (hc : classOf i = .app)
    (hh : t.halted = true) : acceptFrame .app fr t = rejectFrame .halted t := by
  simp [acceptFrame, h, hc, hh]

theorem acceptFrame_exec {fr : Frame} {i : Instr} {who : Initiator} {t : State} (h : decode fr = .ok i)
    (hc : classOf i = who) (hh : who = .app → t.halted = false) : acceptFrame who fr t = exec i t := by
  have hrun : ¬(who = .app ∧ t.halted = true) := fun ⟨hw, ht⟩ => by simp [hh hw] at ht
  simp only [acceptFrame, h, if_neg (not_not_intro hc), if_neg hrun]

theorem step_frame {s : State} {who : Initiator} {fr : Frame} {left : List Input}
    (h : takeInput (appHeld s) s.pending = some (.frame who fr, left)) :
    step s = acceptFrame who fr (s.setPending left) := by
  rw [step, stepInput, h]
  rfl

theorem rejectFrame_setPending {s : State} (hs : KeypadSettled s) (left : List Input) (c : ResultCode) :
    rejectFrame c (s.setPending left) = .next (emit (.resp c 0) (s.setPending left)) :=
  rejectFrame_settled (t := s.setPending left) (hs.of_eq rfl rfl rfl) c

/-- Settles O5: the three rejections of an accepted frame, each on a settled state. -/
theorem stepRejectsInOrder : Obligations.StepRejectsInOrder := by
  intro s who fr left hs htake
  rw [step_frame htake]
  refine ⟨fun e he => ?_, fun i hi hc => ?_, fun i hi hc hw hh => ?_⟩
  · rw [acceptFrame_illegal he, rejectFrame_setPending hs]
  · rw [acceptFrame_wrongClass hi hc, rejectFrame_setPending hs]
  · subst hw
    rw [acceptFrame_halted hi hc (by simpa using hh), rejectFrame_setPending hs]

/-- Settles O4: past the decode checks the accepted frame is its operation. -/
theorem stepRunsDecodedFrame : Obligations.StepRunsDecodedFrame := fun _ _ _ _ _ htake hi hc hh =>
  (step_frame htake).trans (acceptFrame_exec hi hc hh)

end Sys2Proof.Machine
end

section
/-! SUPPORT and PROOFS. The interrupt family: the controller's operations on a settled state, the outcomes of `Dispatch` as
whole next states, and the substrate's two operations on handlers. -/

namespace Sys2Proof.Machine

/-! ## Source operands -/

theorem sourceOf_eq_some_iff {c : Platform} {idx : BitVec 4} {src : Source} :
    sourceOf c idx = some src ↔ src.val = idx.toNat ∧ idx.toNat < c.nSources := by
  simp only [sourceOf, Option.ite_none_right_eq_some, Option.some.injEq, Fin.ext_iff]
  exact ⟨fun ⟨hlt, he⟩ => ⟨he.symm, hlt⟩, fun ⟨he, hlt⟩ => ⟨hlt, he.symm⟩⟩

/-- The source a valid index names has that index. -/
theorem exists_sourceOf {c : Platform} {idx : BitVec 4} (h : idx.toNat < c.nSources) :
    ∃ src : Source, src.val = idx.toNat ∧ sourceOf c idx = some src :=
  ⟨idx.toFin, rfl, if_pos h⟩

theorem sourceOf_eq_none {c : Platform} {idx : BitVec 4} (h : c.nSources ≤ idx.toNat) : sourceOf c idx = none :=
  if_neg (Nat.not_lt.2 h)

/-- The operand IDX of the operations that check it against N_SOURCES (40_interrupt_controller.md R132 to R134, R137,
R138). -/
def sourceOperand : Instr → Option (BitVec 4)
  | .irqSeth idx _ _ | .irqEn idx | .irqDis idx | .evtDispatch idx | .evtHdone idx => some idx
  | _ => none

/-- All of them answer ERR_SOURCE to an index of N_SOURCES or more. -/
theorem exec_badSource {i : Instr} {idx : BitVec 4} {s : State} (hi : sourceOperand i = some idx) (hs : KeypadSettled s)
    (h : s.conf.nSources ≤ idx.toNat) : exec i s = .next (emit (.resp .source 0) s) := by
  have hn := sourceOf_eq_none h
  have hrej : finish s (.reject .source) = .next (emit (.resp .source 0) s) := rejectFrame_settled hs _
  cases i <;> cases hi
  case irqSeth => simp only [exec, execIrqSeth, hn, hrej]
  case irqEn => simp only [exec, execIrqEn, hn, hrej]
  case irqDis => simp only [exec, execIrqDis, hn, hrej]
  case evtDispatch => simp only [exec, execEvtDispatch, hn, hrej]
  case evtHdone => simp only [exec, execEvtHdone, hn, hrej]

/-- On a settled state an effect that leaves what the keypad line is read from is followed by its response alone. -/
theorem Effect.exec_settled {i : Instr} {s u : State} {d : Half} (h : Effect s i d u) (hs : KeypadSettled s)
    (hp : u.kpLinePrev = s.kpLinePrev) (hc : u.keycnt = s.keycnt) (hk : u.keyinput = s.keyinput) :
    exec i s = .next (emit (.resp .ok d) u) := by
  rw [h.exec_eq, respond_settled (hs.of_eq hp hc hk)]

/-! ## The controller's operations -/

/-- Settles O26: the vector written is the one of absent slots. -/
theorem irqInitClearsController : Obligations.IrqInitClearsController := fun _ hs =>
  ⟨Vector.replicate _ none, fun _ => Vector.getElem_replicate _, Effect.irqInit.exec_settled hs rfl rfl rfl⟩

/-- Settles O29, by the number a reduced scanline stands for. -/
theorem irqVcntStoresModulo228 : Obligations.IrqVcntStoresModulo228 := fun s imm hs =>
  ⟨lineOf s.conf imm, lineOf_toNat s.conf imm, Effect.irqVcnt.exec_settled hs rfl rfl rfl⟩

theorem vec_set_getElem (v : Vector (Option Word) 16) (src o : Source) (h : Option Word) :
    (v.set src h)[o] = if o.val = src.val then h else v[o] := by
  simp [Vector.getElem_set, eq_comm]

/-- Settles O27: the slot of a valid source is set. -/
theorem irqSethWritesOneSlot : Obligations.IrqSethWritesOneSlot := by
  intro s idx f a hs
  refine ⟨fun hlt => ?_, exec_badSource rfl hs⟩
  obtain ⟨src, hval, hsrc⟩ := exists_sourceOf hlt
  refine ⟨_, (Effect.irqSeth hsrc).exec_settled hs rfl rfl rfl, fun o => ?_⟩
  rw [vec_set_getElem, hval]

/-- Each enable of DISPSTAT is written for its own source alone; the target for none. -/
theorem setEnable_vblEn (c : Platform) (d : Dispstat) (src : Source) (v : Bool) :
    (d.setEnable c src v).vblEn = if src.val = c.idxVblank then v else d.vblEn := by
  simp only [Dispstat.setEnable, ← eq_srcVblank]
  split_ifs <;> rfl

theorem setEnable_hblEn (c : Platform) (d : Dispstat) (src : Source) (v : Bool) :
    (d.setEnable c src v).hblEn = if src.val = c.idxHblank then v else d.hblEn := by
  simp only [Dispstat.setEnable, ← eq_srcHblank]
  by_cases hv : src = srcVblank c
  · simp [hv, (srcHblank_ne_srcVblank c).symm]
  · rw [if_neg hv]; split_ifs <;> rfl

theorem setEnable_vcEn (c : Platform) (d : Dispstat) (src : Source) (v : Bool) :
    (d.setEnable c src v).vcEn = if src.val = c.idxVcount then v else d.vcEn := by
  simp only [Dispstat.setEnable, ← eq_srcVcount]
  by_cases hv : src = srcVblank c
  · simp [hv, (srcVcount_ne_srcVblank c).symm]
  · by_cases hh : src = srcHblank c
    · simp [hh, srcHblank_ne_srcVblank c, (srcVcount_ne_srcHblank c).symm]
    · rw [if_neg hv, if_neg hh]; split_ifs <;> rfl

theorem setEnable_vcTgt (c : Platform) (d : Dispstat) (src : Source) (v : Bool) :
    (d.setEnable c src v).vcTgt = d.vcTgt := by
  unfold Dispstat.setEnable
  split_ifs <;> rfl

/-- IRQ.EN (`v = true`) and IRQ.DIS (`v = false`) of a valid source, as one operation that writes `v`. -/
theorem exec_irqEn_irqDis {s : State} {idx : BitVec 4} {src : Source} (hs : KeypadSettled s)
    (hsrc : sourceOf s.conf idx = some src) (v : Bool) :
    ∃ w : Half, exec (if v then .irqEn idx else .irqDis idx) s =
        .next (emit (.resp .ok 0) ((s.setIe w).setDispstat (s.dispstat.setEnable s.conf src v))) ∧
      ∀ k, w.getLsbD k = if k = src.val then v else s.ie.getLsbD k := by
  cases v with
  | true =>
    refine ⟨_, (Effect.irqEn hsrc).exec_settled hs rfl rfl rfl, fun k => ?_⟩
    rw [getLsbD_setBit]
    by_cases hk : k = src.val <;> simp [hk]
  | false =>
    refine ⟨_, (Effect.irqDis hsrc).exec_settled hs rfl rfl rfl, fun k => ?_⟩
    rw [getLsbD_clearBit]
    by_cases hk : k = src.val <;> simp [hk]

/-- Settles O28: the bit of IE and the paired enable of the source the index names. -/
theorem irqEnDisWritePairedBits : Obligations.IrqEnDisWritePairedBits := by
  intro s idx v hs i
  refine ⟨fun hlt => ?_, exec_badSource (by cases v <;> rfl) hs⟩
  obtain ⟨src, hval, hsrc⟩ := exists_sourceOf hlt
  obtain ⟨w, hw, hbits⟩ := exec_irqEn_irqDis hs hsrc v
  rw [← hval]
  exact ⟨w, s.dispstat.setEnable s.conf src v, hw, hbits, setEnable_vblEn .., setEnable_hblEn .., setEnable_vcEn ..,
    setEnable_vcTgt ..⟩

/-! ## The outcomes of `Dispatch` -/

theorem takes_iff {src : Source} {t : State} :
    takes src t = true ↔ t.ime = true ∧ t.ie.getLsbD src.val = true ∧ lineOn src t = true ∧
      t.inService.getLsbD src.val = false := by
  simp [takes, bitOf, and_assoc]

/-- An event whose handler is in service is not taken (40_interrupt_controller.md R136). -/
theorem takes_of_inService {src : Source} {t : State} (h : t.inService.getLsbD src.val = true) : takes src t = false := by
  simp [takes, bitOf, h]

theorem dispatch_invokes_iff {src : Source} {t : State} :
    (dispatch src t).2 = true ↔ takes src t = true ∧ ∃ h, t.vec[src] = some h := by
  rcases dispatch_cases src t with ⟨ht, e⟩ | ⟨ht, h, hv, e⟩ | ⟨ht, hv, e⟩
  · simp [e, ht]
  · simp [e, ht, hv]
  · simp [e, ht, hv]

/-- The flag is latched whatever becomes of the event. -/
theorem dispatch_iflag (src : Source) (t : State) : (dispatch src t).1.iflag = (latch src t).iflag := by
  rcases dispatch_cases src t with ⟨-, e⟩ | ⟨-, h, -, e⟩ | ⟨-, -, e⟩ <;> simp [e]

theorem latch_eq_setIflag (src : Source) (t : State) : ∃ f, latch src t = t.setIflag f := by
  cases hl : lineOn src t with
  | false => exact ⟨t.iflag, latch_off hl⟩
  | true => exact ⟨_, latch_on hl⟩

/-- A taken event has its flag latched, the line being on. -/
theorem latch_of_takes {src : Source} {t : State} (h : takes src t = true) :
    latch src t = t.setIflag (setBit t.iflag src) := latch_on (lineOn_of_takes h)

theorem wakeIfWaiting_on {src : Source} {t : State} (hsrc : src.val = t.conf.idxVblank) (hw : t.waiting = true) :
    wakeIfWaiting src t = emit .wake (t.setWaiting false) := if_pos ⟨eq_srcVblank.2 hsrc, hw⟩

theorem wakeIfWaiting_off {src : Source} {t : State} (h : ¬ (src.val = t.conf.idxVblank ∧ t.waiting = true)) :
    wakeIfWaiting src t = t := if_neg (by rwa [eq_srcVblank])

/-- A taken event with a handler, as a whole next state. -/
theorem dispatch_taken_installed {src : Source} {t : State} {h : Word} (ht : takes src t = true)
    (hv : t.vec[src] = some h) :
    dispatch src t =
      (emit (.invoke src h) ((t.setIflag (setBit t.iflag src)).setInService (setBit t.inService src)), true) := by
  rw [dispatch_invoked ht hv, latch_of_takes ht]
  rfl

/-- A taken VBlank with no handler and a caller waiting wakes the caller. -/
theorem dispatch_taken_wakes {src : Source} {t : State} (ht : takes src t = true) (hv : t.vec[src] = none)
    (hsrc : src.val = t.conf.idxVblank) (hw : t.waiting = true) :
    dispatch src t = (emit .wake ((t.setIflag (setBit t.iflag src)).setWaiting false), false) := by
  rw [dispatch_absent ht hv, latch_of_takes ht, wakeIfWaiting_on (by simpa using hsrc) (by simpa using hw)]

/-- Any other taken event with no handler leaves its flag and nothing else. -/
theorem dispatch_taken_absent {src : Source} {t : State} (ht : takes src t = true) (hv : t.vec[src] = none)
    (h : ¬ (src.val = t.conf.idxVblank ∧ t.waiting = true)) :
    dispatch src t = (t.setIflag (setBit t.iflag src), false) := by
  rw [dispatch_absent ht hv, latch_of_takes ht, wakeIfWaiting_off (by simpa using h)]

/-- Settles O30: the enables are the condition of a taken event, and its line is what the latch reads. -/
theorem dispatchDiscipline : Obligations.DispatchDiscipline := by
  intro s src hfree linked wakes
  have hline : lineOn src s = true ↔ linked := lineOn_iff src s
  have htakes : takes src s = true ↔ s.ime = true ∧ s.ie.getLsbD src.val = true ∧ linked := by
    simp only [takes_iff, hline, hfree, and_true]
  refine ⟨fun h hv => ?_, fun hon => ?_, fun hoff => ?_, fun hv => ⟨?_, fun hw => ?_, fun hw => ?_⟩⟩
  · rw [dispatch_invokes_iff, htakes]
    exact and_iff_left ⟨h, hv⟩
  · rw [dispatch_iflag, latch_on (hline.2 hon)]
    simp [getLsbD_setBit]
  · rw [dispatch_iflag, latch_off (Bool.eq_false_iff.2 (mt hline.1 hoff))]
  · rw [Bool.eq_false_iff, Ne, dispatch_invokes_iff]
    simp [hv]
  · obtain ⟨hvbl, hwait, htaken⟩ := hw
    rw [dispatch_taken_wakes (htakes.2 htaken) hv hvbl hwait]
    exact ⟨_, rfl⟩
  · cases ht : takes src s with
    | false =>
      rw [dispatch_lost ht]
      exact latch_eq_setIflag src s
    | true =>
      rw [dispatch_taken_absent ht hv fun ⟨hvbl, hwait⟩ => hw ⟨hvbl, hwait, htakes.1 ht⟩]
      exact ⟨_, rfl⟩

/-- Settles O31: only a taken event with a handler installed invokes, and none is taken while its handler runs. -/
theorem interruptEntryAndNoReentry : Obligations.InterruptEntryAndNoReentry := by
  refine fun s src => ⟨fun hinv => ?_, fun hbusy => ?_⟩
  · obtain ⟨ht, h, hv⟩ := dispatch_invokes_iff.1 hinv
    rw [dispatch_taken_installed ht hv]
    exact ⟨h, _, _, hv, rfl, getLsbD_setBit _ src, getLsbD_setBit _ src⟩
  · rw [dispatch_lost (takes_of_inService hbusy)]
    exact ⟨rfl, latch_eq_setIflag src s⟩

/-! ## The substrate's operations on handlers -/

theorem exec_evtDispatch {s : State} {idx : BitVec 4} {src : Source} (hs : KeypadSettled s)
    (hsrc : sourceOf s.conf idx = some src) :
    exec (.evtDispatch idx) s = .next (emit (.resp .ok (if (dispatch src s).2 then 1 else 0)) (dispatch src s).1) :=
  (Effect.evtDispatch hsrc).exec_settled hs (by simp) (by simp) (by simp)

/-- Settles O32: the response to each outcome of `Dispatch`. -/
theorem evtDispatchAnswers : Obligations.EvtDispatchAnswers := by
  refine fun s idx hs => ⟨exec_badSource rfl hs, fun src hval hlt => ?_⟩
  rw [exec_evtDispatch hs (sourceOf_eq_some_iff.2 ⟨hval, hval ▸ hlt⟩), ← hval]
  refine ⟨fun ht => ?_, fun ht h hv => ?_, fun ht hv hvbl hwait => ?_, fun ht hv hno => ?_⟩
  · rw [dispatch_lost ht]; rfl
  · rw [dispatch_taken_installed ht hv]; rfl
  · rw [dispatch_taken_wakes ht hv hvbl hwait]; rfl
  · rw [dispatch_taken_absent ht hv (not_and_or.2 (hno.imp_right Bool.eq_false_iff.1))]; rfl

theorem exec_evtHdone_protocol {s : State} {idx : BitVec 4} {src : Source} (hs : KeypadSettled s)
    (hsrc : sourceOf s.conf idx = some src) (hoff : bitOf s.inService src = false) :
    exec (.evtHdone idx) s = .next (emit (.resp .protocol 0) s) := by
  simp only [exec, execEvtHdone, hsrc, hoff, Bool.false_eq_true, if_false, finish, rejectFrame_settled hs]

theorem exec_evtHdone {s : State} {idx : BitVec 4} {src : Source} (hs : KeypadSettled s)
    (hsrc : sourceOf s.conf idx = some src) (hon : bitOf s.inService src = true) :
    exec (.evtHdone idx) s = .next (emit (.resp .ok 0) (leaveHandler src s)) :=
  (Effect.evtHdone hsrc hon).exec_settled hs (by simp) (by simp) (by simp)

/-- Settles O33: the return clears the source's bit, and a VBlank return wakes the waiter. -/
theorem evtHdoneReturns : Obligations.EvtHdoneReturns := by
  refine fun s idx hs => ⟨exec_badSource rfl hs, fun hlt hoff => ?_, fun hlt hon => ?_⟩ <;>
    obtain ⟨src, hval, hsrc⟩ := exists_sourceOf hlt
  · exact exec_evtHdone_protocol hs hsrc ((bitOf_sourceOf hsrc _).trans hoff)
  · rw [exec_evtHdone hs hsrc ((bitOf_sourceOf hsrc _).trans hon), leaveHandler, ← hval]
    refine ⟨clearBit s.inService src, getLsbD_clearBit _ src, fun ⟨hvbl, hwait⟩ => ?_, fun hno => ?_⟩
    · rw [wakeIfWaiting_on (by simpa using hvbl) (by simpa using hwait)]; rfl
    · rw [wakeIfWaiting_off (by simpa using hno)]; rfl

end Sys2Proof.Machine
end

section
/-! SUPPORT and PROOFS. The keypad family: the level of the keypad line as a statement about single buttons, the sample of
the raw lines, and the operations that move the line, with the event of its rising edge. -/

namespace Sys2Proof.Machine

/-! ## The keypad line (41_keypad.md R168) -/

/-- A mask keeps all of a selection exactly when it holds every selected bit. -/
theorem bits_and_eq_left_iff {w : Nat} {x y : BitVec w} :
    x &&& y = x ↔ ∀ k, k < w → x.getLsbD k = true → y.getLsbD k = true := by
  simp only [BitVec.eq_of_getLsbD_eq_iff, BitVec.getLsbD_and, Bool.and_eq_left_iff_imp]

/-- A mask keeps some of a selection exactly when it holds a selected bit. -/
theorem bits_and_ne_zero_iff {w : Nat} {x y : BitVec w} :
    x &&& y ≠ 0 ↔ ∃ k, k < w ∧ x.getLsbD k = true ∧ y.getLsbD k = true := by
  simp [BitVec.eq_of_getLsbD_eq_iff]

/-- The selected buttons are bits 9:0 of KEYCNT. -/
theorem getLsbD_selected {keycnt : Half} {k : Nat} (hk : k < 10) :
    (keycnt.extractLsb' 0 10).getLsbD k = keycnt.getLsbD k := by
  simp [hk]

/-- A button is down where its raw line is low. -/
theorem getLsbD_down {lines : Half} {k : Nat} (hk : k < 10) :
    ((~~~lines).extractLsb' 0 10).getLsbD k = true ↔ lines.getLsbD k = false := by
  simp [hk, show k < 16 by omega]

/-- Settles O37: the line compares the selected buttons that are down with the selection, or with none. -/
theorem keypadLineLevel : Obligations.KeypadLineLevel := by
  intro s
  have hall : (s.keycnt.extractLsb' 0 10 &&& (~~~s.keyinput).extractLsb' 0 10 = s.keycnt.extractLsb' 0 10) ↔
      ∀ k, k < 10 → s.keycnt.getLsbD k = true → s.keyinput.getLsbD k = false := by
    rw [bits_and_eq_left_iff]
    exact forall₂_congr fun k hk => by rw [getLsbD_selected hk, getLsbD_down hk]
  have hany : s.keycnt.extractLsb' 0 10 &&& (~~~s.keyinput).extractLsb' 0 10 ≠ 0 ↔
      ∃ k, k < 10 ∧ s.keycnt.getLsbD k = true ∧ s.keyinput.getLsbD k = false := by
    rw [bits_and_ne_zero_iff]
    exact exists_congr fun k => and_congr_right fun hk => by rw [getLsbD_selected hk, getLsbD_down hk]
  rw [keypadLine, Bool.and_eq_true]
  refine and_congr_right fun _ => ?_
  cases s.keycnt.getLsbD 15 with
  | true => simpa using hall
  | false => simpa using hany

/-! ## The snapshot (41_keypad.md R160 to R163, R170) -/

/-- One sample never shows a button both pressed and released. -/
theorem Snapshot.sample_disjoint (k : Snapshot) (lines : Half) :
    (k.sample lines).pressed &&& (k.sample lines).released = 0 := by
  ext i
  simp +contextual [Snapshot.sample]

/-- A second sample of the same lines shows no edge. -/
theorem Snapshot.sample_sample (k : Snapshot) (lines : Half) :
    (k.sample lines).sample lines = ⟨~~~lines, ~~~lines, 0, 0⟩ := by
  simp [Snapshot.sample]

/-- Settles O34: the effect of KEY.UPD leaves what the line is read from. -/
theorem keyUpdSamplesLines : Obligations.KeyUpdSamplesLines := by
  intro s hs
  rw [Effect.keyUpd.exec_settled hs rfl rfl rfl]
  simp only [Snapshot.sample, BitVec.not_not, State.setKeys]

/-- Settles O35: the effect of an accessor is the state itself. -/
theorem keyAccessorsAnswerSnapshot : Obligations.KeyAccessorsAnswerSnapshot := fun _ hs =>
  ⟨Effect.keyPrs.exec_settled hs rfl rfl rfl, Effect.keyHld.exec_settled hs rfl rfl rfl,
    Effect.keyRel.exec_settled hs rfl rfl rfl⟩

/-- Settles O36: the epilogue between the two samples leaves the snapshot and the lines. -/
theorem secondSampleHasNoEdges : Obligations.SecondSampleHasNoEdges := by
  intro s
  refine ⟨_, _, Effect.keyUpd.exec_eq, Effect.keyUpd.exec_eq, ?_⟩
  simp only [respond_keys, respond_keyinput, State.setKeys_keys, State.setKeys_keyinput, Snapshot.sample_disjoint,
    Snapshot.sample_sample, and_self]

/-! ## The operations that move the line (41_keypad.md R164 to R167, R169; 44_register_port.md R242) -/

/-- With no rising edge an effect is followed by its response alone, the line remembered. -/
theorem Effect.exec_no_edge {i : Instr} {s u : State} {d : Half} (h : Effect s i d u)
    (he : keypadLine u = false ∨ u.kpLinePrev = true) :
    exec i s = .next (emit (.resp .ok d) (u.setKpLinePrev (keypadLine u))) := by
  rw [h.exec_eq, respond, keypadEpilogue_no_edge he]

/-- On a rising edge the Keypad source is dispatched between an effect and its response. -/
theorem Effect.exec_edge {i : Instr} {s u : State} {d : Half} (h : Effect s i d u) (hl : keypadLine u = true)
    (hp : u.kpLinePrev = false) :
    exec i s = .next (emit (.resp .ok d) ((dispatch (srcKeypad u.conf) u).1.setKpLinePrev true)) := by
  rw [h.exec_eq, respond, keypadEpilogue_edge hl hp]

theorem regAt_keycnt {c : Platform} {a : Word} (h : a.toNat = c.addrKeycnt) : regAt c a = some .keycnt :=
  regAt_of_mem (by simp [registerMap, h])

/-- Settles O38: each operation's effect is the register written, and the epilogue meets it with the old edge memory. -/
theorem keypadConditionAndEvent : Obligations.KeypadConditionAndEvent := by
  intro s imm i t hwrite
  have heffect : Effect s i 0 t ∧ t.kpLinePrev = s.kpLinePrev ∧ t.conf = s.conf := by
    rcases hwrite with ⟨rfl, rfl⟩ | ⟨rfl, rfl⟩ | ⟨rfl, rfl⟩ | ⟨rfl, rfl⟩ | ⟨⟨a, ha, rfl⟩, rfl⟩
    · exact ⟨.keyIrqall, rfl, rfl⟩
    · exact ⟨.keyIrqany, rfl, rfl⟩
    · exact ⟨.keyIrqoff, rfl, rfl⟩
    · exact ⟨.evtKeys, rfl, rfl⟩
    · exact ⟨.regWr (regAt_keycnt ha) rfl, rfl, rfl⟩
  obtain ⟨heff, hprev, hconf⟩ := heffect
  rw [← hprev, ← hconf]
  exact ⟨heff.exec_no_edge, fun ⟨hl, hp⟩ => heff.exec_edge hl hp⟩

end Sys2Proof.Machine
end

section
/-! SUPPORT and PROOFS. The DMA family: the record a burst leaves and what it moves between plain areas, the triggers of an
edge, the four operations with their checks, and the order of the two display events. -/

namespace Sys2Proof.Machine

/-! ## The fields a burst reads, by their masks (10_state.md R28) -/

theorem ctrlDm_fixed_iff (c : Half) : ctrlDm c = 2 ↔ c &&& 0x0060 = 0x0040 :=
  extractLsb'_eq_iff_and c 5 (2 : BitVec 2) (by decide)

theorem ctrlDm_reload_iff (c : Half) : ctrlDm c = 3 ↔ c &&& 0x0060 = 0x0060 :=
  extractLsb'_eq_iff_and c 5 (3 : BitVec 2) (by decide)

theorem ctrlSm_increment_iff (c : Half) : ctrlSm c = 0 ↔ c &&& 0x0180 = 0 :=
  extractLsb'_eq_iff_and c 7 (0 : BitVec 2) (by decide)

theorem ctrlTm_immediate_iff (c : Half) : ctrlTm c = 0 ↔ c &&& 0x3000 = 0 :=
  extractLsb'_eq_iff_and c 12 (0 : BitVec 2) (by decide)

theorem srcStep_eq (c : Half) : srcStep c = if c &&& 0x0180 = 0 then unitBytes (c.getLsbD 10) else 0 := by
  simp only [srcStep, ctrlSm_increment_iff, ctrlU32]

theorem dstStep_eq (c : Half) : dstStep c = if c &&& 0x0060 = 0x0040 then 0 else unitBytes (c.getLsbD 10) := by
  simp only [dstStep, ctrlDm_fixed_iff, ctrlU32]

/-! ## The record a burst leaves (42_dma.md R183) -/

/-- The record a burst leaves in its channel, from the record it began with. -/
def DmaChannel.afterBurst (d : DmaChannel) : DmaChannel :=
  DmaChannel.endBurst d.ctrl { d with wsrc := d.wsrc + d.cnt * srcStep d.ctrl, wdst := d.wdst + d.cnt * dstStep d.ctrl }

theorem burst_afterBurst (ch : Channel) (fill : Option Word) (t : State) :
    (burst ch fill t).1.dma[ch] = t.dma[ch].afterBurst := burst_channel ch fill t

/-- The channel stays armed over its burst: it repeats and its timing is deferred. -/
def DmaChannel.Repeats (d : DmaChannel) : Prop := d.ctrl.getLsbD 9 = true ∧ d.ctrl &&& 0x3000 ≠ 0

theorem DmaChannel.repeats_iff (d : DmaChannel) : d.Repeats ↔ ctrlRpt d.ctrl = true ∧ ctrlTm d.ctrl ≠ 0 := by
  rw [Ne, ctrlTm_immediate_iff]; rfl

theorem DmaChannel.afterBurst_reload {d : DmaChannel} (h : d.Repeats) (hdm : d.ctrl &&& 0x0060 = 0x0060) :
    d.afterBurst = { d with wsrc := d.wsrc + d.cnt * srcStep d.ctrl, wdst := d.dad } := by
  rw [afterBurst, endBurst, if_pos (d.repeats_iff.1 h), if_pos ((ctrlDm_reload_iff _).2 hdm)]

theorem DmaChannel.afterBurst_repeat {d : DmaChannel} (h : d.Repeats) (hdm : d.ctrl &&& 0x0060 ≠ 0x0060) :
    d.afterBurst =
      { d with wsrc := d.wsrc + d.cnt * srcStep d.ctrl, wdst := d.wdst + d.cnt * dstStep d.ctrl } := by
  rw [afterBurst, endBurst, if_pos (d.repeats_iff.1 h), if_neg (mt (ctrlDm_reload_iff _).1 hdm)]

theorem DmaChannel.afterBurst_once {d : DmaChannel} (h : ¬ d.Repeats) :
    d.afterBurst = ⟨disarmWord d.ctrl, d.cnt, d.dad, d.wsrc + d.cnt * srcStep d.ctrl,
      d.wdst + d.cnt * dstStep d.ctrl⟩ := by
  rw [afterBurst, endBurst, if_neg (mt d.repeats_iff.2 h)]

/-! ## What a burst moves between plain areas -/

/-- Byte `j` of the unit the `i`-th turn of a burst reads. -/
def DmaChannel.srcByte (d : DmaChannel) (i j : Nat) : Word := unitAt d.wsrc (srcStep d.ctrl) i + BitVec.ofNat 32 j

/-- Byte `j` of the unit the `i`-th turn of a burst writes. -/
def DmaChannel.dstByte (d : DmaChannel) (i j : Nat) : Word := unitAt d.wdst (dstStep d.ctrl) i + BitVec.ofNat 32 j

/-- The bytes in a unit of the channel. -/
def DmaChannel.width (d : DmaChannel) : Nat := (unitBytes (ctrlU32 d.ctrl)).toNat

/-- The units a burst of the channel writes, and for a copy those it reads, lie in plain memory (mass storage too as the
source of DMA_ROM_CHANNEL), and for a copy no byte read is a byte written. -/
structure DmaChannel.MovesPlain (d : DmaChannel) (c : Platform) (ch : Channel) (fill : Option Word) : Prop where
  src : fill = none → ∀ i j, i < d.cnt.toNat → j < d.width → onRegister c (d.srcByte i j) = false ∧
    inSram c (d.srcByte i j) = false ∧ (ch.val = c.dmaRomChannel ∨ inRom c (d.srcByte i j) = false)
  dst : ∀ i j, i < d.cnt.toNat → j < d.width → onRegister c (d.dstByte i j) = false ∧
    inSram c (d.dstByte i j) = false ∧ inRom c (d.dstByte i j) = false
  apart : fill = none → ∀ i j k l, i < d.cnt.toNat → j < d.width → k < d.cnt.toNat → l < d.width →
    d.srcByte i j ≠ d.dstByte k l

theorem capViolation_eq_false {c : Platform} {ch : Channel} {a : Word}
    (h : ch.val = c.dmaRomChannel ∨ inRom c a = false) : capViolation c ch a = false := by
  rcases h with h | h <;> simp [capViolation, h]

/-- Every platform has a register, so an area free of register bytes is no longer than the address space. -/
theorem length_le_of_noRegister {c : Platform} {a : Word} {n : Nat}
    (h : ∀ j, j < n → onRegister c (a + BitVec.ofNat 32 j) = false) : n ≤ 2 ^ 32 := by
  by_contra hn
  have hlt : c.addrDispstat < 2 ^ 32 := (register_place c _ (by simp [Config.registerAddresses])).1
  have hoff := h (BitVec.ofNat 32 c.addrDispstat - a).toNat (by omega)
  rw [BitVec.ofNat_toNat, BitVec.setWidth_eq, add_sub_cancel] at hoff
  have hreg : regAt c (BitVec.ofNat 32 c.addrDispstat) = some .dispstat :=
    regAt_of_mem (by rw [BitVec.toNat_ofNat, Nat.mod_eq_of_lt hlt]; exact List.mem_cons_self)
  simp [onRegister, hreg] at hoff

theorem DmaChannel.dstByte_eq {d : DmaChannel} (hdm : ctrlDm d.ctrl ≠ 2) (i j : Nat) :
    d.dstByte i j = d.wdst + BitVec.ofNat 32 (d.width * i + j) := by
  rw [dstByte, dstStep, if_neg hdm]
  exact unitAt_byte _ _ i j

theorem DmaChannel.srcByte_eq {d : DmaChannel} (hsm : ctrlSm d.ctrl = 0) (i j : Nat) :
    d.srcByte i j = d.wsrc + BitVec.ofNat 32 (d.width * i + j) := by
  rw [srcByte, srcStep, if_pos hsm]
  exact unitAt_byte _ _ i j

theorem DmaChannel.width_pos (d : DmaChannel) : 0 < d.width := unitBytes_pos _

/-- A place below the length of `n` units of `w` bytes is a place in one of them. -/
theorem exists_unit_offset {w n k : Nat} (hw : 0 < w) (hk : k < w * n) : ∃ i j, i < n ∧ j < w ∧ k = w * i + j :=
  ⟨k / w, k % w, Nat.div_lt_of_lt_mul hk, Nat.mod_lt k hw, (Nat.div_add_mod k w).symm⟩

/-- The units a moving destination passes share no byte: they would have to pass every address, the registers' too. -/
theorem DmaChannel.MovesPlain.units_apart {d : DmaChannel} {c : Platform} {ch : Channel} {fill : Option Word}
    (h : d.MovesPlain c ch fill) (hdm : ctrlDm d.ctrl ≠ 2) {i j k l : Nat} (hik : i < k) (hk : k < d.cnt.toNat)
    (hj : j < d.width) (hl : l < d.width) : d.dstByte i j ≠ d.dstByte k l := by
  have hlen : d.width * d.cnt.toNat ≤ 2 ^ 32 := length_le_of_noRegister (a := d.wdst) fun p hp => by
    obtain ⟨i, j, hi, hj, rfl⟩ := exists_unit_offset d.width_pos hp
    rw [← DmaChannel.dstByte_eq hdm]
    exact (h.dst i j hi hj).1
  rw [DmaChannel.dstByte_eq hdm, DmaChannel.dstByte_eq hdm]
  intro he
  have hbefore : d.width * i + j < d.width * k := unit_offset_lt hik hj
  have hinside : d.width * k + l < d.width * d.cnt.toNat := unit_offset_lt hk hl
  have heq := offset_inj (by omega) (by omega) he
  omega

/-- A burst between plain areas: `Mem` and the channel's record change; each unit written holds the bytes of its turn, the
last turn's where the destination is fixed; every other byte stays (42_dma.md R183). -/
theorem burst_plain {ch : Channel} {fill : Option Word} {t : State} (hw : t.mem.wf = true)
    (h : t.dma[ch].MovesPlain t.conf ch fill) :
    ∃ m : Memory, (burst ch fill t).1 = (t.setMem m).setChannel ch t.dma[ch].afterBurst ∧
      (∀ i j, i < t.dma[ch].cnt.toNat → j < t.dma[ch].width →
        (ctrlDm t.dma[ch].ctrl = 2 → i + 1 = t.dma[ch].cnt.toNat) →
        Memory.read m (t.dma[ch].dstByte i j).toNat =
          unitByte fill t (unitAt t.dma[ch].wsrc (srcStep t.dma[ch].ctrl) i) j) ∧
      (∀ x, (∀ i j, i < t.dma[ch].cnt.toNat → j < t.dma[ch].width → x ≠ t.dma[ch].dstByte i j) →
        Memory.read m x.toNat = readByte t x) := by
  obtain ⟨m, -, hm, hbytes, hother⟩ := burstUnits_plain ch fill t.dma[ch].ctrl t.dma[ch].cnt.toNat hw
    (fun hf i hi => ⟨fun j hj => ⟨(h.src hf i j hi hj).1, (h.src hf i j hi hj).2.1⟩, by
      have hfirst := (h.src hf i 0 hi t.dma[ch].width_pos).2.2
      rw [DmaChannel.srcByte, BitVec.add_zero] at hfirst
      exact capViolation_eq_false hfirst⟩)
    (fun i hi => ⟨fun j hj => ⟨(h.dst i j hi hj).1, (h.dst i j hi hj).2.1⟩, fun j hj => (h.dst i j hi hj).2.2⟩)
    (fun hf i k hi hk j hj l hl => h.apart hf i j k l hi hj hk hl)
    (fun hdm i k hik hk j hj l hl => h.units_apart hdm hik hk hj hl)
  refine ⟨m, ?_, hbytes, fun x hx => hother x fun i hi j hj => hx i j hi hj⟩
  have hstate : (burst ch fill t).1 = (t.setMem m).setDma (burst ch fill t).1.dma := by
    unfold burst
    dsimp only
    rw [hm]
    rfl
  rw [hstate, burst_dma, burst_afterBurst]
  rfl

/-- The record of a burst, in the statements' terms. -/
theorem DmaChannel.afterBurst_cases (d : DmaChannel) :
    let ub : Word := if d.ctrl.getLsbD 10 then 4 else 2
    let again : Prop := d.ctrl.getLsbD 9 = true ∧ d.ctrl &&& 0x3000 ≠ 0
    let src := d.wsrc + d.cnt * (if d.ctrl &&& 0x0180 = 0 then ub else 0)
    let dst := d.wdst + d.cnt * (if d.ctrl &&& 0x0060 = 0x0040 then 0 else ub)
    (again → d.ctrl &&& 0x0060 = 0x0060 → d.afterBurst = ⟨d.ctrl, d.cnt, d.dad, src, d.dad⟩) ∧
    (again → d.ctrl &&& 0x0060 ≠ 0x0060 → d.afterBurst = ⟨d.ctrl, d.cnt, d.dad, src, dst⟩) ∧
    (¬ again → d.afterBurst = ⟨d.ctrl &&& 0x7FFF, d.cnt, d.dad, src, dst⟩) := by
  intro ub again src dst
  have hsrc : d.wsrc + d.cnt * srcStep d.ctrl = src := by rw [srcStep_eq]; rfl
  have hdst : d.wdst + d.cnt * dstStep d.ctrl = dst := by rw [dstStep_eq]; rfl
  rw [← hsrc, ← hdst]
  exact ⟨DmaChannel.afterBurst_reload, DmaChannel.afterBurst_repeat, DmaChannel.afterBurst_once⟩

/-- Settles O46: the record and the data of a burst, in the statement's masks. -/
theorem burstLeavesChannel : Obligations.BurstLeavesChannel := by
  intro s ch fill d ub again sstep dstep src dst
  obtain ⟨hreload, hrepeat, honce⟩ := d.afterBurst_cases
  rw [burst_afterBurst]
  refine ⟨hreload, hrepeat, honce, rfl, ?_⟩
  intro hw srcByte dstByte hsrc hdst hapart
  have hs : srcStep d.ctrl = sstep := srcStep_eq _
  have hd : dstStep d.ctrl = dstep := dstStep_eq _
  have hsb : d.srcByte = srcByte := by funext i j; rw [DmaChannel.srcByte, hs]; rfl
  have hdb : d.dstByte = dstByte := by funext i j; rw [DmaChannel.dstByte, hd]; rfl
  obtain ⟨m, hm, hbytes, hother⟩ := burst_plain hw (ch := ch) (fill := fill)
    ⟨by rw [hsb]; exact hsrc, by rw [hdb]; exact hdst, by rw [hsb, hdb]; exact hapart⟩
  refine ⟨m, hm, fun i j hi hj hlast => ?_, by rw [← hdb]; exact hother⟩
  rw [← hsb, ← hdb]
  have hb := hbytes i j hi hj fun hfix => hlast ((ctrlDm_fixed_iff _).1 hfix)
  exact ⟨fun hf => by subst hf; exact hb, fun v hf => by subst hf; exact hb⟩

/-! ## A copy from one plain area to another -/

/-- The `n` bytes from `a` on are plain memory (mass storage too for DMA_ROM_CHANNEL), those from `b` on plain memory, and
the two areas share no byte. -/
structure PlainAreas (c : Platform) (ch : Channel) (a b : Word) (n : Nat) : Prop where
  src : ∀ j, j < n → onRegister c (a + BitVec.ofNat 32 j) = false ∧ inSram c (a + BitVec.ofNat 32 j) = false ∧
    (ch.val = c.dmaRomChannel ∨ inRom c (a + BitVec.ofNat 32 j) = false)
  dst : ∀ j, j < n → onRegister c (b + BitVec.ofNat 32 j) = false ∧ inSram c (b + BitVec.ofNat 32 j) = false ∧
    inRom c (b + BitVec.ofNat 32 j) = false
  apart : ∀ j k, j < n → k < n → a + BitVec.ofNat 32 j ≠ b + BitVec.ofNat 32 k

/-- The bytes a burst of the channel moves. -/
def DmaChannel.length (d : DmaChannel) : Nat := d.width * d.cnt.toNat

theorem DmaChannel.movesPlain_of_areas {d : DmaChannel} {c : Platform} {ch : Channel} (hsm : ctrlSm d.ctrl = 0)
    (hdm : ctrlDm d.ctrl ≠ 2) (h : PlainAreas c ch d.wsrc d.wdst d.length) : d.MovesPlain c ch none where
  src _ i j hi hj := by rw [srcByte_eq hsm]; exact h.src _ (unit_offset_lt hi hj)
  dst i j hi hj := by rw [dstByte_eq hdm]; exact h.dst _ (unit_offset_lt hi hj)
  apart _ i j k l hi hj hk hl := by
    rw [srcByte_eq hsm, dstByte_eq hdm]
    exact h.apart _ _ (unit_offset_lt hi hj) (unit_offset_lt hk hl)

/-- A copy between plain areas with both addresses moving: each destination byte is the source byte at the same place,
every other byte stays. -/
theorem burst_copies_area {ch : Channel} {t : State} (hw : t.mem.wf = true) (hsm : ctrlSm t.dma[ch].ctrl = 0)
    (hdm : ctrlDm t.dma[ch].ctrl ≠ 2)
    (h : PlainAreas t.conf ch t.dma[ch].wsrc t.dma[ch].wdst t.dma[ch].length) :
    ∃ m : Memory, (burst ch none t).1 = (t.setMem m).setChannel ch t.dma[ch].afterBurst ∧
      (∀ k, k < t.dma[ch].length → Memory.read m (t.dma[ch].wdst + BitVec.ofNat 32 k).toNat =
        readByte t (t.dma[ch].wsrc + BitVec.ofNat 32 k)) ∧
      (∀ x, (∀ k, k < t.dma[ch].length → x ≠ t.dma[ch].wdst + BitVec.ofNat 32 k) →
        Memory.read m x.toNat = readByte t x) := by
  obtain ⟨m, hm, hbytes, hother⟩ := burst_plain hw (DmaChannel.movesPlain_of_areas hsm hdm h)
  refine ⟨m, hm, fun k hk => ?_, fun x hx => hother x fun i j hi hj => ?_⟩
  · obtain ⟨i, j, hi, hj, rfl⟩ := exists_unit_offset (DmaChannel.width_pos _) hk
    rw [← DmaChannel.dstByte_eq hdm, ← DmaChannel.srcByte_eq hsm]
    exact hbytes i j hi hj fun hfix => absurd hfix hdm
  · rw [DmaChannel.dstByte_eq hdm]
    exact hx _ (unit_offset_lt hi hj)

/-- Both addresses of an incrementing burst end just past the data. -/
theorem DmaChannel.afterBurst_increment {d : DmaChannel} (hsm : ctrlSm d.ctrl = 0) (hdm : ctrlDm d.ctrl ≠ 2) :
    d.afterBurst = DmaChannel.endBurst d.ctrl
      { d with wsrc := d.wsrc + BitVec.ofNat 32 d.length, wdst := d.wdst + BitVec.ofNat 32 d.length } := by
  have hlen : d.cnt * unitBytes (ctrlU32 d.ctrl) = BitVec.ofNat 32 d.length := by
    rw [length, width, BitVec.ofNat_mul, mul_comm]
    simp
  rw [afterBurst, srcStep, if_pos hsm, dstStep, if_neg hdm, hlen]

/-! ## DMA.COPY (42_dma.md R184) -/

theorem copyWord_fields (f : Bool) : ctrlU32 (copyWord f) = f ∧ ctrlSm (copyWord f) = 0 ∧ ctrlDm (copyWord f) ≠ 2 ∧
    ctrlRpt (copyWord f) = false ∧ ctrlIrq (copyWord f) = false := by
  cases f <;> decide

theorem length_copyRecord (f : Bool) (a b c : Word) :
    (copyRecord f a b c).length = (unitBytes f).toNat * (c.toNat / (unitBytes f).toNat) := by
  rw [← unitCount_toNat, DmaChannel.length, DmaChannel.width, copyRecord, (copyWord_fields f).1]

/-- The record a copy's burst leaves: disarmed, both addresses just past the last unit. -/
theorem afterBurst_copyRecord (f : Bool) (a b c : Word) : (copyRecord f a b c).afterBurst =
    ⟨disarmWord (copyWord f), unitCount f c, truncAddr f b,
      truncAddr f a + BitVec.ofNat 32 (copyRecord f a b c).length,
      truncAddr f b + BitVec.ofNat 32 (copyRecord f a b c).length⟩ := by
  obtain ⟨-, hsm, hdm, hrpt, -⟩ := copyWord_fields f
  have hstop : ¬ (ctrlRpt (copyRecord f a b c).ctrl = true ∧ ctrlTm (copyRecord f a b c).ctrl ≠ 0) := fun h =>
    Bool.false_ne_true (hrpt.symm.trans h.1)
  rw [DmaChannel.afterBurst_increment (d := copyRecord f a b c) hsm hdm, DmaChannel.endBurst, if_neg hstop]
  rfl

/-- Settles O41: the copy's burst between plain areas, in the statement's numbers. -/
theorem dmaCopyCopiesBytes : Obligations.DmaCopyCopiesBytes := by
  intro s ch f a b c hs hw ub len a' b' hcap hsrc hdst hapart
  have hcount : unitCount f c = BitVec.ofNat 32 (c.toNat / ub) := by
    rw [← (unitCount f c).setWidth_eq, ← BitVec.ofNat_toNat, unitCount_toNat, unitBytes_toNat]
  have hlen : (copyRecord f a b c).length = len := by rw [length_copyRecord, unitBytes_toNat]
  have hctrl : disarmWord (copyWord f) = if f then 0x0400 else 0x0000 := by cases f <;> rfl
  have ha' : truncAddr f a = a' := truncAddr_eq_and f a
  have hb' : truncAddr f b = b' := truncAddr_eq_and f b
  obtain ⟨-, hsm, hdm, -, -⟩ := copyWord_fields f
  have hareas : PlainAreas s.conf ch (truncAddr f a) (truncAddr f b) (copyRecord f a b c).length := by
    rw [hlen, ha', hb']
    exact ⟨hsrc, hdst, hapart⟩
  have hcopy := burst_copies_area (ch := ch) (t := s.setChannel ch (copyRecord f a b c)) hw
  rw [setChannel_same] at hcopy
  obtain ⟨m, hm, hbytes, hother⟩ := hcopy hsm hdm hareas
  rw [setChannel_setMem_setChannel, afterBurst_copyRecord, hlen, hcount, hctrl, ha', hb'] at hm
  rw [show (copyRecord f a b c).wsrc = a' from ha', show (copyRecord f a b c).wdst = b' from hb', hlen] at hbytes
  rw [show (copyRecord f a b c).wdst = b' from hb', hlen] at hother
  refine ⟨m, ?_, hbytes, hother⟩
  rw [(Effect.dmaCopy (channelOf_ofNat ch) hcap).exec_settled hs (by simp) (by rw [hm]; rfl) (by simp), hm]
  rfl

/-! ## The triggers of an edge (42_dma.md R188) -/

theorem triggerDma_afterBurst {tm : BitVec 2} {s : State} {ch : Channel} (h : s.dma[ch].armedFor tm) :
    (triggerDma tm s).1.dma[ch] = s.dma[ch].afterBurst :=
  (triggerChannels_armed tm channels channels_nodup s (mem_channels ch) h).trans (burst_afterBurst ch none s)

/-- One channel armed for the edge: its burst alone runs, and its end event alone may be due. -/
theorem triggerDma_single {tm : BitVec 2} {s : State} {ch : Channel} (ha : s.dma[ch].armedFor tm)
    (ho : ∀ other : Channel, other ≠ ch → ¬ s.dma[other].armedFor tm) :
    triggerDma tm s = ((burst ch none s).1, if ctrlIrq s.dma[ch].ctrl then [srcDmaEnd s.conf ch] else []) :=
  triggerChannels_single channels_nodup (mem_channels ch) ha ho

/-- With no channel armed for the edge nothing runs and nothing is due. -/
theorem triggerDma_none {tm : BitVec 2} {s : State} (h : ∀ ch : Channel, ¬ s.dma[ch].armedFor tm) :
    triggerDma tm s = (s, []) :=
  triggerChannels_none tm channels s fun ch _ => h ch

/-- No channel armed for the edge covers a register byte. -/
def NoRegisterCovered (tm : BitVec 2) (s : State) : Prop :=
  ∀ ch : Channel, s.dma[ch].armedFor tm → ∀ x, s.dma[ch].covers x → onRegister s.conf x = false

theorem sameRegs_triggerDma {tm : BitVec 2} {s : State} (h : NoRegisterCovered tm s) :
    SameRegs s (triggerDma tm s).1 :=
  sameRegs_triggerChannels tm channels channels_nodup fun ch _ => h ch

/-- Settles O47: the triggers take the four channels in order, and each armed one leaves its own burst's record. -/
theorem triggerRunsArmedChannels : Obligations.TriggerRunsArmedChannels := by
  intro s tm
  refine ⟨triggerChannels_state tm channels channels_nodup s, fun ch ha => ?_,
    fun ch hidle => triggerChannels_other tm channels s (.inl hidle), fun ch ha ho => by rw [triggerDma_single ha ho],
    triggerChannels_due tm channels channels_nodup s⟩
  rw [triggerDma_afterBurst ha]
  exact s.dma[ch].afterBurst_cases

/-! ## The checks of the DMA operations (42_dma.md R180, R181), and the two that move nothing (R186, R187) -/

theorem channelOf_eq_none {idx : BitVec 4} (h : 4 ≤ idx.toNat) : channelOf idx = none :=
  dif_neg (Nat.not_lt.2 h)

/-- Settles O39: each of the four operations rejects the index before it looks at another operand. -/
theorem dmaChannelChecked : Obligations.DmaChannelChecked := by
  intro s idx f cw a b c hs hidx i hi
  have hn := channelOf_eq_none hidx
  have hrej : finish s (.reject .channel) = .next (emit (.resp .channel 0) s) := rejectFrame_settled hs _
  simp only [List.mem_cons, List.not_mem_nil, or_false] at hi
  rcases hi with rfl | rfl | rfl | rfl
  · simp only [exec, execDmaCopy, hn, hrej]
  · simp only [exec, execDmaFill, hn, hrej]
  · simp only [exec, execDmaXfer, hn, hrej]
  · simp only [exec, execDmaStop, hn, hrej]

/-- Settles O40: past the channel check, the capability check comes before the control word is looked at. -/
theorem dmaCapabilityChecked : Obligations.DmaCapabilityChecked := by
  intro s idx f cw a b c hs hidx hrom hlow hhigh i hi
  have hch : channelOf idx = some ⟨idx.toNat, hidx⟩ := dif_pos hidx
  have hcap : capViolation s.conf ⟨idx.toNat, hidx⟩ a = true := by
    simp only [capViolation, inRom_iff.2 ⟨hlow, hhigh⟩, Bool.true_and, bne_iff_ne, ne_eq, hrom, not_false_eq_true]
  have hrej : finish s (.reject .capability) = .next (emit (.resp .capability 0) s) := rejectFrame_settled hs _
  simp only [List.mem_cons, List.not_mem_nil, or_false] at hi
  rcases hi with rfl | rfl
  · simp only [exec, execDmaCopy, hch, hcap, if_true, hrej]
  · simp only [exec, execDmaXfer, hch, hcap, if_true, hrej]

/-- Settles O43: the effect is the record programmed. -/
theorem dmaXferArmsDeferred : Obligations.DmaXferArmsDeferred := by
  intro s ch cw a b c hs hcap hcw htm keep
  have hkeep (x : Word) : truncAddr (ctrlU32 cw) x = x &&& keep := truncAddr_eq_and _ x
  have hrec : xferRecord cw a b c = ⟨0x8000 ||| (cw &&& 0x77E0), c, b &&& keep, a &&& keep, b &&& keep⟩ := by
    rw [xferRecord, hkeep, hkeep]; rfl
  rw [(Effect.dmaXferArm (channelOf_ofNat ch) hcap hcw htm).exec_settled hs rfl rfl rfl, hrec]
  rfl

/-- Settles O45: the effect is the record with its enable cleared. -/
theorem dmaStopDisarms : Obligations.DmaStopDisarms := fun _ ch hs =>
  (Effect.dmaStop (channelOf_ofNat ch)).exec_settled hs rfl rfl rfl

/-! ## The three operations that run a burst at once (42_dma.md R184 to R186, R191) -/

/-- A channel of immediate timing ends its burst disarmed, its count and reload address kept. -/
theorem DmaChannel.afterBurst_immediate {d : DmaChannel} (h : ctrlTm d.ctrl = 0) :
    d.afterBurst = { d with ctrl := disarmWord d.ctrl, wsrc := d.afterBurst.wsrc, wdst := d.afterBurst.wdst } := by
  rw [DmaChannel.afterBurst_once fun hr => (d.repeats_iff.1 hr).2 h]

theorem sameStored_xferEnd (p : Platform) (ch : Channel) (r : State × Bool) : SameStored r.1 (xferEnd p ch r) := by
  unfold xferEnd
  split
  · exact sameStored_dispatch _ _
  · exact ⟨rfl, rfl, rfl, rfl, rfl, rfl⟩

/-- The end event is not VBlank, so it wakes nobody. -/
theorem xferEnd_waiting {p : Platform} {r : State × Bool} (hp : r.1.conf = p) (ch : Channel) :
    (xferEnd p ch r).waiting = r.1.waiting := by
  subst hp
  unfold xferEnd
  split
  · exact dispatch_waiting_ne (srcDmaEnd_ne_srcVblank _ ch)
  · rfl

theorem xferEnd_kpLinePrev (p : Platform) (ch : Channel) (r : State × Bool) :
    (xferEnd p ch r).kpLinePrev = r.1.kpLinePrev := by
  unfold xferEnd
  split
  · exact dispatch_kpLinePrev _ _
  · rfl

/-- A pending flag once set stays set through a dispatch. -/
theorem iflag_dispatch_of_set {t : State} {k : Nat} (h : t.iflag.getLsbD k = true) (src : Source) :
    (dispatch src t).1.iflag.getLsbD k = true := by
  rw [dispatch_iflag, latch]
  split
  · rw [State.setIflag_iflag, getLsbD_setBit, h, Bool.or_true]
  · exact h

theorem iflag_respond_of_set {t : State} {k : Nat} (h : t.iflag.getLsbD k = true) (c : ResultCode) (d : Half) :
    (respond c d t).iflag.getLsbD k = true := by
  rw [respond, emit_iflag, keypadEpilogue, State.setKpLinePrev_iflag]
  split
  · exact iflag_dispatch_of_set h _
  · exact h

/-- An end-of-transfer source has no DISPSTAT enable: its line is always on. -/
theorem lineOn_srcDmaEnd (t : State) (ch : Channel) : lineOn (srcDmaEnd t.conf ch) t = true := by
  simp [lineOn, displayLinked, srcDmaEnd_ne_srcVblank, srcDmaEnd_ne_srcHblank, srcDmaEnd_ne_srcVcount]

/-- A due end event is latched. -/
theorem iflag_xferEnd_of_due {p : Platform} {r : State × Bool} (hp : r.1.conf = p) (hdue : r.2 = true) (ch : Channel) :
    (xferEnd p ch r).iflag.getLsbD (p.idxDma0 + ch.val) = true := by
  subst hp
  have hbit : (setBit r.1.iflag (srcDmaEnd r.1.conf ch)).getLsbD (srcDmaEnd r.1.conf ch).val = true := by
    rw [getLsbD_setBit, decide_eq_true rfl, Bool.true_or]
  rw [xferEnd, if_pos hdue, dispatch_iflag, latch_on (lineOn_srcDmaEnd _ ch)]
  exact hbit

theorem xferEnd_not_due {p : Platform} {ch : Channel} {r : State × Bool} (h : r.2 = false) : xferEnd p ch r = r.1 :=
  if_neg (by rw [h]; exact Bool.false_ne_true)

/-- Settles O44: the effect of each of the three is its burst and the end event due, and the frame is that of the two. -/
theorem immediateBurstFrame : Obligations.ImmediateBurstFrame := by
  intro s ch i fill d hi r u
  set b := burst ch fill (s.setChannel ch d) with hb
  have hrec : (s.setChannel ch d).dma[ch] = d := setChannel_same s ch d
  have hdue : b.2 = ctrlIrq d.ctrl := by rw [hb, burst_due, hrec]
  have hu : u = xferEnd s.conf ch b := by rw [xferEnd, hdue]; rfl
  have heffect : Effect s i 0 u ∧ ctrlTm d.ctrl = 0 := by
    rw [hu]
    rcases hi with ⟨f, x, y, n, rfl, hcap, rfl, rfl⟩ | ⟨f, x, y, n, rfl, rfl, rfl⟩ |
      ⟨cw, x, y, n, rfl, hcap, hcw, htm, rfl, rfl⟩
    · obtain ⟨-, -, -, -, hirq⟩ := copyWord_fields f
      rw [xferEnd_not_due (hdue.trans hirq)]
      exact ⟨.dmaCopy (channelOf_ofNat ch) hcap, ctrlTm_copyWord f⟩
    · have hirq : ctrlIrq (fillWord f) = false := by cases f <;> decide
      rw [xferEnd_not_due (hdue.trans hirq)]
      exact ⟨.dmaFill (channelOf_ofNat ch), ctrlTm_fillWord f⟩
    · exact ⟨.dmaXferNow (channelOf_ofNat ch) hcap hcw htm, (ctrlTm_xferWord cw).trans htm⟩
  obtain ⟨heff, htm⟩ := heffect
  have hconf : b.1.conf = s.conf := burst_conf ch fill _
  have hstored : SameStored b.1 u := hu ▸ sameStored_xferEnd s.conf ch b
  have howned : SameOwned s u := hu ▸ (sameOwned_burst s ch d fill).trans (sameOwned_xferEnd s.conf ch b)
  have hregs (h : ∀ x, d.covers x → onRegister s.conf x = false) : SameRegs s b.1 :=
    SameRegs.trans (b := s.setChannel ch d) ⟨rfl, rfl, rfl, rfl, rfl⟩ (sameRegs_burst (by rw [hrec]; exact h) fill)
  have hwaiting : u.waiting = s.waiting := by
    rw [hu, xferEnd_waiting hconf, hb, burst_waiting, State.setChannel_waiting]
  refine ⟨respond .ok 0 u, heff.exec_eq, rfl, fun hs hplain => ?_, fun x hx => ?_, fun o ho => ?_, ?_, ?_⟩
  · refine respond_settled (hs.of_eq ?_ (hstored.keycnt.trans (hregs hplain).keycnt) howned.keyinput) _ _
    rw [hu, xferEnd_kpLinePrev, hb, burst_kpLinePrev, State.setChannel_kpLinePrev]
  · rw [readByte_congr (respond_mem _ _ _), readByte_congr hstored.mem]
    exact readByte_burst_ne ch fill (s.setChannel ch d) (by rw [hrec]; exact hx)
  · rw [respond_dma, hstored.dma, hb, burst_other ho, setChannel_other _ _ ho]
  · rw [respond_dma, hstored.dma, hb, burst_afterBurst, hrec]
    exact DmaChannel.afterBurst_immediate htm
  · obtain ⟨⟨hvec, hkeys, hkeyinput, hhalted, hpending⟩, hvcount, -⟩ := howned.trans (sameOwned_respond .ok 0 u)
    refine ⟨hvec, hkeys, hvcount, hkeyinput, (respond_waiting _ _ _).trans hwaiting, hhalted, hpending, fun hplain => ?_,
      fun hirq => ?_⟩
    · have hr := hregs hplain
      rw [respond_ime, respond_ie, respond_dispstat, respond_keycnt]
      exact ⟨hstored.ime.trans hr.ime, hstored.ie.trans hr.ie, hstored.dispstat.trans hr.dispstat,
        hstored.keycnt.trans hr.keycnt⟩
    · rw [hu]
      exact iflag_respond_of_set (iflag_xferEnd_of_due hconf (hdue.trans hirq) ch) _ _

/-! ## The new scanline (45_system_and_timing.md R260, 60_exceptions.md R293) -/

/-- A line other than LINES_VISIBLE can raise VCount alone. -/
theorem startLine_off {s : State} {g : Byte} (hg : g = nextLine s.conf s.vcount) (h : g.toNat ≠ s.conf.linesVisible) :
    startLine s = if g = s.dispstat.vcTgt then (dispatch (srcVcount s.conf) (s.setVcount g)).1 else s.setVcount g := by
  rw [startLine_eq hg (if_neg h).symm]
  rfl

/-- The start of VBlank, where no burst reaches DISPSTAT, so that the target is the one the line began with. -/
theorem startLine_on {s : State} {g : Byte} (hg : g = nextLine s.conf s.vcount) (h : g.toNat = s.conf.linesVisible)
    (hplain : NoRegisterCovered 1 s) {r : State × List Source} (hr : r = triggerDma 1 (s.setVcount g)) {v : State}
    (hv : v = (dispatch (srcVblank s.conf) r.1).1) :
    startLine s = dispatchAll r.2 (if g = s.dispstat.vcTgt then (dispatch (srcVcount s.conf) v).1 else v) := by
  have hregs : SameRegs (s.setVcount g) (triggerDma 1 (s.setVcount g)).1 := sameRegs_triggerDma hplain
  rw [startLine_eq hg (if_pos h).symm, ← hr, ← hv]
  have htgt : v.dispstat = s.dispstat := by rw [hv, dispatch_dispstat, hr, hregs.dispstat, State.setVcount_dispstat]
  rw [htgt]

/-- A new line that leaves KEYCNT is followed by its response alone. -/
theorem exec_evtLine_settled {s : State} (hs : KeypadSettled s) (hk : (startLine s).keycnt = s.keycnt) :
    exec .evtLine s = .next (emit (.resp .ok 0) (startLine s)) := by
  refine Effect.evtLine.exec_settled hs ?_ hk (sameBeyondEvents_startLine s).keyinput
  unfold startLine vcountMatch vblankStart
  dsimp only
  rw [dispatchAll_kpLinePrev]
  split <;> split <;> simp

theorem startLine_keycnt_off {s : State} (h : (nextLine s.conf s.vcount).toNat ≠ s.conf.linesVisible) :
    (startLine s).keycnt = s.keycnt :=
  (sameStored_startLine_off (by rw [← nextLine_toNat]; exact h)).keycnt

theorem startLine_keycnt_plain {s : State} (h : NoRegisterCovered 1 s) : (startLine s).keycnt = s.keycnt := by
  rw [(sameStored_startLine s).keycnt]
  unfold vblankStart
  split
  · rw [dispatch_keycnt]
    exact (sameRegs_triggerDma (s := s.setVcount (nextLine s.conf s.vcount)) h).keycnt
  · rfl

/-- The record an incrementing channel of deferred timing ends its burst with. -/
theorem DmaChannel.afterBurst_deferred {d : DmaChannel} (htm : ctrlTm d.ctrl ≠ 0) (hsm : ctrlSm d.ctrl = 0)
    (hdm : ctrlDm d.ctrl ≠ 2) : d.afterBurst = { d with
      ctrl := if d.ctrl.getLsbD 9 then d.ctrl else d.ctrl &&& 0x7FFF
      wsrc := d.wsrc + BitVec.ofNat 32 d.length
      wdst := if d.ctrl.getLsbD 9 = true ∧ d.ctrl &&& 0x0060 = 0x0060 then d.dad
              else d.wdst + BitVec.ofNat 32 d.length } := by
  rw [afterBurst_increment hsm hdm, endBurst, ctrlRpt]
  by_cases hrpt : d.ctrl.getLsbD 9 = true
  · by_cases hreload : d.ctrl &&& 0x0060 = 0x0060
    · simp only [ctrlDm_reload_iff, hrpt, hreload, htm, ne_eq, not_false_eq_true, and_self, if_true]
    · simp only [ctrlDm_reload_iff, hrpt, hreload, htm, ne_eq, not_false_eq_true, and_self, and_false, if_true, if_false]
  · simp only [hrpt, false_and, Bool.false_eq_true, if_false, disarmWord]

/-- The bytes a channel with a moving destination covers are those its burst moves. -/
theorem DmaChannel.covers_length {d : DmaChannel} (hdm : ctrlDm d.ctrl ≠ 2) {x : Word} (h : d.covers x) :
    ∃ j, j < d.length ∧ x = d.wdst + BitVec.ofNat 32 j := by
  obtain ⟨j, hj, hx⟩ := h
  rw [span, if_neg hdm] at hj
  exact ⟨j, hj, hx⟩

/-- Settles O49: the order of the events is the body's; with one channel armed its burst is a copy between two areas. -/
theorem evtLineRaisesEvents : Obligations.EvtLineRaisesEvents := by
  intro s g hs hg
  have hline : g = nextLine s.conf s.vcount := BitVec.eq_of_toNat_eq (hg.trans (nextLine_toNat _ _).symm)
  have hoff (h : g.toNat ≠ s.conf.linesVisible) := exec_evtLine_settled hs (startLine_keycnt_off (hline ▸ h))
  have hon (h : NoRegisterCovered 1 s) := exec_evtLine_settled hs (startLine_keycnt_plain h)
  refine ⟨fun hn htgt => ?_, fun hn htgt => ?_, fun hv hplain => ?_, fun hv hidle => ?_, ?_⟩
  · rw [hoff hn, startLine_off hline hn, if_neg htgt]
    rfl
  · rw [hoff hn, startLine_off hline hn, if_pos htgt]
    rfl
  · rw [hon hplain, startLine_on hline hv hplain rfl rfl]
    exact ⟨fun htgt => by rw [if_neg htgt]; rfl, fun htgt => by rw [if_pos htgt]; rfl⟩
  · have hnone : (s.setVcount g, []) = triggerDma 1 (s.setVcount g) := (triggerDma_none (s := s.setVcount g) hidle).symm
    have hplain : NoRegisterCovered 1 s := fun ch ha => absurd ha (hidle ch)
    rw [hon hplain, startLine_on hline hv hplain hnone rfl]
    exact ⟨fun htgt => by rw [if_neg htgt]; rfl, fun htgt => by rw [if_pos htgt]; rfl⟩
  · intro ch hv htgt hw harmed hothers d len hsrcMode hdstMode hsrc hdst hapart
    have hsm : ctrlSm d.ctrl = 0 := (ctrlSm_increment_iff _).2 hsrcMode
    have hdm : ctrlDm d.ctrl ≠ 2 := mt (ctrlDm_fixed_iff _).1 hdstMode
    have htm : ctrlTm d.ctrl ≠ 0 := by rw [harmed.2]; decide
    have hlen : d.length = len := by rw [DmaChannel.length, DmaChannel.width, unitBytes_toNat]; rfl
    obtain ⟨m, hm, hbytes, hother⟩ := burst_copies_area (ch := ch) (t := s.setVcount g) hw hsm hdm
      ⟨hlen ▸ hsrc, hlen ▸ hdst, hlen ▸ hapart⟩
    have hplain : NoRegisterCovered 1 s := by
      intro o ho x hx
      obtain rfl : o = ch := by_contra fun hne => hothers o hne ho
      obtain ⟨j, hj, rfl⟩ := DmaChannel.covers_length hdm hx
      exact (hdst j (hlen ▸ hj)).1
    have hrec := DmaChannel.afterBurst_deferred htm hsm hdm
    rw [hlen] at hrec
    refine ⟨m, ?_, hlen ▸ hbytes, hlen ▸ hother⟩
    rw [hon hplain, startLine_on hline hv hplain (triggerDma_single (s := s.setVcount g) harmed hothers).symm rfl,
      if_neg htgt, hm.trans (congrArg _ hrec)]
    rfl

/-! ## The horizontal blank (42_dma.md R189, 45_system_and_timing.md R261) -/

theorem hblankBursts_eq (s : State) :
    hblankBursts s = if s.vcount.toNat < s.conf.linesVisible then triggerDma 2 s else (s, []) := by
  unfold hblankBursts inVblank
  by_cases h : s.vcount.toNat < s.conf.linesVisible
  · rw [if_pos h, if_neg (by simpa using h)]
  · rw [if_neg h, if_pos (by simpa using h)]

theorem startHblank_kpLinePrev (s : State) : (startHblank s).kpLinePrev = s.kpLinePrev := by
  rw [startHblank, hblankBursts_eq]
  split <;> simp

/-- A horizontal blank that leaves KEYCNT is followed by its response alone. -/
theorem exec_evtHbl_settled {s : State} (hs : KeypadSettled s) (hk : (hblankBursts s).1.keycnt = s.keycnt) :
    exec .evtHbl s = .next (emit (.resp .ok 0) (startHblank s)) :=
  Effect.evtHbl.exec_settled hs (startHblank_kpLinePrev s) (by rw [startHblank, dispatchAll_keycnt, dispatch_keycnt, hk])
    (sameOwned_startHblank s).keyinput

/-- Past its bursts a horizontal blank stores nothing. -/
theorem sameStored_startHblank (s : State) : SameStored (hblankBursts s).1 (startHblank s) :=
  (sameStored_dispatch _ _).trans (sameStored_dispatchAll _ _)

/-- Settles O50: the bursts behind the gate, HBlank, the end events; the bursts alone store. -/
theorem evtHblFrame : Obligations.EvtHblFrame := by
  intro s
  obtain ⟨⟨hvec, hkeys, hkeyinput, hhalted, hpending⟩, hvcount, -⟩ :=
    (sameOwned_startHblank s).trans (sameOwned_respond .ok 0 _)
  have hstored := sameStored_startHblank s
  refine ⟨respond .ok 0 (startHblank s), rfl, ?_, fun hs hline hplain => ?_, hvcount, hvec, hkeys, hkeyinput, hhalted,
    hpending, fun ch hidle => ?_, fun x hx => ?_⟩
  · intro r
    rw [startHblank, hblankBursts_eq]
  · have hbursts : hblankBursts s = triggerDma 2 s := by rw [hblankBursts_eq, if_pos hline]
    rw [exec_evtHbl_settled hs (by rw [hbursts]; exact (sameRegs_triggerDma hplain).keycnt), startHblank, hbursts]
  · rw [respond_dma, hstored.dma, hblankBursts_eq]
    split
    · exact triggerChannels_other 2 channels s (.inl hidle)
    · rfl
  · rw [readByte_congr (respond_mem _ _ _), readByte_congr hstored.mem, hblankBursts_eq]
    split
    · exact readByte_triggerChannels_ne 2 channels channels_nodup s fun ch _ => hx ch
    · rfl

/-- Settles O51: behind the gate, or with no channel armed, the bursts are none. -/
theorem hblankGatedInVblank : Obligations.HblankGatedInVblank := by
  intro s hs hgate
  have hbursts : hblankBursts s = (s, []) := by
    rw [hblankBursts_eq]
    rcases hgate with hline | hidle
    · exact if_neg (Nat.not_lt.2 hline)
    · rw [triggerDma_none hidle, ite_self]
  rw [exec_evtHbl_settled hs (by rw [hbursts]), startHblank, hbursts]
  rfl
end Sys2Proof.Machine
end

section
/-! SUPPORT and PROOFS. The storage family: the bounds check and what a storage operation answers in and out of bounds, the
bytes of the storage region, and the copy that every later read of the same bytes brings back. -/

namespace Sys2Proof.Machine

/-! ## The bounds check (43_storage.md R220) -/

theorem boundsCheck_size {p : Platform} {g n : Word} (hsize : p.sramSize < n.toNat) :
    boundsCheck p g n = some .sramSize := by
  rw [boundsCheck, if_pos hsize]

theorem boundsCheck_start {p : Platform} {g n : Word} (hsize : n.toNat ≤ p.sramSize) (hstart : g.toNat < p.sramBase) :
    boundsCheck p g n = some .sramStart := by
  rw [boundsCheck, if_neg (Nat.not_lt.2 hsize), if_pos hstart]

theorem boundsCheck_end {p : Platform} {g n : Word} (hsize : n.toNat ≤ p.sramSize) (hstart : p.sramBase ≤ g.toNat)
    (hend : p.sramBase + p.sramSize < g.toNat + n.toNat) : boundsCheck p g n = some .sramEnd := by
  rw [boundsCheck, if_neg (Nat.not_lt.2 hsize), if_neg (Nat.not_lt.2 hstart), if_pos hend]

/-- An area that passes the check lies in the storage region as a whole. -/
theorem area_of_boundsCheck_none {p : Platform} {g n : Word} (h : boundsCheck p g n = none) :
    p.sramBase ≤ g.toNat ∧ g.toNat + n.toNat ≤ p.sramBase + p.sramSize := by
  unfold boundsCheck at h
  split_ifs at h
  omega

/-! ## The bytes of the storage region -/

theorem inSram_of_boundsCheck_none {p : Platform} {g n : Word} (h : boundsCheck p g n = none) {k : Nat}
    (hk : k < n.toNat) : inSram p (g + BitVec.ofNat 32 k) = true := by
  obtain ⟨hstart, hend⟩ := area_of_boundsCheck_none h
  have hspace := sramEnd_le p
  rw [inSram_iff, BitVec.toNat_add, BitVec.toNat_ofNat]
  omega

theorem inRom_of_inSram {p : Platform} {x : Word} (h : inSram p x = true) : inRom p x = false := by
  rw [← Bool.not_eq_true]
  intro hrom
  simp [inSram_of_inRom hrom] at h

/-- The region holds no register, and as it begins at an even address no second byte of one. -/
theorem onRegister_of_inSram {p : Platform} {x : Word} (h : inSram p x = true) : onRegister p x = false := by
  have hfirst : regAt p x = none := by
    by_contra hne
    obtain ⟨r, hr⟩ := Option.ne_none_iff_exists'.1 hne
    obtain ⟨-, -, hoff⟩ := regAt_place hr
    simp [hoff] at h
  have hsecond : regAt p (x - 1) = none := by
    by_contra hne
    obtain ⟨r, hr⟩ := Option.ne_none_iff_exists'.1 hne
    obtain ⟨heven, -, hoff⟩ := regAt_place hr
    rw [← Bool.not_eq_true, inSram_iff] at hoff
    rw [inSram_iff] at h
    have hbase := sramBase_mod p
    bv_omega
  rw [onRegister, hfirst, hsecond]
  rfl

/-! ## What a storage operation answers

`i` is SRAM.WR or SRAM.RD of `c` bytes from `b` to `a`, and `g` is its storage side. -/

/-- `t` is `s` with the `n` bytes from `b` on copied to `a`, ready for a further frame. -/
structure AreaCopied (a b : Word) (n : Nat) (s t : State) : Prop where
  settled : KeypadSettled t
  conf : t.conf = s.conf
  wf : t.mem.wf = true
  copied : ∀ k, k < n → readByte t (a + BitVec.ofNat 32 k) = readByte s (b + BitVec.ofNat 32 k)
  other : ∀ x, (∀ k, k < n → x ≠ a + BitVec.ofNat 32 k) → readByte t x = readByte s x

section
variable {s : State} {a b c g : Word} {i : Instr} (hi : (i = .sramWr a b c ∧ g = a) ∨ (i = .sramRd a b c ∧ g = b))
include hi

theorem exec_storage : exec i s = finish s (storageBody g a b c s) := by
  rcases hi with ⟨rfl, rfl⟩ | ⟨rfl, rfl⟩ <;> rfl

/-- Out of bounds it answers the check's code and nothing else happens. -/
theorem exec_storage_outOfBounds (hs : KeypadSettled s) {code : ResultCode} (hb : boundsCheck s.conf g c = some code) :
    exec i s = .next (emit (.resp code 0) s) := by
  rw [exec_storage hi, storageBody, hb]
  exact rejectFrame_settled hs code

/-- In bounds it completes with its copy. -/
theorem exec_storage_copied (hs : KeypadSettled s) (hb : boundsCheck s.conf g c = none) {u : State}
    (hu : copyBytes c.toNat a b s = some u) : exec i s = .next (emit (.resp .ok 0) (s.setMem u.mem)) := by
  have hmem : u = s.setMem u.mem := copyBytes_eq _ hu
  have hset : KeypadSettled u := by rw [hmem]; exact hs.of_eq rfl rfl rfl
  rw [exec_storage hi, storageBody, hb, hu, ← hmem]
  exact congrArg Host.Outcome.next (respond_settled hset .ok 0)

/-- In bounds with no copy to make it is refused. -/
theorem exec_storage_refused (hb : boundsCheck s.conf g c = none) (hu : copyBytes c.toNat a b s = none) :
    exec i s = .refused .registerByteAccess := by
  rw [exec_storage hi, storageBody, hb, hu]
  rfl

/-- In bounds, between two areas that share no byte, off the registers and with the destination out of mass storage, a
storage operation copies the one to the other. -/
theorem exec_storage_areaCopied (hs : KeypadSettled s) (hw : s.mem.wf = true) (hb : boundsCheck s.conf g c = none)
    (hsrc : ∀ k, k < c.toNat → onRegister s.conf (b + BitVec.ofNat 32 k) = false)
    (hdst : ∀ k, k < c.toNat → onRegister s.conf (a + BitVec.ofNat 32 k) = false)
    (hrom : ∀ k, k < c.toNat → inRom s.conf (a + BitVec.ofNat 32 k) = false)
    (hapart : ∀ j k, j < c.toNat → k < c.toNat → b + BitVec.ofNat 32 j ≠ a + BitVec.ofNat 32 k) :
    ∃ t, exec i s = .next t ∧ AreaCopied a b c.toNat s t := by
  obtain ⟨u, hu⟩ := Option.isSome_iff_exists.1
    ((copyBytes_isSome_iff c.toNat a b s).2 fun k hk => ⟨hsrc k hk, hdst k hk⟩)
  have hwf : u.mem.wf = true := copyBytes_wf _ hw hu
  refine ⟨_, exec_storage_copied hi hs hb hu, hs.of_eq rfl rfl rfl, rfl, hwf, fun k hk => ?_,
    fun x hx => (copyBytes_read_ne _ hu hx : readByte u x = readByte s x)⟩
  have hread := copyBytes_read _ (Nat.le_of_lt c.isLt) hw hu hapart k hk
  rwa [hrom k hk] at hread

end

/-- Settles O53: the first comparison that fails names the code; past all three the copy alone decides. -/
theorem storageBoundsChecked : Obligations.StorageBoundsChecked := by
  intro s a b c hs i g hi
  refine ⟨fun hsize => ?_, fun hsize hstart => ?_, fun hsize hstart hend => ?_, fun hsize hstart hend => ?_⟩
  · exact exec_storage_outOfBounds hi hs (boundsCheck_size hsize)
  · exact exec_storage_outOfBounds hi hs (boundsCheck_start hsize hstart)
  · exact exec_storage_outOfBounds hi hs (boundsCheck_end hsize hstart hend)
  · have hb := boundsCheck_none hsize hstart hend
    cases hu : copyBytes c.toNat a b s with
    | none => exact .inl (exec_storage_refused hi hb hu)
    | some u => exact .inr ⟨u.mem, exec_storage_copied hi hs hb hu⟩

/-! ## The round trip (43_storage.md R226) -/

/-- Settles O55: two copies, and the storage region has no register and no mass storage; the second leaves what the first
stored. -/
theorem storageRoundTrip : Obligations.StorageRoundTrip := by
  intro s src dst back n hs hw hb hplain hapart
  have hdst : ∀ k, k < n.toNat → inSram s.conf (dst + BitVec.ofNat 32 k) = true :=
    fun _ => inSram_of_boundsCheck_none hb
  obtain ⟨t, ht, hout⟩ := exec_storage_areaCopied (.inl ⟨rfl, rfl⟩) hs hw hb (fun k hk => (hplain k hk).1)
    (fun k hk => onRegister_of_inSram (hdst k hk)) (fun k hk => inRom_of_inSram (hdst k hk))
    fun j k hj hk => (hapart j k hj hk).1
  rw [← hout.conf] at hb hplain hdst
  obtain ⟨u, hu, hin⟩ := exec_storage_areaCopied (.inr ⟨rfl, rfl⟩) hout.settled hout.wf hb
    (fun k hk => onRegister_of_inSram (hdst k hk)) (fun k hk => (hplain k hk).2.1) (fun k hk => (hplain k hk).2.2)
    fun j k hj hk => (hapart j k hj hk).2.1
  refine ⟨t, u, ht, hu, fun k hk => ⟨?_, ?_⟩⟩
  · exact (hin.copied k hk).trans (hout.copied k hk)
  · exact (hin.other _ fun j hj => (hapart k j hk hj).2.1).trans (hout.copied k hk)

end Sys2Proof.Machine
end

section
/-! SUPPORT and PROOFS. The register port family: the address of each register, what REG.RD and REG.WR answer at a register
and at any other address, and the fields of DISPSTAT as a read gives them. -/

namespace Sys2Proof.Machine

/-! ## The register at an address (44_register_port.md R240) -/

/-- The address of a register, R240 read from the register's side. -/
def Reg.address (c : Platform) : Reg → Nat
  | .dispstat => c.addrDispstat
  | .vcount => c.addrVcount
  | .dmaCnt 0 => c.addrDma0cnt
  | .dmaCnt 1 => c.addrDma1cnt
  | .dmaCnt 2 => c.addrDma2cnt
  | .dmaCnt 3 => c.addrDma3cnt
  | .keyinput => c.addrKeyinput
  | .keycnt => c.addrKeycnt
  | .ie => c.addrIe
  | .iflag => c.addrIf
  | .ime => c.addrIme

theorem address_mem_registerMap (c : Platform) (r : Reg) : (r.address c, r) ∈ registerMap c := by
  cases r with
  | dmaCnt ch => fin_cases ch <;> simp [registerMap, Reg.address]
  | _ => simp [registerMap, Reg.address]

theorem regAt_address {c : Platform} {a : Word} {r : Reg} (h : a.toNat = r.address c) : regAt c a = some r :=
  regAt_of_mem (h ▸ address_mem_registerMap c r)

/-! ## What a register reads as and a write changes (44_register_port.md R241, R242) -/

/-- The stored fields of DISPSTAT stand at their bits, whatever the draw. -/
theorem dispstatWord_fields (d : Dispstat) (free : Word) :
    (dispstatWord d free).getLsbD 3 = d.vblEn ∧ (dispstatWord d free).getLsbD 4 = d.hblEn ∧
      (dispstatWord d free).getLsbD 5 = d.vcEn ∧ (dispstatWord d free).extractLsb' 8 8 = d.vcTgt := by
  simp only [dispstatWord, BitVec.getLsbD_append]
  refine ⟨by simp, by simp, by simp, ?_⟩
  iterate 5 rw [BitVec.extractLsb'_append_eq_of_le (by decide)]
  exact BitVec.extractLsb'_eq_self

theorem setWidth_ofBool (b : Bool) : (BitVec.ofBool b).setWidth 16 = if b then 1#16 else 0#16 := by
  cases b <;> rfl

/-- Only a write to KEYCNT itself changes KEYCNT. -/
theorem regWrite_keycnt_of_ne {r : Reg} (hr : r ≠ .keycnt) (d : Half) (t : State) :
    (regWrite r d t).keycnt = t.keycnt := by
  cases r with
  | keycnt => exact absurd rfl hr
  | _ => rfl

/-! ## What the two operations answer (44_register_port.md R243, R244)

`s` is a settled state and `a` the address of the operation. -/

section

variable {s : State} {a : Word}

/-- REG.RD at a register: its value, and the state its read leaves. -/
theorem exec_regRd (hs : KeypadSettled s) (r : Reg) (h : a.toNat = r.address s.conf) :
    exec (.regRd a) s = .next (emit (.resp .ok (regRead r s).1) (regRead r s).2) :=
  (Effect.regRd (regAt_address h)).exec_settled hs (regRead_kpLinePrev r s) (regRead_keycnt r s) (regRead_keyinput r s)

theorem exec_regRd_outside (hs : KeypadSettled s) (h : a.toNat ∉ s.conf.registerAddresses) :
    exec (.regRd a) s = .next (emit (.resp .access 0) s) := by
  rw [exec, execRegRd, regAt_none h]
  exact rejectFrame_settled hs .access

/-- REG.WR at a writable register other than KEYCNT: the state its write leaves. -/
theorem exec_regWr (hs : KeypadSettled s) (d : Half) (r : Reg) (h : a.toNat = r.address s.conf)
    (hw : r.readOnly = false) (hr : r ≠ .keycnt) :
    exec (.regWr d a) s = .next (emit (.resp .ok 0) (regWrite r d s)) :=
  (Effect.regWr (regAt_address h) hw).exec_settled hs (regWrite_kpLinePrev r d s) (regWrite_keycnt_of_ne hr d s)
    (regWrite_keyinput r d s)

theorem exec_regWr_readOnly (hs : KeypadSettled s) (d : Half) (r : Reg) (h : a.toNat = r.address s.conf)
    (hw : r.readOnly = true) : exec (.regWr d a) s = .next (emit (.resp .access 0) s) := by
  simp only [exec, execRegWr, regAt_address h, hw, if_true]
  exact rejectFrame_settled hs .access

theorem exec_regWr_outside (hs : KeypadSettled s) (d : Half) (h : a.toNat ∉ s.conf.registerAddresses) :
    exec (.regWr d a) s = .next (emit (.resp .access 0) s) := by
  rw [exec, execRegWr, regAt_none h]
  exact rejectFrame_settled hs .access

end

/-- Settles O56: at a register's address the answer is the register's read, whose value is the clause's. -/
theorem regRdAnswers : Obligations.RegRdAnswers := by
  intro s a hs
  refine ⟨exec_regRd hs .vcount, exec_regRd hs (.dmaCnt 0), exec_regRd hs (.dmaCnt 1), exec_regRd hs (.dmaCnt 2),
    exec_regRd hs (.dmaCnt 3), exec_regRd hs .keyinput, exec_regRd hs .keycnt, exec_regRd hs .ie, exec_regRd hs .iflag,
    fun h => ?ime, fun h => ?dispstat, exec_regRd_outside hs⟩
  case ime =>
    rw [exec_regRd hs .ime h, regRead, setWidth_ofBool]
    rfl
  case dispstat => exact ⟨_, exec_regRd hs .dispstat h, dispstatWord_fields s.dispstat _⟩

/-- Settles O57: at a writable register the answer is the register's write; the read-only ones are rejected one by one. -/
theorem regWrWrites : Obligations.RegWrWrites := by
  intro s d a hs
  refine ⟨fun h => exec_regWr hs d .dispstat h rfl nofun, fun h => exec_regWr hs d .ie h rfl nofun,
    fun h => exec_regWr hs d .iflag h rfl nofun, fun h => exec_regWr hs d .ime h rfl nofun, fun h => ?readOnly,
    exec_regWr_outside hs d⟩
  case readOnly =>
    simp only [List.mem_cons, List.not_mem_nil, or_false] at h
    rcases h with h | h | h | h | h | h
    · exact exec_regWr_readOnly hs d .vcount h rfl
    · exact exec_regWr_readOnly hs d (.dmaCnt 0) h rfl
    · exact exec_regWr_readOnly hs d (.dmaCnt 1) h rfl
    · exact exec_regWr_readOnly hs d (.dmaCnt 2) h rfl
    · exact exec_regWr_readOnly hs d (.dmaCnt 3) h rfl
    · exact exec_regWr_readOnly hs d .keyinput h rfl

end Sys2Proof.Machine
end

section
/-! SUPPORT and PROOFS. The family of the frame wait and the fatal halt: what the two silent operations leave on a settled
state, how a wait ends, the hold of the APP port, and that a halted block stays quiet. -/

namespace Sys2Proof.Machine

/-! ## The two silent operations (45_system_and_timing.md R262, R263) -/

/-- Settles O59: suspending leaves what the keypad line is read from, so the epilogue does nothing. -/
theorem sysWaitvblSuspends : Obligations.SysWaitvblSuspends := fun s hs =>
  congrArg Host.Outcome.next (keypadEpilogue_settled (t := s.setWaiting true) (hs.of_eq rfl rfl rfl))

theorem setBit_zero (src : Source) : setBit 0 src = 1#16 <<< src.val := BitVec.zero_or

theorem fatalState_settled {s : State} (hs : KeypadSettled s) : KeypadSettled (fatalState s) := hs.of_eq rfl rfl rfl

/-- The fatal policy as one record. -/
theorem fatalState_eq (s : State) : fatalState s = { s with
    ime := true, dma := (disarmAll s).dma, vec := Vector.replicate _ none, ie := 1#16 <<< s.conf.idxVblank,
    dispstat := ⟨true, false, false, s.dispstat.vcTgt⟩, waiting := false, halted := true } := by
  have hie : setBit 0 (srcVblank s.conf) = 1#16 <<< s.conf.idxVblank := setBit_zero _
  rw [← hie]
  rfl

theorem disarmAll_channel (s : State) (ch : Channel) :
    (disarmAll s).dma[ch] = { s.dma[ch] with ctrl := disarmWord s.dma[ch].ctrl } := by
  simp [disarmAll]

/-- Settles O60: the state after SYS.FATAL is the policy's, which the epilogue leaves. -/
theorem sysFatalHalts : Obligations.SysFatalHalts := by
  intro s hs
  refine ⟨(disarmAll s).dma, Vector.replicate _ none, disarmAll_channel s, fun src => by simp, ?_⟩
  rw [← fatalState_eq]
  exact congrArg Host.Outcome.next (keypadEpilogue_settled (fatalState_settled hs))

/-! ## How a wait ends (60_exceptions.md R299) -/

/-- Settles O13: the epilogue and a response leave `waiting`, and an effect that clears it appends a WAKE. -/
theorem waitEndsByWakeOrFatal : Obligations.WaitEndsByWakeOrFatal := by
  intro i s t h hs ht
  rcases exec_cases h with ⟨-, -, c, -, rfl⟩ | ⟨-, -, d, u, hu, rfl⟩ | ⟨-, rfl⟩ | ⟨hi, -⟩
  · rw [respond_waiting, hs] at ht
    cases ht
  · rw [respond_waiting] at ht
    obtain ⟨rs, ho, -, hwake⟩ := hu.grows
    obtain ⟨rs', ho', -⟩ := respond_out .ok d u
    refine .inr ⟨rs ++ (rs' ++ [.resp .ok d]), ?_, List.mem_append_left _ (hwake hs ht)⟩
    simp only [ho', ho, List.append_assoc]
  · rw [keypadEpilogue_waiting, State.setWaiting_waiting] at ht
    cases ht
  · exact .inl hi

/-! ## The hold of the APP port (45_system_and_timing.md R264) -/

theorem appHeld_iff {s : State} : appHeld s = true ↔ s.waiting = true ∧ s.inService = 0 := by
  simp [appHeld]

theorem appHeld_eq_false_iff {s : State} : appHeld s = false ↔ s.waiting = false ∨ s.inService ≠ 0 := by
  simp [appHeld, imp_iff_not_or]

/-- Inputs that are all held are passed by the first one that is not, and keep their places. -/
theorem takeInput_held_append {xs : List Input} (hxs : ∀ x ∈ xs, x.fromApp = true) {y : Input} (hy : y.fromApp = false)
    (ys : List Input) : takeInput true (xs ++ y :: ys) = some (y, xs ++ ys) := by
  induction xs with
  | nil => exact takeInput_pass y ys hy true
  | cons x rest ih =>
    obtain ⟨hx, hrest⟩ := List.forall_mem_cons.1 hxs
    simp only [List.cons_append, takeInput, hx, ih hrest, Bool.and_self, if_true]

/-- Of inputs that are all held none is accepted. -/
theorem takeInput_held_none {xs : List Input} (hxs : ∀ x ∈ xs, x.fromApp = true) : takeInput true xs = none := by
  induction xs with
  | nil => rfl
  | cons x rest ih =>
    obtain ⟨hx, hrest⟩ := List.forall_mem_cons.1 hxs
    simp only [takeInput, hx, ih hrest, Bool.and_self, if_true]

/-- With nothing to accept a block that is not halted stays as it is. -/
theorem step_idle {s : State} (h : takeInput (appHeld s) s.pending = none) (hh : s.halted = false) :
    step s = .next s := by
  simp only [step, stepInput, h, idle, hh, Bool.false_eq_true, if_false]

/-- Settles O6: which input a step accepts, with the port held and with it free. -/
theorem appPortHeldWhileWaiting : Obligations.AppPortHeldWhileWaiting := by
  intro s xs ys fr hxs
  have hApp : ∀ x ∈ xs, x.fromApp = true := by
    intro x hx
    obtain ⟨f, rfl⟩ := hxs x hx
    rfl
  refine ⟨fun hw hi hp => ?_, fun hw hi hh hp => ?_, fun who hfree hp => ?_⟩
  · refine step_frame ?_
    rw [appHeld_iff.2 ⟨hw, hi⟩, hp]
    exact takeInput_held_append hApp rfl ys
  · refine step_idle ?_ hh
    rw [appHeld_iff.2 ⟨hw, hi⟩, hp]
    exact takeInput_held_none hApp
  · refine step_frame ?_
    rw [appHeld_eq_false_iff.2 hfree, hp]
    exact takeInput_free _ ys

/-! ## The quiet of a halted block (60_exceptions.md R300) -/

/-- What `HaltedQuiet` asks of a halted state: no handler installed, nobody waiting, no channel armed. -/
structure Quiet (s : State) : Prop where
  vec : ∀ src : Source, s.vec[src] = none
  waiting : s.waiting = false
  disarmed : ∀ ch : Channel, ctrlEn s.dma[ch].ctrl = false

theorem quiet_iff {s : State} : Quiet s ↔
    (∀ src : Source, s.vec[src] = none) ∧ s.waiting = false ∧ ∀ ch : Channel, ctrlEn s.dma[ch].ctrl = false :=
  ⟨fun ⟨hvec, hwait, hdma⟩ => ⟨hvec, hwait, hdma⟩, fun ⟨hvec, hwait, hdma⟩ => ⟨hvec, hwait, hdma⟩⟩

theorem haltedQuiet_iff {s : State} : HaltedQuiet s ↔ (s.halted = true → Quiet s) :=
  imp_congr_right fun _ => quiet_iff.symm

theorem Quiet.of_eq {t u : State} (h : Quiet t) (hv : u.vec = t.vec) (hw : u.waiting = t.waiting) (hd : u.dma = t.dma) :
    Quiet u :=
  ⟨by rw [hv]; exact h.vec, hw.trans h.waiting, by rw [hd]; exact h.disarmed⟩

theorem Quiet.not_armedFor {t : State} (h : Quiet t) (tm : BitVec 2) (ch : Channel) : ¬ t.dma[ch].armedFor tm :=
  fun ⟨hen, _⟩ => Bool.false_ne_true ((h.disarmed ch).symm.trans hen)

theorem wakeIfWaiting_nobody {s : Source} {t : State} (h : t.waiting = false) : wakeIfWaiting s t = t :=
  wakeIfWaiting_off fun ⟨_, hw⟩ => Bool.false_ne_true (h.symm.trans hw)

/-- An event finds no handler to invoke and nobody to wake: at most its flag is latched. -/
theorem Quiet.dispatch_eq {t : State} (h : Quiet t) (s : Source) : dispatch s t = (latch s t, false) := by
  rcases dispatch_cases s t with ⟨-, he⟩ | ⟨-, a, ha, -⟩ | ⟨-, -, he⟩
  · exact he
  · rw [h.vec s] at ha
    cases ha
  · rw [he, wakeIfWaiting_nobody (by simpa using h.waiting)]

theorem Quiet.dispatch {t : State} (h : Quiet t) (s : Source) : Quiet (dispatch s t).1 := by
  rw [h.dispatch_eq s]
  exact h.of_eq (latch_vec s t) (latch_waiting s t) (latch_dma s t)

theorem Quiet.dispatchAll {t : State} (h : Quiet t) (l : List Source) : Quiet (dispatchAll l t) := by
  induction l generalizing t with
  | nil => exact h
  | cons s rest ih => exact ih (h.dispatch s)

theorem Quiet.triggerDma_eq {t : State} (h : Quiet t) (tm : BitVec 2) : triggerDma tm t = (t, []) :=
  triggerDma_none (h.not_armedFor tm)

theorem Quiet.vblankStart {t : State} (h : Quiet t) : Quiet (vblankStart t).1 := by
  unfold Machine.vblankStart
  split
  · rw [h.triggerDma_eq 1]
    exact h.dispatch _
  · exact h

theorem Quiet.vcountMatch {t : State} (h : Quiet t) : Quiet (vcountMatch t) := by
  unfold Machine.vcountMatch
  split
  · exact h.dispatch _
  · exact h

theorem Quiet.startLine {t : State} (h : Quiet t) : Quiet (startLine t) :=
  have hline : Quiet (t.setVcount (nextLine t.conf t.vcount)) := h.of_eq rfl rfl rfl
  hline.vblankStart.vcountMatch.dispatchAll _

theorem Quiet.hblankBursts_eq {t : State} (h : Quiet t) : hblankBursts t = (t, []) := by
  unfold Machine.hblankBursts
  split
  · rfl
  · exact h.triggerDma_eq 2

theorem Quiet.startHblank {t : State} (h : Quiet t) : Quiet (startHblank t) := by
  rw [Machine.startHblank, h.hblankBursts_eq]
  exact (h.dispatch _).dispatchAll _

theorem Quiet.leaveHandler {t : State} (h : Quiet t) (s : Source) : Quiet (leaveHandler s t) := by
  rw [Machine.leaveHandler, wakeIfWaiting_nobody (by simpa using h.waiting)]
  exact h.of_eq rfl rfl rfl

/-- The substrate's operations install no handler, suspend nobody and arm no channel. -/
theorem Effect.quiet {i : Instr} {s u : State} {d : Half} (e : Effect s i d u) (hi : classOf i = .sub) (h : Quiet s) :
    Quiet u := by
  cases e
  case evtDispatch => exact h.dispatch _
  case evtHdone => exact h.leaveHandler _
  case evtLine => exact h.startLine
  case evtHbl => exact h.startHblank
  case evtKeys => exact h.of_eq rfl rfl rfl
  all_goals cases hi

theorem Quiet.respond {t : State} (h : Quiet t) (c : ResultCode) (d : Half) : Quiet (respond c d t) :=
  h.of_eq (by simp) (by simp) (by simp)

theorem fatalState_quiet (s : State) : Quiet (fatalState s) where
  vec src := by simp [fatalState]
  waiting := rfl
  disarmed ch := by
    have hch : (fatalState s).dma[ch] = { s.dma[ch] with ctrl := disarmWord s.dma[ch].ctrl } := disarmAll_channel s ch
    rw [hch]
    exact ctrlEn_disarmWord _

/-- A halted block runs the substrate's operations only (30_encoding.md R110), and those keep it quiet; SYS.FATAL halts a
block by making it quiet. -/
theorem exec_keeps_haltedQuiet {i : Instr} {s t : State} (hs : HaltedQuiet s) (hi : classOf i = .app → s.halted = false)
    (h : exec i s = .next t) : HaltedQuiet t := by
  rw [haltedQuiet_iff] at hs ⊢
  intro ht
  by_cases hf : i = .sysFatal
  · subst hf
    cases h
    exact (fatalState_quiet s).of_eq (keypadEpilogue_vec _) (keypadEpilogue_waiting _) (keypadEpilogue_dma _)
  · have hh : s.halted = true := ((ownWriters_exec h).halted hf).symm.trans ht
    have hsub : classOf i = .sub := by
      cases hc : classOf i with
      | sub => rfl
      | app => rw [hi hc] at hh; cases hh
    rcases exec_cases h with ⟨-, -, c, -, rfl⟩ | ⟨-, -, d, u, hu, rfl⟩ | ⟨rfl, -⟩ | ⟨rfl, -⟩
    · exact (hs hh).respond c 0
    · exact (hu.quiet hsub (hs hh)).respond .ok d
    · cases hsub
    · cases hsub

theorem HaltedQuiet.of_eq {t u : State} (h : HaltedQuiet t) (hh : u.halted = t.halted) (hv : u.vec = t.vec)
    (hw : u.waiting = t.waiting) (hd : u.dma = t.dma) : HaltedQuiet u :=
  haltedQuiet_iff.2 fun hu => (haltedQuiet_iff.1 h (hh.symm.trans hu)).of_eq hv hw hd

/-- Settles O19: the decode checks keep the application's operations off a halted block. -/
theorem stepKeepsHaltedQuiet : Obligations.StepKeepsHaltedQuiet := by
  intro s t hs hst
  rcases step_cases hst with ⟨-, -, rfl⟩ | ⟨a, v, left, -, rfl⟩ | ⟨-, -, left, code, -, -, rfl⟩ |
    ⟨who, fr, left, i, -, -, hc, happ, hx⟩
  · exact hs
  · exact hs.of_eq (by simp) (by simp) (by simp) (by simp)
  · exact hs.of_eq (by simp) (by simp) (by simp) (by simp)
  · have hleft : HaltedQuiet (s.setPending left) := hs.of_eq rfl rfl rfl rfl
    exact exec_keeps_haltedQuiet hleft (fun hi => happ (hc.symm.trans hi)) hx

end Sys2Proof.Machine
end

section
/-! SUPPORT and PROOFS. The family of `Mem` and the channel records over all operations: every step keeps the canonical form
of `Mem`, and which operations write `Mem` and the channels. -/

namespace Sys2Proof.Machine

/-! ## The canonical form of `Mem` (10_state.md R35) -/

/-- `Mem` is in its canonical form. -/
def MemCanonical (t : State) : Prop := t.mem.wf = true

theorem MemCanonical.of_mem_eq {t u : State} (h : MemCanonical t) (hm : u.mem = t.mem) : MemCanonical u :=
  (congrArg Memory.wf hm).trans h

/-- Bursts keep the canonical form. -/
theorem keptByUnits_memCanonical : KeptByUnits MemCanonical where
  reg r d x h := h.of_mem_eq (regWrite_mem r d x)
  poke a v _ h := pokeByte_wf h a v
  draw _ h := h
  chan _ _ _ h := h

theorem MemCanonical.dispatch {t : State} (h : MemCanonical t) (s : Source) : MemCanonical (dispatch s t).1 :=
  h.of_mem_eq (dispatch_mem s t)

theorem MemCanonical.startLine {t : State} (h : MemCanonical t) : MemCanonical (startLine t) :=
  startLine_keeps keptByUnits_memCanonical (fun s _ _ hx => hx.dispatch s) h

theorem MemCanonical.startHblank {t : State} (h : MemCanonical t) : MemCanonical (startHblank t) :=
  startHblank_keeps keptByUnits_memCanonical (fun s _ _ hx => hx.dispatch s) h

/-- Programming a channel stores nothing, and the burst after it keeps the canonical form. -/
theorem MemCanonical.burst_setChannel {t : State} (h : MemCanonical t) (ch : Channel) (d : DmaChannel)
    (fill : Option Word) : MemCanonical (burst ch fill (t.setChannel ch d)).1 :=
  burst_wf (t := t.setChannel ch d) h ch fill

theorem Effect.memCanonical {i : Instr} {s u : State} {d : Half} (e : Effect s i d u) (h : MemCanonical s) :
    MemCanonical u := by
  cases e
  case dmaCopy => exact h.burst_setChannel _ _ _
  case dmaFill => exact h.burst_setChannel _ _ _
  case dmaXferNow => exact (h.burst_setChannel _ _ _).of_mem_eq (sameStored_xferEnd _ _ _).mem
  case sramWr hu => exact copyBytes_wf _ h hu
  case sramRd hu => exact copyBytes_wf _ h hu
  case regRd => exact h.of_mem_eq (regRead_mem _ _)
  case regWr => exact h.of_mem_eq (regWrite_mem _ _ _)
  case evtDispatch => exact h.dispatch _
  case evtHdone => exact h.of_mem_eq (leaveHandler_mem _ _)
  case evtLine => exact h.startLine
  case evtHbl => exact h.startHblank
  all_goals exact h

/-- Settles O14: whatever an operation or the processor stores goes byte by byte through a write that keeps the canonical
form. -/
theorem stepKeepsMemoryCanonical : Obligations.StepKeepsMemoryCanonical := by
  intro s t h hst
  refine step_keeps (P := MemCanonical) (fun _ _ hx => hx) (fun a v _ hx => cpuStoreByte_wf hx a v)
    (fun c x hx => hx.of_mem_eq (respond_mem c 0 x)) (fun i x y hx hex => ?_) h hst
  exact exec_keeps (P := MemCanonical) (fun z hz => hz.of_mem_eq (keypadEpilogue_mem z)) (fun _ _ hz => hz) hx
    (fun _ _ _ e => e.memCanonical hx) hx hx hex

/-! ## The writers of `Mem` and of the channels -/

/-- Beside the five operations that run bursts, the storage operations alone write `Mem`, and DMA.STOP and SYS.FATAL alone
write a channel's record. -/
structure StoreWriters (i : Instr) (s t : State) : Prop where
  mem : (∀ a b c, i ≠ .sramWr a b c) → (∀ a b c, i ≠ .sramRd a b c) → t.mem = s.mem
  dma : (∀ idx, i ≠ .dmaStop idx) → i ≠ .sysFatal → t.dma = s.dma

theorem StoreWriters.of_eq {i : Instr} {s t : State} (hm : t.mem = s.mem) (hd : t.dma = s.dma) : StoreWriters i s t :=
  ⟨fun _ _ => hm, fun _ _ => hd⟩

theorem StoreWriters.trans {i : Instr} {s t u : State} (h : StoreWriters i s t) (hm : u.mem = t.mem)
    (hd : u.dma = t.dma) : StoreWriters i s u :=
  ⟨fun h1 h2 => hm.trans (h.mem h1 h2), fun h1 h2 => hd.trans (h.dma h1 h2)⟩

/-- A storage copy leaves the channels. -/
theorem copyBytes_dma {n : Nat} {t u : State} {d p : Word} (h : copyBytes n d p t = some u) : u.dma = t.dma := by
  rw [copyBytes_eq n h]
  rfl

/-- The effect of an operation that runs no burst. -/
theorem Effect.storeWriters {i : Instr} {s u : State} {d : Half} (e : Effect s i d u)
    (hcopy : ∀ idx f a b c, i ≠ .dmaCopy idx f a b c) (hfill : ∀ idx f a b c, i ≠ .dmaFill idx f a b c)
    (hxfer : ∀ idx cw a b c, i ≠ .dmaXfer idx cw a b c) (hline : i ≠ .evtLine) (hhbl : i ≠ .evtHbl) :
    StoreWriters i s u := by
  cases e
  case dmaCopy => exact absurd rfl (hcopy _ _ _ _ _)
  case dmaFill => exact absurd rfl (hfill _ _ _ _ _)
  case dmaXferNow => exact absurd rfl (hxfer _ _ _ _ _)
  case dmaXferArm => exact absurd rfl (hxfer _ _ _ _ _)
  case evtLine => exact absurd rfl hline
  case evtHbl => exact absurd rfl hhbl
  case dmaStop => exact ⟨fun _ _ => rfl, fun hn => absurd rfl (hn _)⟩
  case sramWr hu => exact ⟨fun hn => absurd rfl (hn _ _ _), fun _ _ => copyBytes_dma hu⟩
  case sramRd hu => exact ⟨fun _ hn => absurd rfl (hn _ _ _), fun _ _ => copyBytes_dma hu⟩
  case regRd => exact .of_eq (regRead_mem _ _) (regRead_dma _ _)
  case regWr => exact .of_eq (regWrite_mem _ _ _) (regWrite_dma _ _ _)
  case evtDispatch => exact .of_eq (dispatch_mem _ _) (dispatch_dma _ _)
  case evtHdone => exact .of_eq (leaveHandler_mem _ _) (leaveHandler_dma _ _)
  all_goals exact .of_eq rfl rfl

/-- Settles O24: the writers of each effect; the epilogue and the response write neither. -/
theorem otherOperationsLeaveMemoryAndChannels : Obligations.OtherOperationsLeaveMemoryAndChannels := by
  intro i s t h hcopy hfill hxfer hline hhbl
  have hw : StoreWriters i s t := by
    rcases exec_cases h with ⟨-, -, c, -, rfl⟩ | ⟨-, -, d, u, hu, rfl⟩ | ⟨rfl, rfl⟩ | ⟨rfl, rfl⟩
    · exact .of_eq (respond_mem _ _ _) (respond_dma _ _ _)
    · exact (hu.storeWriters hcopy hfill hxfer hline hhbl).trans (respond_mem _ _ _) (respond_dma _ _ _)
    · exact .of_eq (keypadEpilogue_mem _) (keypadEpilogue_dma _)
    · exact ⟨fun _ _ => keypadEpilogue_mem _, fun _ hn => absurd rfl hn⟩
  exact ⟨hw.mem, hw.dma⟩

end Sys2Proof.Machine
end
